-- ==== Sys2Proof/Word.lean ====
section
/-! DEFINITION. The word types of the block and the 128-bit message (30_encoding.md R90). -/

namespace Sys2Proof

/-- A mailbox word or a command operand: 64 bits (00_scope.md R5 WORD_BITS, 20_memory.md R65). -/
abbrev Word := BitVec 64

/-- A channel ID, an endpoint ID, a message type or a byte of memory: 8 bits (00_scope.md R5). -/
abbrev Byte := BitVec 8

/-- A message: exactly two 64-bit words (30_encoding.md R90, 00_scope.md R7). -/
structure Message where
  w0 : Word
  w1 : Word
  deriving DecidableEq, Repr, Inhabited

end Sys2Proof
end

