-- ==== Sys2Proof/Config.lean ====
section
/-! DEFINITION. The parameters a model instance fixes (00_scope.md R5, 20_memory.md R61, 43_command_boundary.md R212,
R213, R216, R220): fixed literals, the OPEN parameters as plain data, and the OPEN parameters of function type as
opaque constants. -/

namespace Sys2Proof

/-- The OPEN parameters (00_scope.md R5, 10_state.md R24): fixed per model instance, written by no step. -/
structure Config where
  /-- TYPE_HELLO_ACK (D10). -/
  typeHelloAck : Byte
  /-- TYPE_EPACK (D10). -/
  typeEpack : Byte
  /-- TYPE_EPSTART (D10). -/
  typeEpstart : Byte
  /-- TYPE_IDLE_REQ (D10). -/
  typeIdleReq : Byte
  /-- IDLE_REQ_PAYLOAD, 56 bits (D11). -/
  idleReqPayload : BitVec 56
  /-- EPMAP_LAST_BIT, 35 to 55 (D12). -/
  epmapLastBit : Nat
  /-- EP_MEM_MGMT, 1 to 255 (D17). -/
  epMemMgmt : Byte
  /-- EP_MEM_STOR, 1 to 255, not EP_MEM_MGMT (D17). -/
  epMemStor : Byte
  /-- POLL_BUDGET, at least 1 (D22, D23). -/
  pollBudget : Nat
  /-- POLL_DELAY_US: no rule depends on it (R140, D23). -/
  pollDelayUs : Nat
  /-- IN_DEPTH, at least 1 (D24). -/
  inDepth : Nat
  /-- OUT_DEPTH, at least 1 (D24). -/
  outDepth : Nat
  /-- MBOX_BASE (R61). -/
  mboxBase : Nat
  /-- OFF_OUT_STATUS (R61). -/
  offOutStatus : Nat
  /-- OFF_IN_STATUS (R61). -/
  offInStatus : Nat
  /-- OFF_OUT_W0 (R61). -/
  offOutW0 : Nat
  /-- OFF_OUT_W1 (R61). -/
  offOutW1 : Nat
  /-- OFF_IN_W0 (R61). -/
  offInW0 : Nat
  /-- OFF_IN_W1 (R61). -/
  offInW1 : Nat
  /-- OUT_FULL_BIT of OUT_STATUS (R61). -/
  outFullBit : Nat
  /-- IN_EMPTY_BIT of IN_STATUS (R61). -/
  inEmptyBit : Nat
  /-- CPU_CTRL_ADDR (R61, D26). -/
  cpuCtrlAddr : Nat
  /-- RUN_BIT of CPU_CTRL (R61, D26). -/
  runBit : Nat
  /-- CALL_BUF_OFFSET of the consumer (R212, D41). -/
  callBufOffset : Nat
  /-- WINDOW_ACCESS_BYTES of the consumer (R69, R212, D41). -/
  windowAccessBytes : Nat
  deriving DecidableEq, Repr

/-- The reference configuration RC (92_eei_decisions.md D46): the values the spec's vectors use. The fields D46 does
not name (the port's addresses and bits, the delay, the consumer's offset and width) hold values of the model's own
choice.
DESIGN CHOICE (log 1). Unsafe: a statement about State.reset alone sees these values. -/
def Config.rc : Config where
  typeHelloAck := 0x02
  typeEpack := 0x08
  typeEpstart := 0x05
  typeIdleReq := 0x06
  idleReqPayload := 0
  epmapLastBit := 51
  epMemMgmt := 0x01
  epMemStor := 0x02
  pollBudget := 4
  pollDelayUs := 1
  inDepth := 4
  outDepth := 4
  mboxBase := 0
  offOutStatus := 0
  offInStatus := 8
  offOutW0 := 16
  offOutW1 := 24
  offInW0 := 32
  offInW1 := 40
  outFullBit := 0
  inEmptyBit := 0
  cpuCtrlAddr := 48
  runBit := 0
  callBufOffset := 0
  windowAccessBytes := 4

/-- CALL_ENCODE (43_command_boundary.md R213): command byte, key or selector, input length and sequence tag to the two
request words. No source gives its layout (D41, log 27); the consumer puts the channel into bits 7:0 of the second word. -/
opaque Config.callEncode (command : Byte) (key length : Nat) (seq : BitVec 4) : Message

/-- What CALL_DECODE reads from a reply (43_command_boundary.md R216). -/
structure CallReply where
  seq : BitVec 4
  ok : Bool
  length : Nat
  deriving DecidableEq, Repr, Inhabited

/-- CALL_DECODE (43_command_boundary.md R216, D41, log 27). -/
opaque Config.callDecode (reply : Message) : CallReply

/-- KEY_PACK (43_command_boundary.md R220, D41, log 27): four characters to the 32-bit key. -/
opaque Config.keyPack (c0 c1 c2 c3 : Byte) : BitVec 32

/-- What a window access that breaks the order of 20_memory.md R74 reads, or leaves in memory, by the number of such
accesses before it: any value (93_implementation_defined.md K-17, 70_reset_and_hazards.md R298; log 37). An access takes
as many of its low bytes as it is wide. -/
opaque Config.freeWindowData (count : Nat) : Nat

/-- TYPE_HELLO (00_scope.md R5). -/
abbrev typeHello : Byte := 0x01
/-- TYPE_PWROK (00_scope.md R5). -/
abbrev typePwrok : Byte := 0x07
/-- TYPE_EPMAP (00_scope.md R5). -/
abbrev typeEpmap : Byte := 0x08
/-- TYPE_PWRACK (00_scope.md R5). -/
abbrev typePwrack : Byte := 0xB0
/-- PAGE_SIZE in bytes (00_scope.md R5). -/
abbrev pageSize : Nat := 4096
/-- EP_MAX_BLOCKS (00_scope.md R5). -/
abbrev epMaxBlocks : Nat := 8
/-- One past the largest physical address a grant can carry: PA_BITS = 44 (00_scope.md R5). -/
abbrev paLimit : Nat := 2 ^ 44

end Sys2Proof
end

