-- ==== Sys2Proof/Syntax.lean ====
section
/-! DEFINITION. One constructor per row of spec/opcode_table.json (30_encoding.md). -/

namespace Sys2Proof

/-- The host commands (R110), the inbound message kinds (R96 to R99) and the outbound message kinds (R100 to R105).
An inbound kind carries every bit of its message: the fields the block reads, and the bits no field names (`ign…`),
which a fault record keeps (R36) and a buffer grant partly echoes (R94). -/
inductive Instr where
  /-- RESV_INIT (R191): ARG0 = base, ARG1 = limit. -/
  | resvInit (base limit : Word)
  /-- BOOT (R233). -/
  | boot
  /-- SEND (R236): ARG0 = word 0, ARG1 = word 1. -/
  | send (w0 w1 : Word)
  /-- RECV (R237): SEL = the expected channel. -/
  | recv (ch : Byte)
  /-- RDREG (R238): SEL = the register number. -/
  | rdreg (sel : Byte)
  /-- RDEP (R239): SEL = the list index. -/
  | rdep (idx : Byte)
  /-- HELLO (R96): VER; ignored word 0 bits 55:32 and word 1 bits 63:8. -/
  | hello (ver : BitVec 32) (ign0 : BitVec 24) (ign1 : BitVec 56)
  /-- EPMAP (R97): BITMAP, BLOCK, LAST; `ign0` is word 0 bits 55:35 with the LAST position cleared, `ign1` word 1
  bits 63:8. -/
  | epmap (bitmap : BitVec 32) (block : BitVec 3) (last : Bool) (ign0 : BitVec 21) (ign1 : BitVec 56)
  /-- PWROK (R98): LOW32; ignored word 0 bits 55:32 and word 1 bits 63:8. -/
  | pwrok (low32 : BitVec 32) (ign0 : BitVec 24) (ign1 : BitVec 56)
  /-- BUFREQ on EP_MEM_MGMT (R99): TYPE (any), word 0 bits 55:52, COUNT, word 0 bits 43:0, word 1 bits 63:8. -/
  | bufreqMgmt (type : Byte) (ign52 : BitVec 4) (count : Byte) (ign0 : BitVec 44) (ign1 : BitVec 56)
  /-- BUFREQ on EP_MEM_STOR (R99). -/
  | bufreqStor (type : Byte) (ign52 : BitVec 4) (count : Byte) (ign0 : BitVec 44) (ign1 : BitVec 56)
  /-- IDLE_REQ (R100). -/
  | idleReq
  /-- HELLO_ACK (R101): VER. -/
  | helloAck (ver : BitVec 32)
  /-- EPACK (R102): LAST, BLOCK. -/
  | epack (last : Bool) (block : BitVec 3)
  /-- EPSTART (R103): EPID. -/
  | epstart (epid : Byte)
  /-- BUFGRANT (R104): the request's word 0 bits 63:44, ADDR, the request's word 1. -/
  | bufgrant (upper : BitVec 20) (addr : BitVec 44) (w1 : Word)
  /-- PWRACK (R105): LOW32. -/
  | pwrack (low32 : BitVec 32)
  deriving DecidableEq, Repr

end Sys2Proof
end

