-- ==== Sys2Proof/Machine/Operands.lean ====
section
/-! DEFINITION. Operand forms: the fields of messages and of the command word (30_encoding.md R91 to R94, R109), and
the messages of every kind (R96 to R105). -/

namespace Sys2Proof.Machine

/-! ### Operand extraction (R93) -/

/-- `type(m) = m.w0[63:56]` (R93). -/
def msgType (m : Message) : Byte := m.w0.extractLsb' 56 8

/-- `ep(m) = tag(m) = m.w1[7:0]` (R92, R93). -/
def msgEp (m : Message) : Byte := m.w1.extractLsb' 0 8

/-- `ver(m)`, `bitmap(m)`, `low32(m)`: `m.w0[31:0]` (R93). -/
def msgLow32 (m : Message) : BitVec 32 := m.w0.extractLsb' 0 32

/-- `block(m) = m.w0[34:32]` (R93). -/
def msgBlock (m : Message) : BitVec 3 := m.w0.extractLsb' 32 3

/-- `last(m) = m.w0[EPMAP_LAST_BIT]` (R93). -/
def msgLast (c : Config) (m : Message) : Bool := m.w0.getLsbD c.epmapLastBit

/-- `count(m) = m.w0[51:44]` (R93). -/
def msgCount (m : Message) : Byte := m.w0.extractLsb' 44 8

/-- `size(m) = count(m) * 4096`, in bytes (R93). -/
def requestSize (count : Byte) : Nat := count.toNat * pageSize

/-- The ID of bit `b` of block `B` is `b + 32 * B` (41_bootstrap.md R164). -/
def endpointId (block : BitVec 3) (b : Nat) : Byte := BitVec.ofNat 8 (b + 32 * block.toNat)

/-- The IDs an endpoint map appends: its set bits in ascending bit order (41_bootstrap.md R160). -/
def mapEndpoints (block : BitVec 3) (bitmap : BitVec 32) : List Byte :=
  ((List.range 32).filter fun b => bitmap.getLsbD b).map (endpointId block)

/-! ### Operand insertion (R94) -/

/-- A word with the field `v` from bit `n` up, zero elsewhere: `zext_64(v) << n` (00_scope.md R6). -/
def fieldAt {k : Nat} (n : Nat) (v : BitVec k) : Word := v.setWidth 64 <<< n

/-- `ctl(t, payload56)`: a control message on endpoint 0 (R94, D9). -/
def ctl (t : Byte) (payload : BitVec 56) : Message :=
  ⟨fieldAt 56 t ||| payload.setWidth 64, 0⟩

/-- `MASK44 = 2^44 - 1` (00_scope.md R6). -/
def mask44 : Word := 0x00000FFFFFFFFFFF

/-- `grant(m, a)`: bits 63:44 of word 0 and all of word 1 kept, the address in bits 43:0 (R94). -/
def grant (m : Message) (a : BitVec 44) : Message :=
  ⟨(m.w0 &&& ~~~mask44) ||| (a.setWidth 64 &&& mask44), m.w1⟩

/-! ### Inbound kinds (R96 to R99) -/

/-- The bit `v` at position `n` of a 64-bit word. -/
def bitAt (n : Nat) (v : Bool) : Word := fieldAt n (BitVec.ofBool v)

/-- A HELLO (R96). -/
def helloMsg (ver : BitVec 32) (ign0 : BitVec 24) (ign1 : BitVec 56) : Message :=
  ⟨fieldAt 56 typeHello ||| fieldAt 32 ign0 ||| fieldAt 0 ver, fieldAt 8 ign1⟩

/-- An EPMAP (R97), its LAST marker at EPMAP_LAST_BIT. -/
def epmapMsg (c : Config) (bitmap : BitVec 32) (block : BitVec 3) (last : Bool) (ign0 : BitVec 21)
    (ign1 : BitVec 56) : Message :=
  ⟨fieldAt 56 typeEpmap ||| fieldAt 35 ign0 ||| bitAt c.epmapLastBit last ||| fieldAt 32 block ||| fieldAt 0 bitmap,
    fieldAt 8 ign1⟩

/-- A PWROK (R98). -/
def pwrokMsg (low32 : BitVec 32) (ign0 : BitVec 24) (ign1 : BitVec 56) : Message :=
  ⟨fieldAt 56 typePwrok ||| fieldAt 32 ign0 ||| fieldAt 0 low32, fieldAt 8 ign1⟩

/-- A BUFREQ on the memory endpoint `ep` (R99). -/
def bufreqMsg (ep type : Byte) (ign52 : BitVec 4) (count : Byte) (ign0 : BitVec 44) (ign1 : BitVec 56) : Message :=
  ⟨fieldAt 56 type ||| fieldAt 52 ign52 ||| fieldAt 44 count ||| fieldAt 0 ign0, fieldAt 8 ign1 ||| fieldAt 0 ep⟩

/-! ### Outbound kinds (R100 to R105) -/

/-- IDLE_REQ (R100). -/
def idleReqMsg (c : Config) : Message := ctl c.typeIdleReq c.idleReqPayload

/-- HELLO_ACK (R101). -/
def helloAckMsg (c : Config) (ver : BitVec 32) : Message := ctl c.typeHelloAck (ver.setWidth 56)

/-- EPACK (R102). -/
def epackMsg (c : Config) (last : Bool) (block : BitVec 3) : Message :=
  ctl c.typeEpack
    (((BitVec.ofBool last).setWidth 56 <<< c.epmapLastBit) ||| (block.setWidth 56 <<< 32))

/-- EPSTART (R103). -/
def epstartMsg (c : Config) (epid : Byte) : Message := ctl c.typeEpstart (epid.setWidth 56 <<< 32)

/-- BUFGRANT written by its fields (R104): the kept bits 63:44, the address, the kept word 1. -/
def bufgrantMsg (upper : BitVec 20) (addr : BitVec 44) (w1 : Word) : Message := ⟨fieldAt 44 upper ||| fieldAt 0 addr, w1⟩

/-- PWRACK (R105). -/
def pwrackMsg (low32 : BitVec 32) : Message := ctl typePwrack (low32.setWidth 56)

/-! ### The host command word (R109) -/

/-- `OP = CMD[7:0]` (R109). -/
def cmdOp (cmd : Word) : Byte := cmd.extractLsb' 0 8

/-- `SEL = CMD[15:8]` (R109). -/
def cmdSel (cmd : Word) : Byte := cmd.extractLsb' 8 8

/-- The reserved bits `CMD[63:16]` (R109). -/
def cmdReserved (cmd : Word) : BitVec 48 := cmd.extractLsb' 16 48

/-- A command word with OP and SEL, the reserved bits 0 (R109, R112). -/
def cmdWord (op sel : Byte) : Word := fieldAt 8 sel ||| fieldAt 0 op

end Sys2Proof.Machine
end

