-- ==== Sys2Proof/WellFormed.lean ====
section
/-! DEFINITION. Which configurations and which instruction terms the spec admits. -/

namespace Sys2Proof

/-- The constraints of 70_reset_and_hazards.md R293; a configuration that breaks one is refused (K-13). -/
def Config.wf (c : Config) : Bool :=
  decide (1 ≤ c.pollBudget) && decide (1 ≤ c.inDepth) && decide (1 ≤ c.outDepth)
    && decide (35 ≤ c.epmapLastBit) && decide (c.epmapLastBit ≤ 55)
    && decide (c.epMemMgmt ≠ 0) && decide (c.epMemStor ≠ 0) && decide (c.epMemMgmt ≠ c.epMemStor)

/-- The operands' types bound every field to its width. What is left to check is EPMAP's LAST marker, which is carried
once: its position (EPMAP_LAST_BIT, word 0 bits 55:35) is clear in the ignored bits (30_encoding.md R91). -/
def Instr.wf (c : Config) : Instr → Bool
  | .resvInit _ _ => true
  | .boot => true
  | .send _ _ => true
  | .recv _ => true
  | .rdreg _ => true
  | .rdep _ => true
  | .hello _ _ _ => true
  | .epmap _ _ _ ign0 _ => !ign0.getLsbD (c.epmapLastBit - 35)
  | .pwrok _ _ _ => true
  | .bufreqMgmt _ _ _ _ _ => true
  | .bufreqStor _ _ _ _ _ => true
  | .idleReq => true
  | .helloAck _ => true
  | .epack _ _ => true
  | .epstart _ => true
  | .bufgrant _ _ _ => true
  | .pwrack _ => true

end Sys2Proof
end

