-- ==== Sys2Proof/Decode.lean ====
section
/-! DEFINITION. The decoder (30_encoding.md R95, R109 to R111): total on any words, rejecting by name; the encoder of
every instruction; and the table decoder the host asks about. -/

namespace Sys2Proof

open Sys2Proof.Machine

/-- Why words are no instruction. -/
inductive DecodeError where
  /-- CMD[63:16] is not 0 (R111, R231). -/
  | reservedBits
  /-- SEL is not 0 for RESV_INIT, BOOT or SEND (R111, R231). -/
  | nonzeroSelector
  /-- OP is 0x00 or 0x07 to 0xFF (R111, R231). -/
  | unassignedOp
  /-- An inbound message of no kind of R96 to R99 (R106). -/
  | unexpectedMessage
  /-- The latch does not hold a message of the kind the state sends (R100 to R105). -/
  | notThatKind
  /-- Not three words at the host port, or not two words of a message (R90, R109). -/
  | wordCount
  deriving DecidableEq, Repr

/-- The outbound kinds (R100 to R105), as the direction a message is read in. -/
inductive OutKind where
  | idleReq | helloAck | epack | epstart | bufgrant | pwrack
  deriving DecidableEq, Repr

/-- Where the block takes an instruction from: the host port (R230), the inbound FIFO in a WAIT_* state (R153), or the
outbound latch in a SEND_* state (R152). -/
inductive Source where
  | hostPort
  | inbound
  | outbound (k : OutKind)
  deriving DecidableEq, Repr

/-- Acceptance and dispatch of a host command (44_host_interface.md R231, codes R110, reserved encodings R111). -/
def decodeCommand (cmd arg0 arg1 : Word) : Except DecodeError Instr :=
  if cmdReserved cmd ≠ 0 then .error .reservedBits
  else if (cmdOp cmd = 0x01 ∨ cmdOp cmd = 0x02 ∨ cmdOp cmd = 0x03) ∧ cmdSel cmd ≠ 0 then .error .nonzeroSelector
  else if cmdOp cmd = 0x01 then .ok (.resvInit arg0 arg1)
  else if cmdOp cmd = 0x02 then .ok .boot
  else if cmdOp cmd = 0x03 then .ok (.send arg0 arg1)
  else if cmdOp cmd = 0x04 then .ok (.recv (cmdSel cmd))
  else if cmdOp cmd = 0x05 then .ok (.rdreg (cmdSel cmd))
  else if cmdOp cmd = 0x06 then .ok (.rdep (cmdSel cmd))
  else .error .unassignedOp

/-- Word 1's bits 63:8, which no field names (R92). -/
def ignoredW1 (m : Message) : BitVec 56 := m.w1.extractLsb' 8 56

/-- Word 0's bits 55:35 with the LAST position cleared (R91). -/
def ignoredMapBits (c : Config) (m : Message) : BitVec 21 :=
  m.w0.extractLsb' 35 21 &&& ~~~(1#21 <<< (c.epmapLastBit - 35))

/-- The kind of an inbound message: the memory endpoints first, then endpoint 0 by its type (R95 to R99). Which state
accepts the kind is the instruction's meaning. -/
def decodeInbound (c : Config) (m : Message) : Except DecodeError Instr :=
  if msgEp m = c.epMemMgmt then
    .ok (.bufreqMgmt (msgType m) (m.w0.extractLsb' 52 4) (msgCount m) (m.w0.extractLsb' 0 44) (ignoredW1 m))
  else if msgEp m = c.epMemStor then
    .ok (.bufreqStor (msgType m) (m.w0.extractLsb' 52 4) (msgCount m) (m.w0.extractLsb' 0 44) (ignoredW1 m))
  else if msgEp m ≠ 0 then .error .unexpectedMessage
  else if msgType m = typeHello then .ok (.hello (msgLow32 m) (m.w0.extractLsb' 32 24) (ignoredW1 m))
  else if msgType m = typeEpmap then
    .ok (.epmap (msgLow32 m) (msgBlock m) (msgLast c m) (ignoredMapBits c m) (ignoredW1 m))
  else if msgType m = typePwrok then .ok (.pwrok (msgLow32 m) (m.w0.extractLsb' 32 24) (ignoredW1 m))
  else .error .unexpectedMessage

/-- An outbound message read as the kind its SEND_* state sends (R100 to R105). -/
def decodeOutbound (c : Config) (k : OutKind) (m : Message) : Except DecodeError Instr :=
  match k with
  | .idleReq => if m = idleReqMsg c then .ok .idleReq else .error .notThatKind
  | .helloAck => if m = helloAckMsg c (msgLow32 m) then .ok (.helloAck (msgLow32 m)) else .error .notThatKind
  | .epack =>
    if m = epackMsg c (msgLast c m) (msgBlock m) then .ok (.epack (msgLast c m) (msgBlock m))
    else .error .notThatKind
  | .epstart =>
    if m = epstartMsg c (m.w0.extractLsb' 32 8) then .ok (.epstart (m.w0.extractLsb' 32 8))
    else .error .notThatKind
  | .bufgrant => .ok (.bufgrant (m.w0.extractLsb' 44 20) (m.w0.extractLsb' 0 44) m.w1)
  | .pwrack => if m = pwrackMsg (msgLow32 m) then .ok (.pwrack (msgLow32 m)) else .error .notThatKind

/-- The decoder over words: CMD, ARG0, ARG1 at the host port, word 0 and word 1 of a message elsewhere. -/
def decode (c : Config) (src : Source) (words : List Word) : Except DecodeError Instr :=
  match src, words with
  | .hostPort, [cmd, arg0, arg1] => decodeCommand cmd arg0 arg1
  | .inbound, [w0, w1] => decodeInbound c ⟨w0, w1⟩
  | .outbound k, [w0, w1] => decodeOutbound c k ⟨w0, w1⟩
  | _, _ => .error .wordCount

/-! ### The encoder -/

/-- Where the block takes each instruction from. -/
def Instr.source : Instr → Source
  | .resvInit _ _ => .hostPort
  | .boot => .hostPort
  | .send _ _ => .hostPort
  | .recv _ => .hostPort
  | .rdreg _ => .hostPort
  | .rdep _ => .hostPort
  | .hello _ _ _ => .inbound
  | .epmap _ _ _ _ _ => .inbound
  | .pwrok _ _ _ => .inbound
  | .bufreqMgmt _ _ _ _ _ => .inbound
  | .bufreqStor _ _ _ _ _ => .inbound
  | .idleReq => .outbound .idleReq
  | .helloAck _ => .outbound .helloAck
  | .epack _ _ => .outbound .epack
  | .epstart _ => .outbound .epstart
  | .bufgrant _ _ _ => .outbound .bufgrant
  | .pwrack _ => .outbound .pwrack

/-- The words of a message, word 0 first (R90). -/
def messageWords (m : Message) : List Word := [m.w0, m.w1]

/-- The words of an instruction: CMD, ARG0, ARG1 (R110; an operand the command ignores is written 0), or word 0 and
word 1 of the message (R96 to R105). -/
def encode (c : Config) : Instr → List Word
  | .resvInit base limit => [cmdWord 0x01 0, base, limit]
  | .boot => [cmdWord 0x02 0, 0, 0]
  | .send w0 w1 => [cmdWord 0x03 0, w0, w1]
  | .recv ch => [cmdWord 0x04 ch, 0, 0]
  | .rdreg sel => [cmdWord 0x05 sel, 0, 0]
  | .rdep idx => [cmdWord 0x06 idx, 0, 0]
  | .hello ver ign0 ign1 => messageWords (helloMsg ver ign0 ign1)
  | .epmap bitmap block last ign0 ign1 => messageWords (epmapMsg c bitmap block last ign0 ign1)
  | .pwrok low32 ign0 ign1 => messageWords (pwrokMsg low32 ign0 ign1)
  | .bufreqMgmt type ign52 count ign0 ign1 => messageWords (bufreqMsg c.epMemMgmt type ign52 count ign0 ign1)
  | .bufreqStor type ign52 count ign0 ign1 => messageWords (bufreqMsg c.epMemStor type ign52 count ign0 ign1)
  | .idleReq => messageWords (idleReqMsg c)
  | .helloAck ver => messageWords (helloAckMsg c ver)
  | .epack last block => messageWords (epackMsg c last block)
  | .epstart epid => messageWords (epstartMsg c epid)
  | .bufgrant upper addr w1 => messageWords (bufgrantMsg upper addr w1)
  | .pwrack low32 => messageWords (pwrackMsg low32)

/-! ### The table decoder -/

/-- `decodeOutbound`, its rejection forgotten. -/
def outboundKind? (c : Config) (k : OutKind) (m : Message) : Option Instr := (decodeOutbound c k m).toOption

/-- A 128-bit table word names no direction, and rows share words (log 17). Read it as the outbound kind whose fixed
bits it has in full, else as an inbound kind, else as BUFGRANT, whose row fixes no bit. -/
def decodeTableMessage (c : Config) (m : Message) : Option Instr :=
  (outboundKind? c .idleReq m).or <| (outboundKind? c .helloAck m).or <| (outboundKind? c .epack m).or <|
    (outboundKind? c .epstart m).or <| (outboundKind? c .pwrack m).or <|
      (decodeInbound c m).toOption.or (outboundKind? c .bufgrant m)

/-- Word `k` of a number, word 0 its least significant 64 bits (opcode_table.json: `M128`, 00_scope.md R7). -/
def wordOf (w k : Nat) : Word := BitVec.ofNat 64 (w >>> (64 * k))

/-- A table word of `nbits` bits is a host command when it is CMD alone or CMD with operands, a message when it is two
words. -/
def isCommandLength (nbits : Nat) : Bool := decide (nbits ≤ 64) || decide (128 < nbits)

/-- The instruction of an opcode-table word, under the reference configuration the table is written in (D46). -/
def decodeTableWord (nbits w : Nat) : Option Instr :=
  if isCommandLength nbits then
    (decodeCommand (wordOf (w % 2 ^ nbits) 0) (wordOf (w % 2 ^ nbits) 1) (wordOf (w % 2 ^ nbits) 2)).toOption
  else decodeTableMessage Config.rc ⟨wordOf (w % 2 ^ nbits) 0, wordOf (w % 2 ^ nbits) 1⟩

end Sys2Proof
end

