-- ==== Sys2Proof/Machine/State.lean ====
section
/-! DEFINITION. The state the spec gives the machine (10_state.md), the events that move it, its stops, and reset. -/

namespace Sys2Proof.Machine

/-- The twelve values of STATE (10_state.md R32). -/
inductive FsmState where
  | idle | waitHello | sendHello | waitEpmap | sendEpack | sendEpstart | waitPwrok | sendPwrack | done | failed
  | sendGrant | sendIdlereq
  deriving DecidableEq, Repr

/-- Status and fault codes (60_exceptions.md R261). -/
inductive Status where
  | ok | timeoutSend | timeoutRecv | protocolViolation | outOfMemory | nak | shortData | illegalOp
  deriving DecidableEq, Repr

/-- CUR_CMD: the host command in progress (10_state.md R30). -/
inductive CurCmd where
  | none | boot | send | recv
  deriving DecidableEq, Repr

/-- A host command at the port: CMD, ARG0, ARG1 (30_encoding.md R109). -/
structure HostRequest where
  cmd : Word
  arg0 : Word
  arg1 : Word
  deriving DecidableEq, Repr

/-- A command's result: STATUS, RES0, RES1 (30_encoding.md R109). -/
structure Response where
  status : Status
  res0 : Word
  res1 : Word
  deriving DecidableEq, Repr

/-- Physical memory (20_memory.md R60): the bytes that differ from `unlistedByte`, addresses strictly rising. -/
abbrev Memory := List Host.Cell

/-- What an address that memory does not list reads as. The spec gives no contents (10_state.md R43).
DESIGN CHOICE (log 21). Unsafe. -/
abbrev unlistedByte : Byte := 0

/-- A consumer call's arguments (43_command_boundary.md R210); the key or selector has no stated width. -/
structure CallRequest where
  channel : Byte
  command : Byte
  key : Nat
  input : List Byte
  capacity : Nat
  deriving DecidableEq, Repr

/-- How far a consumer call has come (43_command_boundary.md R212 to R216). -/
inductive CallPhase where
  /-- Window writes still to make, from `addr` on (R212); with none left the SEND is presented (R215). -/
  | writing (addr : Nat) (rest : List Byte)
  /-- The SEND is at the port or in progress (R215). -/
  | awaitSend
  /-- The RECV is at the port or in progress (R215). -/
  | awaitRecv
  /-- Window reads still to make, from `addr` on, and the bytes read so far (R216). -/
  | reading (addr remaining : Nat) (got : List Byte)
  deriving DecidableEq, Repr

/-- A consumer call in progress: its arguments, the sequence tag of its request (R214), its phase. -/
structure Call where
  req : CallRequest
  seq : BitVec 4
  phase : CallPhase
  deriving DecidableEq, Repr

/-- A SEND or RECV that HOST has presented and not seen to complete (44_host_interface.md R230). -/
inductive Issued where
  /-- A SEND of a message with this tag. -/
  | send (tag : Byte)
  /-- A RECV on this channel. -/
  | recv (ch : Byte)
  deriving DecidableEq, Repr

/-- HOST's record of its exchanges, by which R74 orders window accesses (20_memory.md R74, 43_command_boundary.md R215,
R219). No block rule reads it (log 36). -/
structure Exchange where
  /-- HOST's SEND or RECV in progress. -/
  command : Option Issued
  /-- The tags of the SENDs that completed with OK and whose matching RECV has not completed. -/
  awaited : List Byte
  /-- The tag of the last SEND that completed with OK. -/
  last : Option Byte
  /-- A RECV on that tag has completed with OK since. -/
  replied : Bool
  deriving DecidableEq, Repr

/-- What a call ends with: its outcome code (43_command_boundary.md R217) and, on success, the output bytes. -/
structure CallResult where
  code : Status
  bytes : List Byte
  deriving DecidableEq, Repr

/-- One turn of an agent (10_state.md R20, R21, R23). -/
inductive Event where
  /-- A BLOCK step. -/
  | block
  /-- HOST presents a command (R22, 44_host_interface.md R230). -/
  | present (r : HostRequest)
  /-- HOST begins a consumer call (43_command_boundary.md R210). -/
  | beginCall (r : CallRequest)
  /-- HOST goes on with its consumer call. -/
  | continueCall
  /-- HOST writes one window word outside its calls' own writes, in R74's order or against it (20_memory.md R74,
  70_reset_and_hazards.md R298). -/
  | windowWrite (addr v : Nat)
  /-- HOST reads one window word outside its calls' own reads, in R74's order or against it (20_memory.md R74,
  70_reset_and_hazards.md R298). -/
  | windowRead (addr : Nat)
  /-- COPROC appends a message to INQ (R21). -/
  | coprocAppend (m : Message)
  /-- COPROC removes the head of OUTQ (R21). -/
  | coprocDrain
  /-- COPROC writes a byte of physical memory (20_memory.md R74). -/
  | coprocWrite (addr : Nat) (b : Byte)
  /-- An agent outside the block writes CPU_CTRL (R38). -/
  | ctrlWrite (v : Nat)
  /-- The block's reset event (70_reset_and_hazards.md R290). -/
  | reset
  deriving DecidableEq, Repr

/-- Why the machine stops with a fault. -/
inductive Fault where
  /-- Raised by the consumer when a reply's sequence tag is not its request's (43_command_boundary.md R214, K-19).
  Safe: the spec gives such a call no result. -/
  | replySeqMismatch
  deriving DecidableEq, Repr

/-- Why a step is refused. -/
inductive Refusal where
  /-- Raised by an arm of `exec` whose instruction has no meaning yet. Safe. -/
  | notModelled (mnemonic : String)
  /-- Raised by `step` on a configuration that breaks R293 (70_reset_and_hazards.md; K-13). Safe: no run is defined. -/
  | badConfig
  /-- Raised by an inbound kind executed in a state that is no WAIT_* state, where the block reads no message (R95,
  R153). `step` never does so. Safe. -/
  | notReceiving
  /-- Raised by an outbound kind executed in a state that does not send that kind (R152). `step` never does so. Safe. -/
  | notSending
  /-- Raised by the consumer for a call on channel 0 or on a channel not discovered (43_command_boundary.md R211).
  Safe. -/
  | channelNotDiscovered
  /-- Raised by the consumer for an input longer than the window (43_command_boundary.md R212, K-18). Safe. -/
  | inputTooLong
  /-- Raised by a consumer's window access that is not aligned to WINDOW_ACCESS_BYTES (20_memory.md R71, K-18; log 24).
  Safe. -/
  | misalignedWindow
  deriving DecidableEq, Repr

/-- The machine. -/
structure State where
  /-- The parameters, written by no step (10_state.md R24; log 1). -/
  config : Config
  /-- STATE (R31). -/
  fsm : FsmState
  /-- CUR_CMD (R30). -/
  curCmd : CurCmd
  /-- CUR_CH (R30). -/
  curCh : Byte
  /-- TX_W0 (R26). -/
  txW0 : Word
  /-- TX_W1 (R26). -/
  txW1 : Word
  /-- EPMAP_LAST (R27). -/
  epmapLast : Bool
  /-- EP_IDX (R28). -/
  epIdx : BitVec 9
  /-- POLL_CTR (R29). -/
  pollCtr : Nat
  /-- HELLO_VER (R33). -/
  helloVer : BitVec 32
  /-- EP_LIST's valid entries, oldest first; their number is EP_COUNT (R34; log 8). -/
  epList : List Byte
  /-- EPMAP_COUNT (R35). -/
  epmapCount : BitVec 4
  /-- FAULT_CODE (R36). -/
  faultCode : Status
  /-- FAULT_STATE (R36). -/
  faultState : FsmState
  /-- FAULT_W0 (R36). -/
  faultW0 : Word
  /-- FAULT_W1 (R36). -/
  faultW1 : Word
  /-- RESV_VALID (R37). -/
  resvValid : Bool
  /-- RESV_BASE (R37). -/
  resvBase : BitVec 44
  /-- RESV_LIMIT (R37). -/
  resvLimit : BitVec 44
  /-- RESV_CURSOR (R37). -/
  resvCursor : BitVec 44
  /-- The command HOST has presented and BLOCK has not yet accepted (44_host_interface.md R230). -/
  request : Option HostRequest
  /-- The result of the last completed command, none before the first (R230). -/
  response : Option Response
  /-- The port's OUT_W0 register: the first half of a push (20_memory.md R61, R63). -/
  outW0 : Word
  /-- OUTQ, its head first (R44, R62). -/
  outq : List Message
  /-- INQ, its head first (R44, R62). -/
  inq : List Message
  /-- CPU_CTRL, its width open (R61; log 13). -/
  cpuCtrl : Nat
  /-- Physical memory (R60). -/
  mem : Memory
  /-- The consumer's SEQ (43_command_boundary.md R214). -/
  seq : BitVec 4
  /-- The consumer's call in progress. -/
  call : Option Call
  /-- The result of the consumer's last call (R216, R217). -/
  callResult : Option CallResult
  /-- HOST's record of its exchanges (20_memory.md R74; log 36). -/
  exchange : Exchange
  /-- The bytes of HOST's last window read outside its calls (20_memory.md R74; log 36). -/
  windowData : List Byte
  /-- How many window accesses have drawn a free value, the model's own counter (log 37). -/
  freeCtr : Nat
  /-- Whose turn it is, next first; with none listed BLOCK moves (log 3). -/
  agenda : List Event
  deriving DecidableEq, Repr

/-- The machine after the block's reset, over what reset leaves alone (10_state.md R42, R43): the configuration,
CPU_CTRL, the queues, the port's OUT_W0 and memory are the launch's arguments, and so is the count of free values drawn
(log 37). -/
def State.launch (c : Config) (cpuCtrl : Nat) (outW0 : Word) (outq inq : List Message) (mem : Memory)
    (freeCtr : Nat) (agenda : List Event) : State where
  config := c
  fsm := .idle
  curCmd := .none
  curCh := 0
  txW0 := 0
  txW1 := 0
  epmapLast := false
  epIdx := 0
  pollCtr := 0
  helloVer := 0
  epList := []
  epmapCount := 0
  faultCode := .ok
  faultState := .idle
  faultW0 := 0
  faultW1 := 0
  resvValid := false
  resvBase := 0
  resvLimit := 0
  resvCursor := 0
  request := none
  response := none
  outW0 := outW0
  outq := outq
  inq := inq
  cpuCtrl := cpuCtrl
  mem := mem
  seq := 0
  call := none
  callResult := none
  exchange := ⟨none, [], none, false⟩
  windowData := []
  freeCtr := freeCtr
  agenda := agenda

/-- The machine right after reset: the reference configuration, RUN clear, both FIFOs and memory empty, no event listed.
DESIGN CHOICE (logs 1, 2, 3, 37). Unsafe: `State.launch` gives the general case. -/
def State.reset : State := State.launch Config.rc 0 0 [] [] [] 0 []

end Sys2Proof.Machine
end

