-- ==== Sys2Proof/Machine/Flags.lean ====
section
/-! DEFINITION. The status flags the block's rules read or write (10_state.md R38), and the numbers of STATE and
STATUS. The block has no arithmetic condition codes. -/

namespace Sys2Proof.Machine

/-- OUT_FULL: `length(OUTQ) = OUT_DEPTH` (20_memory.md R62). -/
def outFull (s : State) : Bool := decide (s.outq.length = s.config.outDepth)

/-- IN_EMPTY: `length(INQ) = 0` (20_memory.md R62). -/
def inEmpty (s : State) : Bool := s.inq.isEmpty

/-- INQ holds IN_DEPTH messages, so COPROC cannot append (10_state.md R21, 20_memory.md R62). -/
def inFull (s : State) : Bool := decide (s.inq.length = s.config.inDepth)

/-- `RunRead()`: the RUN bit of CPU_CTRL (41_bootstrap.md R155). -/
def runRead (s : State) : Bool := s.cpuCtrl.testBit s.config.runBit

/-- `RunSet()`: `CPU_CTRL <- CPU_CTRL | (1 << RUN_BIT)`, other bits kept (41_bootstrap.md R155, D26). -/
def runSet (s : State) : State := { s with cpuCtrl := s.cpuCtrl ||| (1 <<< s.config.runBit) }

/-- The number of a STATE value (10_state.md R32). -/
def fsmCode : FsmState → BitVec 4
  | .idle => 0
  | .waitHello => 1
  | .sendHello => 2
  | .waitEpmap => 3
  | .sendEpack => 4
  | .sendEpstart => 5
  | .waitPwrok => 6
  | .sendPwrack => 7
  | .done => 8
  | .failed => 9
  | .sendGrant => 10
  | .sendIdlereq => 11

/-- The number of a status code (60_exceptions.md R261). -/
def statusCode : Status → Byte
  | .ok => 0
  | .timeoutSend => 1
  | .timeoutRecv => 2
  | .protocolViolation => 3
  | .outOfMemory => 4
  | .nak => 5
  | .shortData => 6
  | .illegalOp => 7

/-- The WAIT_* states (41_bootstrap.md R153). -/
def isWait : FsmState → Bool
  | .waitHello | .waitEpmap | .waitPwrok => true
  | .idle | .sendHello | .sendEpack | .sendEpstart | .sendPwrack | .done | .failed | .sendGrant | .sendIdlereq => false

/-- The SEND_* states (41_bootstrap.md R152). -/
def isSend : FsmState → Bool
  | .sendIdlereq | .sendHello | .sendEpack | .sendEpstart | .sendGrant | .sendPwrack => true
  | .idle | .waitHello | .waitEpmap | .waitPwrok | .done | .failed => false

/-- The host port is free: no command in progress and none presented (44_host_interface.md R230). -/
def portReady (s : State) : Bool := decide (s.curCmd = .none) && s.request.isNone

end Sys2Proof.Machine
end

