-- ==== Sys2Proof/Machine/Memory.lean ====
section
/-! DEFINITION. Physical memory: one canonical list of the bytes that differ from `unlistedByte`, and the window
accesses `MemRead` and `MemWrite` of 00_scope.md R8. -/

namespace Sys2Proof.Machine

/-- The byte at an address. -/
def readByte : Memory → Nat → Byte
  | [], _ => unlistedByte
  | (k, v) :: rest, a => if k = a then v else readByte rest a

/-- Put a byte before a tail of higher addresses, unless it is what an unlisted address reads as. -/
def consByte (a : Nat) (b : Byte) (rest : Memory) : Memory :=
  if b = unlistedByte then rest else (a, b) :: rest

/-- Write one byte, keeping the canonical form. -/
def writeByte (a : Nat) (b : Byte) : Memory → Memory
  | [] => consByte a b []
  | (k, v) :: rest =>
    if a < k then consByte a b ((k, v) :: rest)
    else if a = k then consByte a b rest
    else (k, v) :: writeByte a b rest

/-- Every listed address is at least `lo`, they rise strictly, and no listed byte is `unlistedByte`. -/
def Memory.wfFrom : Nat → Memory → Bool
  | _, [] => true
  | lo, (k, v) :: rest => decide (lo ≤ k) && decide (v ≠ unlistedByte) && Memory.wfFrom (k + 1) rest

/-- The canonical form holds. -/
def Memory.wf (m : Memory) : Bool := Memory.wfFrom 0 m

/-- Write a list of bytes at ascending addresses. -/
def writeBytes (a : Nat) : List Byte → Memory → Memory
  | [], m => m
  | b :: rest, m => writeBytes (a + 1) rest (writeByte a b m)

/-- Read `n` bytes at ascending addresses. -/
def readBytes (m : Memory) (a : Nat) : Nat → List Byte
  | 0 => []
  | n + 1 => readByte m a :: readBytes m (a + 1) n

/-- Bytes packed little-endian: the byte at the lowest address is the least significant (20_memory.md R70, D33). -/
def packLE : List Byte → Nat
  | [] => 0
  | b :: rest => b.toNat + 256 * packLE rest

/-- The `n` bytes of a value, little-endian (20_memory.md R70, D33). -/
def unpackLE : Nat → Nat → List Byte
  | 0, _ => []
  | n + 1, v => BitVec.ofNat 8 v :: unpackLE n (v / 256)

/-- An access of `n` bytes at `a` is aligned to its width (20_memory.md R71). -/
def windowAligned (a n : Nat) : Bool := decide (0 < n) && decide (a % n = 0)

/-- `MemWrite(addr, n, v)` (00_scope.md R8): `none` when misaligned (20_memory.md R71). -/
def memWrite (a n v : Nat) (m : Memory) : Option Memory :=
  if windowAligned a n then some (writeBytes a (unpackLE n v) m) else none

/-- `MemRead(addr, n)` (00_scope.md R8): `none` when misaligned (20_memory.md R71). -/
def memRead (a n : Nat) (m : Memory) : Option Nat :=
  if windowAligned a n then some (packLE (readBytes m a n)) else none

end Sys2Proof.Machine
end

