-- ==== Sys2Proof/Machine/Ops.lean ====
section
/-! DEFINITION. The shared operations of the block: the port and its queues, the poll iterations, the FSM's entry and
fault entry, the completion of a command, the allocator, the endpoint list, the register read, and the block's
reset. -/

namespace Sys2Proof.Machine

/-! ### The mailbox register port (20_memory.md R61 to R65) -/

/-- The port's six registers (R61). -/
inductive MboxReg where
  | outStatus | inStatus | outW0 | outW1 | inW0 | inW1
  deriving DecidableEq, Repr

/-- The address of a port register: its offset from MBOX_BASE (R61). -/
def mboxAddr (c : Config) : MboxReg → Nat
  | .outStatus => c.mboxBase + c.offOutStatus
  | .inStatus => c.mboxBase + c.offInStatus
  | .outW0 => c.mboxBase + c.offOutW0
  | .outW1 => c.mboxBase + c.offOutW1
  | .inW0 => c.mboxBase + c.offInW0
  | .inW1 => c.mboxBase + c.offInW1

/-- A status word whose bit `n` is the flag and whose other bits are any bits (R61; log 14). -/
def statusWord (other : Word) (n : Nat) (flag : Bool) : Word := (other &&& ~~~(1#64 <<< n)) ||| bitAt n flag

/-- Reading OUT_STATUS: OUT_FULL at OUT_FULL_BIT, no side effect (R61, R65). -/
def readOutStatus (other : Word) (s : State) : Word := statusWord other s.config.outFullBit (outFull s)

/-- Reading IN_STATUS: IN_EMPTY at IN_EMPTY_BIT, no side effect (R61, R65). -/
def readInStatus (other : Word) (s : State) : Word := statusWord other s.config.inEmptyBit (inEmpty s)

/-- Writing OUT_W0 (R63). -/
def writeOutW0 (v : Word) (s : State) : State := { s with outW0 := v }

/-- Writing OUT_W1 appends the pair to OUTQ as one message (R63). -/
def writeOutW1 (v : Word) (s : State) : State := { s with outq := s.outq ++ [⟨s.outW0, v⟩] }

/-- Reading IN_W0: the head's word 0, no side effect (R64); nothing to read while INQ is empty. -/
def readInW0 (s : State) : Option Word := s.inq.head?.map Message.w0

/-- INQ with other contents. -/
def setInq (q : List Message) (s : State) : State := { s with inq := q }

/-- Reading IN_W1: the head's word 1, and the message leaves INQ (R64). -/
def readInW1 (s : State) : Option (Word × State) :=
  match s.inq with
  | [] => none
  | m :: rest => some (m.w1, setInq rest s)

/-- `Push(m)`: OUT_W0 then OUT_W1 (R63). -/
def push (m : Message) (s : State) : State := writeOutW1 m.w1 (writeOutW0 m.w0 s)

/-- `Pop()`: IN_W0 then IN_W1 (R64). -/
def pop (s : State) : Option (Message × State) :=
  match readInW0 s, readInW1 s with
  | some w0, some (w1, s') => some (⟨w0, w1⟩, s')
  | _, _ => none

/-! ### Poll iterations (40_transport.md R131 to R136) -/

/-- The outbound latch as a message (10_state.md R26). -/
def txMsg (s : State) : Message := ⟨s.txW0, s.txW1⟩

/-- `(TX_W0, TX_W1) <- m` (R26). -/
def setTx (m : Message) (s : State) : State := { s with txW0 := m.w0, txW1 := m.w1 }

/-- `POLL_CTR <- POLL_CTR - 1` (R131). Every operation in progress has POLL_CTR at least 1 (log 7). -/
def spendPoll (s : State) : State := { s with pollCtr := s.pollCtr - 1 }

/-- How a send's poll iteration ends (R132). -/
inductive SendResult where
  | sent (s : State)
  | again (s : State)
  | timeout (s : State)

/-- `send_iter(t)` (R132). -/
def sendIter (t : Message) (s : State) : SendResult :=
  if outFull (spendPoll s) = false then .sent (push t (spendPoll s))
  else if (spendPoll s).pollCtr = 0 then .timeout (spendPoll s)
  else .again (spendPoll s)

/-- A receive's filter (R134). -/
inductive RecvFilter where
  | any
  | tag (ch : Byte)
  deriving DecidableEq, Repr

/-- The filter accepts the message (R134): only word 1 bits 7:0 are compared. -/
def accepts (f : RecvFilter) (m : Message) : Bool :=
  match f with
  | .any => true
  | .tag ch => decide (msgEp m = ch)

/-- How a receive's poll iteration ends (R134). -/
inductive RecvResult where
  | got (m : Message) (s : State)
  | again (s : State)
  | timeout (s : State)

/-- The end of a receive's iteration that accepted nothing (R134). -/
def recvWait (s : State) : RecvResult := if s.pollCtr = 0 then .timeout s else .again s

/-- `recv_iter(f)` (R134): a message the filter rejects is discarded (R137). -/
def recvIter (f : RecvFilter) (s : State) : RecvResult :=
  match pop (spendPoll s) with
  | none => recvWait (spendPoll s)
  | some (m, s') => if accepts f m then .got m s' else recvWait s'

/-! ### Command completion and the FSM (41_bootstrap.md R151, R154; 60_exceptions.md R264) -/

/-- `complete(status, res0, res1)` (44_host_interface.md R230). -/
def complete (status : Status) (res0 res1 : Word) (s : State) : State :=
  { s with response := some ⟨status, res0, res1⟩, curCmd := .none }

/-- `enter(S)`: a SEND_* or WAIT_* state starts with a full poll budget (R151). -/
def enter (f : FsmState) (s : State) : State :=
  { s with fsm := f, pollCtr := if isSend f || isWait f then s.config.pollBudget else s.pollCtr }

/-- What the fault entry records of the offending message: zero for none (R264). -/
def faultMessage : Option Message → Message
  | none => ⟨0, 0⟩
  | some m => m

/-- TAKING A FAULT: `fault(code, m)`, the bootstrap fault entry (R264). It saves the code, the state and the message,
ends in FAILED and completes BOOT with the code. There is no handler and no return from it: FAILED is left by reset
alone (R266), which is `resetBlock`. -/
def bootFault (code : Status) (m : Option Message) (s : State) : State :=
  complete code 0 0
    { s with
      faultCode := code
      faultState := s.fsm
      faultW0 := (faultMessage m).w0
      faultW1 := (faultMessage m).w1
      fsm := .failed }

/-- The block's reset event (R290): every block register at its reset value, the host port and the consumer with
nothing in progress, and what R43 and R291 name left alone. -/
def resetBlock (s : State) : State := 
  State.launch s.config s.cpuCtrl s.outW0 s.outq s.inq s.mem s.freeCtr s.agenda

/-- A step in a SEND_* state that sends `t` and goes on with `after` (R152). -/
def sendStep (t : Message) (after : State → State) (s : State) : State :=
  match sendIter t s with
  | .sent s' => after s'
  | .again s' => s'
  | .timeout s' => bootFault .timeoutSend none s'

/-! ### Endpoints (41_bootstrap.md R160, R165) -/

/-- EP_COUNT (10_state.md R34). -/
def epCount (s : State) : BitVec 9 := BitVec.ofNat 9 s.epList.length

/-- The first nonzero entry of a list whose first index is `i`, with its index. -/
def firstNonzero (i : Nat) : List Byte → Option (Nat × Byte)
  | [] => none
  | e :: rest => if e ≠ 0 then some (i, e) else firstNonzero (i + 1) rest

/-- The least `j ≥ i` with a nonzero `EP_LIST[j]`, and that entry (R165). -/
def nextStart (l : List Byte) (i : Nat) : Option (Nat × Byte) := firstNonzero i (l.drop i)

/-- `start_from(i)` (R165): entries equal to 0 are skipped. -/
def startFrom (i : Nat) (s : State) : State :=
  match nextStart s.epList i with
  | none => enter .waitPwrok { s with epIdx := epCount s }
  | some (j, e) => enter .sendEpstart (setTx (epstartMsg s.config e) { s with epIdx := BitVec.ofNat 9 j })

/-! ### The allocator (42_arbiter.md R191, R194) -/

/-- `Allocate(size)` (R194): `none` is OUT_OF_MEMORY (R195), and then nothing is written. The comparison is exact
(R196). -/
def allocate (size : Nat) (s : State) : Option (BitVec 44 × State) :=
  if s.resvLimit.toNat < s.resvCursor.toNat + size then none
  else some (s.resvBase + s.resvCursor, { s with resvCursor := BitVec.ofNat 44 (s.resvCursor.toNat + size) })

/-! ### The register read (10_state.md R39, 44_host_interface.md R238) -/

/-- The register a selector names, zero-extended to 64 bits; `none` for a reserved selector, and for the reservation
registers while RESV_VALID = 0 (R39). -/
def readReg (s : State) (sel : Byte) : Option Word :=
  match sel.toNat with
  | 0x00 => some ((fsmCode s.fsm).setWidth 64)
  | 0x01 => some ((statusCode s.faultCode).setWidth 64)
  | 0x02 => some ((fsmCode s.faultState).setWidth 64)
  | 0x03 => some s.faultW0
  | 0x04 => some s.faultW1
  | 0x05 => some (s.helloVer.setWidth 64)
  | 0x06 => some ((epCount s).setWidth 64)
  | 0x07 => some (s.epmapCount.setWidth 64)
  | 0x08 => some ((BitVec.ofBool s.resvValid).setWidth 64)
  | 0x09 => if s.resvValid then some (s.resvBase.setWidth 64) else none
  | 0x0A => if s.resvValid then some (s.resvLimit.setWidth 64) else none
  | 0x0B => if s.resvValid then some (s.resvCursor.setWidth 64) else none
  | 0x0D => some (s.epIdx.setWidth 64)
  | _ => none

end Sys2Proof.Machine
end

