-- ==== Sys2Proof/Machine/Consumer.lean ====
section
/-! DEFINITION. HOST's side of an exchange: the commands it presents, its window accesses and the order R74 gives them
(20_memory.md R74, 70_reset_and_hazards.md R298), and the command-layer consumer (43_command_boundary.md R210 to R220):
HOST's call, one HOST step at a time, built from window accesses and the block's SEND and RECV. -/

namespace Sys2Proof.Machine

/-! ### HOST's exchanges (20_memory.md R74; log 36) -/

/-- What the completion of HOST's SEND or RECV makes of its record: a SEND that was sent awaits its reply, and the RECV
on its tag ends that, with the reply if it completed with OK (43_command_boundary.md R215). That a RECV on its tag which
timed out ends it too is the model's reading of R218 (log 36). -/
def afterCompletion (e : Exchange) (st : Status) : Exchange :=
  match e.command with
  | none => e
  | some (.send tag) =>
    if st = .ok then ⟨none, tag :: e.awaited, some tag, false⟩ else { e with command := none }
  | some (.recv ch) =>
    ⟨none, e.awaited.erase ch, e.last, e.replied || (decide (st = .ok) && decide (e.last = some ch))⟩

/-- HOST's record now: a SEND or RECV it presented has completed once the port is free (44_host_interface.md R230). -/
def exchangeNow (s : State) : Exchange :=
  if portReady s then
    match s.response with
    | some r => afterCompletion s.exchange r.status
    | none => s.exchange
  else s.exchange

/-- What presenting a command makes of HOST's record (20_memory.md R74): only SEND and RECV are part of an exchange. The
tag of a SEND is its word 1 bits 7:0 (30_encoding.md R92). -/
def issueCommand (r : HostRequest) (e : Exchange) : Exchange :=
  match decodeCommand r.cmd r.arg0 r.arg1 with
  | .ok (.send w0 w1) => { e with command := some (.send (msgEp ⟨w0, w1⟩)) }
  | .ok (.recv ch) => { e with command := some (.recv ch) }
  | .ok _ => e
  | .error _ => e

/-- A SEND is presented or sent whose matching RECV has not completed (20_memory.md R74). -/
def requestOut (e : Exchange) : Bool :=
  match e.command with
  | some (.send _) => true
  | some (.recv _) => !e.awaited.isEmpty
  | none => !e.awaited.isEmpty

/-- A window write is in R74's order: no request is out, so the write comes before the SEND that carries it. A RECV in
progress with no SEND out does not put a write out of order (log 36). -/
def writeOrdered (s : State) : Bool := !requestOut (exchangeNow s)

/-- A window read is in R74's order: no request is out, and the RECV that returned the last one's reply has completed.
DESIGN CHOICE (log 36): a further RECV, with no SEND out, does not put a read out of order while it is in progress or by
how it completes. R298's "before its RECV completes" can be read to cover such a read; the model takes "its RECV" as the
one that returned the last SEND's reply. -/
def readOrdered (s : State) : Bool := !requestOut (exchangeNow s) && (exchangeNow s).replied

/-- HOST puts a command at the port (44_host_interface.md R230). -/
def presentRequest (r : HostRequest) (s : State) : State :=
  { s with request := some r, exchange := issueCommand r (exchangeNow s) }

/-- The next free value is drawn (log 37). -/
def drawFree (s : State) : State := { s with freeCtr := s.freeCtr + 1 }

/-- One window write of WINDOW_ACCESS_BYTES (43_command_boundary.md R212), `none` when misaligned (20_memory.md R71).
Against R74's order what then stands there, for COPROC and for every later read, is any value
(93_implementation_defined.md K-17, 70_reset_and_hazards.md R298; log 37). That a call's own writes are held to this
while another SEND of HOST awaits its reply, which R296 forbids, is the model's choice (log 36); so is that the address
is not tested against the window's extent (log 35). -/
def windowStore (addr v : Nat) (s : State) : Option State :=
  if writeOrdered s then
    match memWrite addr s.config.windowAccessBytes v s.mem with
    | none => none
    | some mem' => some { s with mem := mem' }
  else
    match memWrite addr s.config.windowAccessBytes (Config.freeWindowData s.freeCtr) s.mem with
    | none => none
    | some mem' => some (drawFree { s with mem := mem' })

/-- One window read of WINDOW_ACCESS_BYTES (43_command_boundary.md R216), `none` when misaligned (20_memory.md R71): the
data, and the state after. Against R74's order the data is any value (93_implementation_defined.md K-17,
70_reset_and_hazards.md R298; log 37). That a call's own reads are held to this while another SEND of HOST awaits its
reply is the model's choice (log 36); so is that the address is not tested against the window's extent (log 35). -/
def windowLoad (addr : Nat) (s : State) : Option (Nat × State) :=
  match memRead addr s.config.windowAccessBytes s.mem with
  | none => none
  | some v => if readOrdered s then some (v, s) else some (Config.freeWindowData s.freeCtr, drawFree s)

/-- HOST writes one window word outside its calls. Before DONE there is no window (44_host_interface.md R242; log 38). -/
def windowWrite (addr v : Nat) (s : State) : Host.Outcome State Fault Refusal :=
  if s.fsm = .done then
    match windowStore addr v s with
    | none => .refused .misalignedWindow
    | some s' => .next s'
  else .next s

/-- HOST reads one window word outside its calls. Before DONE there is no window (44_host_interface.md R242; log 38). -/
def windowRead (addr : Nat) (s : State) : Host.Outcome State Fault Refusal :=
  if s.fsm = .done then
    match windowLoad addr s with
    | none => .refused .misalignedWindow
    | some (v, s') => .next { s' with windowData := unpackLE s.config.windowAccessBytes v }
  else .next s

/-! ### The consumer's call (43_command_boundary.md R210 to R220) -/

/-- The command SEND m (30_encoding.md R110). -/
def sendRequest (m : Message) : HostRequest := ⟨cmdWord 0x03 0, m.w0, m.w1⟩

/-- The command RECV ch (30_encoding.md R110). -/
def recvRequest (ch : Byte) : HostRequest := ⟨cmdWord 0x04 ch, 0, 0⟩

/-- The request message (43_command_boundary.md R213): CALL_ENCODE's words, `w1[7:0] = channel_id`. -/
def callMessage (r : CallRequest) (seq : BitVec 4) : Message :=
  let m := Config.callEncode r.command r.key r.input.length seq
  ⟨m.w0, fieldAt 8 (m.w1.extractLsb' 8 56) ||| fieldAt 0 r.channel⟩

/-- The first window address of a call's buffer: CALL_BUF_OFFSET from RESV_BASE (43_command_boundary.md R212). -/
def callBuffer (s : State) : Nat := s.resvBase.toNat + s.config.callBufOffset

/-- A call that begins: its request uses the current SEQ, which then advances modulo 16 (43_command_boundary.md R214).
DESIGN CHOICE (log 39): SEQ advances here, in the step that begins the call and before its first window write. R214 gives
no step for it; the call keeps the tag it took, so its request does not depend on the step. -/
def openCall (r : CallRequest) (phase : CallPhase) (s : State) : State :=
  { s with call := some ⟨r, s.seq, phase⟩, seq := s.seq + 1 }

/-- HOST begins a call (43_command_boundary.md R210 to R212). Before DONE there is no window to write
(44_host_interface.md R242) and the SEND that follows is refused (R211). -/
def beginCall (r : CallRequest) (s : State) : Host.Outcome State Fault Refusal :=
  if s.fsm = .done then
    if r.channel = 0 ∨ r.channel ∉ s.epList then .refused .channelNotDiscovered
    else if s.resvLimit.toNat < s.config.callBufOffset + r.input.length then .refused .inputTooLong
    else .next (openCall r (.writing (callBuffer s) r.input) s)
  else .next (openCall r (.writing 0 []) s)

/-- The call goes on in another phase. -/
def setPhase (c : Call) (phase : CallPhase) (s : State) : State := { s with call := some { c with phase := phase } }

/-- The call ends (43_command_boundary.md R215 to R217). -/
def endCall (code : Status) (bytes : List Byte) (s : State) : State :=
  { s with call := none, callResult := some ⟨code, bytes⟩ }

/-- One window write, or the SEND when none is left (43_command_boundary.md R212, R215). A partial last word is padded
with zero bytes.
DESIGN CHOICE (log 36): a call begun while a SEND that HOST presented outside it still awaits its reply, which R296
forbids and the port does not refuse, writes against R74's order, so that `windowStore` leaves a free value. -/
def callWrite (c : Call) (addr : Nat) (rest : List Byte) (s : State) : Host.Outcome State Fault Refusal :=
  match rest with
  | [] => .next (presentRequest (sendRequest (callMessage c.req c.seq)) (setPhase c .awaitSend s))
  | _ :: _ =>
    let n := s.config.windowAccessBytes
    match windowStore addr (packLE (rest.take n)) s with
    | none => .refused .misalignedWindow
    | some s' => .next (setPhase c (.writing (addr + n) (rest.drop n)) s')

/-- The SEND has completed: the RECV, or the end of the call with the SEND's status (43_command_boundary.md R215,
R217). -/
def callAfterSend (c : Call) (s : State) : State :=
  match s.response with
  | none => s
  | some r =>
    if r.status = .ok then presentRequest (recvRequest c.req.channel) (setPhase c .awaitRecv s)
    else endCall r.status [] s

/-- The RECV has completed: the reply is decoded (43_command_boundary.md R214 to R217). -/
def callAfterRecv (c : Call) (s : State) : Host.Outcome State Fault Refusal :=
  match s.response with
  | none => .next s
  | some r =>
    if r.status = .ok then
      let reply := Config.callDecode ⟨r.res0, r.res1⟩
      if reply.seq ≠ c.seq then .fault .replySeqMismatch
      else if reply.ok = false then .next (endCall .nak [] s)
      else if reply.length < c.req.capacity then .next (endCall .shortData [] s)
      else .next (setPhase c (.reading (callBuffer s) c.req.capacity []) s)
    else .next (endCall r.status [] s)

/-- One window read, or the end of the call with the bytes read (43_command_boundary.md R216).
DESIGN CHOICE (log 35): the spec tests the input's fit only (R212), and R216 gives no test of `output_capacity`; a
copy-out that reaches past the window (`CALL_BUF_OFFSET + output_capacity > RESV_LIMIT`) reads the memory there. -/
def callRead (c : Call) (addr remaining : Nat) (got : List Byte) (s : State) : Host.Outcome State Fault Refusal :=
  match remaining with
  | 0 => .next (endCall .ok got s)
  | k + 1 =>
    let n := s.config.windowAccessBytes
    match windowLoad addr s with
    | none => .refused .misalignedWindow
    | some (v, s') =>
      .next (setPhase c (.reading (addr + n) (k + 1 - n) (got ++ (unpackLE n v).take (k + 1))) s')

/-- One HOST step of the call in progress, taken while the port is ready (10_state.md R22). -/
def consumerStep (c : Call) (s : State) : Host.Outcome State Fault Refusal :=
  match c.phase with
  | .writing addr rest => callWrite c addr rest s
  | .awaitSend => .next (callAfterSend c s)
  | .awaitRecv => callAfterRecv c s
  | .reading addr remaining got => callRead c addr remaining got s

/-- The SMC-style key and value call as an instance of the call (43_command_boundary.md R220): the key is four packed
characters, the command byte one of the consumer's SMC codes. -/
def smcCall (channel command c0 c1 c2 c3 : Byte) (payload : List Byte) (capacity : Nat) : CallRequest :=
  ⟨channel, command, (Config.keyPack c0 c1 c2 c3).toNat, payload, capacity⟩

end Sys2Proof.Machine
end

