-- ==== Sys2Proof/Machine/HostCommands.lean ====
section
/-! DEFINITION. The meanings of the host commands: their accepting steps (44_host_interface.md R231 to R239,
42_arbiter.md R191, R192, 41_bootstrap.md R155). -/

namespace Sys2Proof.Machine

/-- A command turned away: `complete(ILLEGAL_OP, 0, 0)` and no other change (44_host_interface.md R241). -/
def illegalOp (s : State) : State := complete .illegalOp 0 0 s

/-- The reservation registers after the first successful RESV_INIT (42_arbiter.md R191). -/
def createReservation (base limit : Word) (s : State) : State :=
  { s with
    resvBase := base.setWidth 44
    resvLimit := limit.setWidth 44
    resvCursor := 0
    resvValid := true }

/-- RESV_INIT (42_arbiter.md R191): idempotent once a reservation exists (R192); the sum is exact (R196). -/
def execResvInit (base limit : Word) (s : State) : Host.Outcome State Fault Refusal :=
  .next <|
    if s.resvValid then complete .ok (s.resvBase.setWidth 64) (s.resvLimit.setWidth 64) s
    else if paLimit ≤ base.toNat + limit.toNat then illegalOp s
    else complete .ok base limit (createReservation base limit s)

/-- The IDLE action (41_bootstrap.md R155). -/
def idleAction (s : State) : State :=
  if runRead s then enter .sendIdlereq (setTx (idleReqMsg s.config) s)
  else enter .waitHello (runSet s)

/-- BOOT (44_host_interface.md R233, refusals R234). -/
def execBoot (s : State) : Host.Outcome State Fault Refusal :=
  .next <|
    if s.fsm = .idle ∧ s.resvValid = true then idleAction { s with curCmd := .boot }
    else illegalOp s

/-- The start of a host SEND or RECV: a full poll budget, and the command is in progress (44_host_interface.md R236,
R237). -/
def startCommand (c : CurCmd) (s : State) : State := { s with pollCtr := s.config.pollBudget, curCmd := c }

/-- SEND (44_host_interface.md R236): the accepting step; `sendCommandStep` is each later one. -/
def execSend (w0 w1 : Word) (s : State) : Host.Outcome State Fault Refusal :=
  .next <|
    if s.fsm = .done then startCommand .send (setTx ⟨w0, w1⟩ s)
    else illegalOp s

/-- RECV (44_host_interface.md R237): the accepting step; `recvCommandStep` is each later one. -/
def execRecv (ch : Byte) (s : State) : Host.Outcome State Fault Refusal :=
  .next <|
    if s.fsm = .done then startCommand .recv { s with curCh := ch }
    else illegalOp s

/-- RDREG (44_host_interface.md R238). -/
def execRdreg (sel : Byte) (s : State) : Host.Outcome State Fault Refusal :=
  .next <|
    match readReg s sel with
    | some v => complete .ok v 0 s
    | none => illegalOp s

/-- RDEP (44_host_interface.md R239). -/
def execRdep (idx : Byte) (s : State) : Host.Outcome State Fault Refusal :=
  .next <|
    match s.epList[idx.toNat]? with
    | some e => if s.fsm = .done then complete .ok (e.setWidth 64) 0 s else illegalOp s
    | none => illegalOp s

/-- A block step of a SEND in progress (44_host_interface.md R236): a timeout is recoverable and writes no fault
register (60_exceptions.md R262). -/
def sendCommandStep (s : State) : State :=
  match sendIter (txMsg s) s with
  | .sent s' => complete .ok 0 0 s'
  | .again s' => s'
  | .timeout s' => complete .timeoutSend 0 0 s'

/-- A block step of a RECV in progress (44_host_interface.md R237). -/
def recvCommandStep (s : State) : State :=
  match recvIter (.tag s.curCh) s with
  | .got m s' => complete .ok m.w0 m.w1 s'
  | .again s' => s'
  | .timeout s' => complete .timeoutRecv 0 0 s'

end Sys2Proof.Machine
end

