-- ==== Sys2Proof/Machine/Inbound.lean ====
section
/-! DEFINITION. The meanings of the inbound message kinds: what the bootstrap FSM does with a message its receive has
just taken from INQ (30_encoding.md R95, 41_bootstrap.md R153 and R157 to R169). -/

namespace Sys2Proof.Machine

/-- A message the state does not accept: in a WAIT_* state the protocol-violation fault entry (41_bootstrap.md R158,
R162, R169). In any other state the block has received nothing, and no rule gives the message an effect (log 15). -/
def unexpectedMessage (m : Message) (s : State) : Host.Outcome State Fault Refusal :=
  if isWait s.fsm then .next (bootFault .protocolViolation (some m) s) else .refused .notReceiving

/-- HELLO (41_bootstrap.md R157). -/
def execHello (ver : BitVec 32) (ign0 : BitVec 24) (ign1 : BitVec 56) (s : State) : Host.Outcome State Fault Refusal :=
  if s.fsm = .waitHello then
    .next (enter .sendHello (setTx (helloAckMsg s.config ver) { s with helloVer := ver }))
  else unexpectedMessage (helloMsg ver ign0 ign1) s

/-- What an accepted endpoint map writes (41_bootstrap.md R160). -/
def acceptMap (bitmap : BitVec 32) (block : BitVec 3) (last : Bool) (s : State) : State :=
  enter .sendEpack
    (setTx (epackMsg s.config last block)
      { s with
        epList := s.epList ++ mapEndpoints block bitmap
        epmapCount := s.epmapCount + 1
        epmapLast := last })

/-- EPMAP (41_bootstrap.md R160); the ninth map is a protocol violation with nothing appended (R161). -/
def execEpmap (bitmap : BitVec 32) (block : BitVec 3) (last : Bool) (ign0 : BitVec 21) (ign1 : BitVec 56)
    (s : State) : Host.Outcome State Fault Refusal :=
  if s.fsm = .waitEpmap ∧ s.epmapCount.toNat < epMaxBlocks then .next (acceptMap bitmap block last s)
  else unexpectedMessage (epmapMsg s.config bitmap block last ign0 ign1) s

/-- PWROK (41_bootstrap.md R168). -/
def execPwrok (low32 : BitVec 32) (ign0 : BitVec 24) (ign1 : BitVec 56) (s : State) :
    Host.Outcome State Fault Refusal :=
  if s.fsm = .waitPwrok then .next (enter .sendPwrack (setTx (pwrackMsg low32) s))
  else unexpectedMessage (pwrokMsg low32 ign0 ign1) s

/-- A buffer request `m` for `size` bytes (41_bootstrap.md R167): the grant composed, or the out-of-memory fault entry
with the cursor unchanged. -/
def serveBufferRequest (m : Message) (size : Nat) (s : State) : State :=
  match allocate size s with
  | none => bootFault .outOfMemory (some m) s
  | some (a, s') => enter .sendGrant (setTx (grant m a) s')

/-- BUFREQ on EP_MEM_MGMT (41_bootstrap.md R167), whatever its TYPE. -/
def execBufreqMgmt (type : Byte) (ign52 : BitVec 4) (count : Byte) (ign0 : BitVec 44) (ign1 : BitVec 56) (s : State) :
    Host.Outcome State Fault Refusal :=
  if s.fsm = .waitPwrok then
    .next (serveBufferRequest (bufreqMsg s.config.epMemMgmt type ign52 count ign0 ign1) (requestSize count) s)
  else unexpectedMessage (bufreqMsg s.config.epMemMgmt type ign52 count ign0 ign1) s

/-- BUFREQ on EP_MEM_STOR (41_bootstrap.md R167), whatever its TYPE. -/
def execBufreqStor (type : Byte) (ign52 : BitVec 4) (count : Byte) (ign0 : BitVec 44) (ign1 : BitVec 56) (s : State) :
    Host.Outcome State Fault Refusal :=
  if s.fsm = .waitPwrok then
    .next (serveBufferRequest (bufreqMsg s.config.epMemStor type ign52 count ign0 ign1) (requestSize count) s)
  else unexpectedMessage (bufreqMsg s.config.epMemStor type ign52 count ign0 ign1) s

end Sys2Proof.Machine
end

