-- ==== Sys2Proof/Machine/Outbound.lean ====
section
/-! DEFINITION. The meanings of the outbound message kinds: each is one step of the SEND_* state that emits it
(41_bootstrap.md R152): a poll iteration that sends the message, and what follows a sent one (R156, R159, R163, R166,
R170, R171). -/

namespace Sys2Proof.Machine

/-- After the idle request (41_bootstrap.md R156). -/
def afterIdleReq (s : State) : State := enter .waitHello s

/-- After the hello-ack (41_bootstrap.md R159). -/
def afterHelloAck (s : State) : State := enter .waitEpmap s

/-- After an endpoint-map acknowledgement (41_bootstrap.md R163). -/
def afterEpack (s : State) : State := if s.epmapLast then startFrom 0 s else enter .waitEpmap s

/-- After a start message (41_bootstrap.md R166). -/
def afterEpstart (s : State) : State := startFrom (s.epIdx.toNat + 1) s

/-- After a buffer grant (41_bootstrap.md R170). -/
def afterGrant (s : State) : State := enter .waitPwrok s

/-- After the power ack: DONE, and BOOT completes with OK (41_bootstrap.md R171). -/
def afterPwrack (s : State) : State := complete .ok 0 0 { s with fsm := .done }

/-- `after_send(STATE)` (41_bootstrap.md R152). A state that is no SEND_* state has none. -/
def afterSend : FsmState → State → State
  | .sendIdlereq, s => afterIdleReq s
  | .sendHello, s => afterHelloAck s
  | .sendEpack, s => afterEpack s
  | .sendEpstart, s => afterEpstart s
  | .sendGrant, s => afterGrant s
  | .sendPwrack, s => afterPwrack s
  | .idle, s | .waitHello, s | .waitEpmap, s | .waitPwrok, s | .done, s | .failed, s => s

/-- A SEND_* state's step for the message `t`, in the one state that sends it (log 16). -/
def sendFrom (f : FsmState) (t : Message) (after : State → State) (s : State) : Host.Outcome State Fault Refusal :=
  if s.fsm = f then .next (sendStep t after s) else .refused .notSending

/-- IDLE_REQ (41_bootstrap.md R156, message R100). -/
def execIdleReq (s : State) : Host.Outcome State Fault Refusal :=
  sendFrom .sendIdlereq (idleReqMsg s.config) afterIdleReq s

/-- HELLO_ACK (41_bootstrap.md R159, message R101). -/
def execHelloAck (ver : BitVec 32) (s : State) : Host.Outcome State Fault Refusal :=
  sendFrom .sendHello (helloAckMsg s.config ver) afterHelloAck s

/-- EPACK (41_bootstrap.md R163, message R102). -/
def execEpack (last : Bool) (block : BitVec 3) (s : State) : Host.Outcome State Fault Refusal :=
  sendFrom .sendEpack (epackMsg s.config last block) afterEpack s

/-- EPSTART (41_bootstrap.md R166, message R103). -/
def execEpstart (epid : Byte) (s : State) : Host.Outcome State Fault Refusal :=
  sendFrom .sendEpstart (epstartMsg s.config epid) afterEpstart s

/-- BUFGRANT (41_bootstrap.md R170, message R104). -/
def execBufgrant (upper : BitVec 20) (addr : BitVec 44) (w1 : Word) (s : State) : Host.Outcome State Fault Refusal :=
  sendFrom .sendGrant (bufgrantMsg upper addr w1) afterGrant s

/-- PWRACK (41_bootstrap.md R171, message R105). -/
def execPwrack (low32 : BitVec 32) (s : State) : Host.Outcome State Fault Refusal :=
  sendFrom .sendPwrack (pwrackMsg low32) afterPwrack s

end Sys2Proof.Machine
end

