-- ==== Sys2Proof/Machine/Dispatch.lean ====
section
/-! DEFINITION. One arm per constructor of Instr: which meaning it calls. -/

namespace Sys2Proof.Machine

/-- The meaning of an instruction. -/
def exec (i : Instr) (s : State) : Host.Outcome State Fault Refusal :=
  match i with
  -- host commands
  | .resvInit base limit => Sys2Proof.Machine.execResvInit base limit s
  | .boot => Sys2Proof.Machine.execBoot s
  | .send w0 w1 => Sys2Proof.Machine.execSend w0 w1 s
  | .recv ch => Sys2Proof.Machine.execRecv ch s
  | .rdreg sel => Sys2Proof.Machine.execRdreg sel s
  | .rdep idx => Sys2Proof.Machine.execRdep idx s
  -- inbound messages
  | .hello ver ign0 ign1 => Sys2Proof.Machine.execHello ver ign0 ign1 s
  | .epmap bitmap block last ign0 ign1 => Sys2Proof.Machine.execEpmap bitmap block last ign0 ign1 s
  | .pwrok low32 ign0 ign1 => Sys2Proof.Machine.execPwrok low32 ign0 ign1 s
  | .bufreqMgmt type ign52 count ign0 ign1 => Sys2Proof.Machine.execBufreqMgmt type ign52 count ign0 ign1 s
  | .bufreqStor type ign52 count ign0 ign1 => Sys2Proof.Machine.execBufreqStor type ign52 count ign0 ign1 s
  -- outbound messages
  | .idleReq => Sys2Proof.Machine.execIdleReq s
  | .helloAck ver => Sys2Proof.Machine.execHelloAck ver s
  | .epack last block => Sys2Proof.Machine.execEpack last block s
  | .epstart epid => Sys2Proof.Machine.execEpstart epid s
  | .bufgrant upper addr w1 => Sys2Proof.Machine.execBufgrant upper addr w1 s
  | .pwrack low32 => Sys2Proof.Machine.execPwrack low32 s

end Sys2Proof.Machine
end

