-- ==== Sys2Proof/Machine/Block.lean ====
section
/-! DEFINITION. One BLOCK step: where it fetches an instruction and how it runs it (10_state.md R23, R31,
41_bootstrap.md R152, R153, 44_host_interface.md R230); one turn of whichever agent is next (10_state.md R20 to R23);
and the placing of a table word where the next BLOCK step fetches. -/

namespace Sys2Proof.Machine

/-! ### One BLOCK step -/

/-- Acceptance of the command at the port (44_host_interface.md R231): the decoded instruction runs; a reserved encoding
completes with ILLEGAL_OP (30_encoding.md R111). -/
def acceptStep (r : HostRequest) (s : State) : Host.Outcome State Fault Refusal :=
  match decodeCommand r.cmd r.arg0 r.arg1 with
  | .ok i => exec i { s with request := none }
  | .error _ => .next (illegalOp { s with request := none })

/-- What the bootstrap does with a message it received: the instruction it decodes to runs; any other message is a
protocol violation (30_encoding.md R95, R106). -/
def onMessage (m : Message) (s : State) : Host.Outcome State Fault Refusal :=
  match decodeInbound s.config m with
  | .ok i => exec i s
  | .error _ => unexpectedMessage m s

/-- A step in a WAIT_* state (41_bootstrap.md R153). -/
def waitStep (s : State) : Host.Outcome State Fault Refusal :=
  match recvIter .any s with
  | .got m s' => onMessage m s'
  | .again s' => .next s'
  | .timeout s' => .next (bootFault .timeoutRecv none s')

/-- The kind of message a SEND_* state sends (10_state.md R32, 30_encoding.md R100 to R105). -/
def outKind : FsmState → OutKind
  | .sendIdlereq => .idleReq
  | .sendHello => .helloAck
  | .sendEpack => .epack
  | .sendEpstart => .epstart
  | .sendPwrack => .pwrack
  | .sendGrant | .idle | .waitHello | .waitEpmap | .waitPwrok | .done | .failed => .bufgrant

/-- A step in a SEND_* state (41_bootstrap.md R152): the latch read as the state's kind runs. A latch that is no such
message, which no run leaves there, is sent as it stands (R152; log 16). -/
def sendStateStep (s : State) : Host.Outcome State Fault Refusal :=
  match decodeOutbound s.config (outKind s.fsm) (txMsg s) with
  | .ok i => exec i s
  | .error _ => .next (sendStep (txMsg s) (afterSend s.fsm) s)

/-- A step of BOOT (44_host_interface.md R233): by the FSM's state. In IDLE, DONE and FAILED the FSM has no step
(41_bootstrap.md R155, R172, R173). -/
def bootStep (s : State) : Host.Outcome State Fault Refusal :=
  if isWait s.fsm then waitStep s
  else if isSend s.fsm then sendStateStep s
  else .next s

/-- One BLOCK step (10_state.md R23): the command in progress goes on, or the presented command is accepted; with
neither, BLOCK waits for a command (R30). -/
def blockStep (s : State) : Host.Outcome State Fault Refusal :=
  match s.curCmd with
  | .boot => bootStep s
  | .send => .next (sendCommandStep s)
  | .recv => .next (recvCommandStep s)
  | .none =>
    match s.request with
    | some r => acceptStep r s
    | none => .next s

/-! ### The other agents -/

/-- COPROC appends to INQ, if it is not full (10_state.md R21; log 4). -/
def coprocAppend (m : Message) (s : State) : State :=
  if inFull s then s else { s with inq := s.inq ++ [m] }

/-- COPROC removes the head of OUTQ, if there is one (10_state.md R21; log 4). -/
def coprocDrain (s : State) : State := { s with outq := s.outq.tail }

/-- COPROC writes a byte of memory (20_memory.md R74). -/
def coprocWrite (addr : Nat) (b : Byte) (s : State) : State := { s with mem := writeByte addr b s.mem }

/-- A HOST turn that does `act` (10_state.md R22): while a command is in progress HOST waits and BLOCK goes on; while a
call is unfinished HOST goes on with it; else HOST acts, and `rest` is what is left of the agenda (log 5). -/
def hostTurn (rest : List Event) (act : State → Host.Outcome State Fault Refusal) (s : State) :
    Host.Outcome State Fault Refusal :=
  if portReady s then
    match s.call with
    | some c => consumerStep c s
    | none => act { s with agenda := rest }
  else blockStep s

/-- A HOST turn that only goes on with a call: nothing to do when there is none. -/
def continueTurn (rest : List Event) (s : State) : Host.Outcome State Fault Refusal :=
  if portReady s then
    match s.call with
    | some c => consumerStep c { s with agenda := rest }
    | none => .next { s with agenda := rest }
  else blockStep s

/-- One turn: the agenda's next event, or a BLOCK step when it lists none (log 3). -/
def turn (s : State) : Host.Outcome State Fault Refusal :=
  match s.agenda with
  | [] => blockStep s
  | .block :: rest => blockStep { s with agenda := rest }
  | .present r :: rest => hostTurn rest (fun s' => .next (presentRequest r s')) s
  | .beginCall r :: rest => hostTurn rest (beginCall r) s
  | .continueCall :: rest => continueTurn rest s
  | .windowWrite addr v :: rest => windowWrite addr v { s with agenda := rest }
  | .windowRead addr :: rest => windowRead addr { s with agenda := rest }
  | .coprocAppend m :: rest => .next (coprocAppend m { s with agenda := rest })
  | .coprocDrain :: rest => .next (coprocDrain { s with agenda := rest })
  | .coprocWrite addr b :: rest => .next (coprocWrite addr b { s with agenda := rest })
  | .ctrlWrite v :: rest => .next { s with agenda := rest, cpuCtrl := v }
  | .reset :: rest => .next (resetBlock { s with agenda := rest })

/-- One step: a configuration that breaks R293 is refused (70_reset_and_hazards.md; K-13). -/
def stepTurn (s : State) : Host.Outcome State Fault Refusal :=
  if s.config.wf then turn s else .refused .badConfig

/-! ### Placing a table word where the next step fetches (log 18) -/

/-- The SEND_* state that sends a kind. -/
def kindState : OutKind → FsmState
  | .idleReq => .sendIdlereq
  | .helloAck => .sendHello
  | .epack => .sendEpack
  | .epstart => .sendEpstart
  | .bufgrant => .sendGrant
  | .pwrack => .sendPwrack

/-- The WAIT_* state that accepts an inbound kind (30_encoding.md R95). -/
def acceptingState : Instr → FsmState
  | .hello _ _ _ => .waitHello
  | .epmap _ _ _ _ _ => .waitEpmap
  | .pwrok _ _ _ => .waitPwrok
  | .bufreqMgmt _ _ _ _ _ => .waitPwrok
  | .bufreqStor _ _ _ _ _ => .waitPwrok
  | .resvInit _ _ | .boot | .send _ _ | .recv _ | .rdreg _ | .rdep _ => .idle
  | .idleReq | .helloAck _ | .epack _ _ | .epstart _ | .bufgrant _ _ _ | .pwrack _ => .idle

/-- BLOCK moves next, under a legal configuration. -/
def readyToStep (s : State) : State :=
  { s with config := if s.config.wf then s.config else Config.rc, agenda := .block :: s.agenda }

/-- A BOOT in progress whose poll budget is not spent. -/
def inBoot (s : State) : State :=
  { s with curCmd := .boot, pollCtr := if s.pollCtr = 0 then s.config.pollBudget else s.pollCtr }

/-- The message stands at the head of INQ, where a WAIT_* state's receive takes it. -/
def placeInbound (m : Message) (s : State) : State := setInq (m :: s.inq.tail) s

/-- The FSM put in a state (for the placing of a word only: no rule does this). -/
def setFsm (f : FsmState) (s : State) : State := { s with fsm := f }

/-- A command presented at a free port. -/
def placeCommand (r : HostRequest) (s : State) : State := { s with curCmd := .none, request := some r }

/-- A WAIT_* state of a BOOT in progress: the next BLOCK step takes a message from INQ (41_bootstrap.md R153). -/
def receiving (s : State) : Bool := decide (s.curCmd = .boot) && isWait s.fsm

/-- The instruction a placed message is: in a receiving state it arrives inbound if it is of an inbound kind; elsewhere
the table decoder says its direction (log 18). -/
def placedInstr (m : Message) (s : State) : Option Instr :=
  if receiving s then (decodeInbound s.config m).toOption.or (decodeTableMessage s.config m)
  else decodeTableMessage s.config m

/-- A message put where the next step fetches: the FSM is in, or is put in, the state that reads it. -/
def placeMessage (m : Message) (s : State) : State :=
  match placedInstr m s with
  | none => s
  | some i =>
    match i.source with
    | .outbound k => setTx m (setFsm (kindState k) (inBoot s))
    | .inbound => placeInbound m (setFsm (if receiving s then s.fsm else acceptingState i) (inBoot s))
    | .hostPort => s

/-- An instruction of the opcode table, its bits `w` zero above `nbits`, put where the next step fetches. -/
def placeWord (nbits w : Nat) (s : State) : State :=
  let v := w % 2 ^ nbits
  if isCommandLength nbits then
    placeCommand ⟨wordOf v 0, wordOf v 1, wordOf v 2⟩ (readyToStep s)
  else placeMessage ⟨wordOf v 0, wordOf v 1⟩ (readyToStep s)

end Sys2Proof.Machine
end

