-- ==== Sys2Proof/Machine/Step.lean ====
section
/-! DEFINITION. The step of the machine, and the fetch interface of the host. -/

namespace Sys2Proof.Machine

/-- One step of the machine: one turn of the agent whose turn it is (10_state.md R20, R23). -/
def step (s : State) : Host.Outcome State Fault Refusal := stepTurn s

/-- `s` with the instruction of `nbits` bits `w` stored where the next step fetches, and that step BLOCK's (log 18). -/
def State.withFetchWord (s : State) (nbits w : Nat) : State := placeWord nbits w s

end Sys2Proof.Machine
end

