-- ==== Sys2Proof/Safety.lean ====
section
/-! DEFINITION. What the claims are stated in: the transition table, the invariant of every reachable state, what a run
is, and the spec's relations between states. -/

namespace Sys2Proof.Machine

/-- The edges of the FSM (41_bootstrap.md R174), but for AGAIN, which leaves the state, and the reset event. -/
def fsmEdge : FsmState → FsmState → Bool
  | .idle, .sendIdlereq => true
  | .idle, .waitHello => true
  | .sendIdlereq, .waitHello => true
  | .waitHello, .sendHello => true
  | .sendHello, .waitEpmap => true
  | .waitEpmap, .sendEpack => true
  | .sendEpack, .waitEpmap => true
  | .sendEpack, .sendEpstart => true
  | .sendEpack, .waitPwrok => true
  | .sendEpstart, .sendEpstart => true
  | .sendEpstart, .waitPwrok => true
  | .waitPwrok, .sendGrant => true
  | .sendGrant, .waitPwrok => true
  | .waitPwrok, .sendPwrack => true
  | .sendPwrack, .done => true
  | f, .failed => isWait f || isSend f
  | _, _ => false

/-- The bootstrap is in progress: a SEND_* or WAIT_* state (44_host_interface.md R240). -/
def inBootstrap (s : State) : Bool := isSend s.fsm || isWait s.fsm

/-- What every reachable state keeps. -/
structure State.Inv (s : State) : Prop where
  /-- The configuration is one R293 admits. -/
  config : s.config.wf = true
  /-- Memory is in canonical form. -/
  memory : s.mem.wf = true
  /-- 20_memory.md R62. -/
  outqDepth : s.outq.length ≤ s.config.outDepth
  /-- 20_memory.md R62. -/
  inqDepth : s.inq.length ≤ s.config.inDepth
  /-- 10_state.md R29. -/
  pollBound : s.pollCtr ≤ s.config.pollBudget
  /-- An operation in progress has a poll iteration left (40_transport.md R131). -/
  pollLeft : s.curCmd ≠ .none → 1 ≤ s.pollCtr
  /-- BOOT is in progress exactly in the SEND_* and WAIT_* states (44_host_interface.md R233, R235). -/
  boot : s.curCmd = .boot ↔ inBootstrap s = true
  /-- A host SEND or RECV is in progress only in DONE (R236, R237). -/
  hostDone : (s.curCmd = .send ∨ s.curCmd = .recv) → s.fsm = .done
  /-- A command waits at the port only while none is in progress (R230). -/
  portFree : s.request.isSome = true → s.curCmd = .none
  /-- The bootstrap ran only with a reservation (R234). -/
  reserved : s.fsm ≠ .idle → s.resvValid = true
  /-- 10_state.md R37. -/
  reservation : s.resvValid = true → s.resvCursor.toNat ≤ s.resvLimit.toNat ∧
    s.resvBase.toNat + s.resvLimit.toNat < paLimit
  /-- 41_bootstrap.md R175. -/
  endpoints : s.epList.length ≤ 32 * s.epmapCount.toNat ∧ s.epmapCount.toNat ≤ epMaxBlocks
  /-- 41_bootstrap.md R175. -/
  epIdx : s.epIdx.toNat ≤ s.epList.length
  /-- FAILED is the state with a fault recorded (60_exceptions.md R264). -/
  fault : s.faultCode ≠ .ok ↔ s.fsm = .failed
  /-- In a SEND_* state the latch holds a message of the state's kind (30_encoding.md R100 to R105). -/
  latch : isSend s.fsm = true → ∃ i, decodeOutbound s.config (outKind s.fsm) (txMsg s) = .ok i
  /-- In SEND_EPSTART the latch starts the entry EP_IDX names, and that entry is not 0 (41_bootstrap.md R165). -/
  starting : s.fsm = .sendEpstart →
    ∃ e, e ≠ 0 ∧ s.epList[s.epIdx.toNat]? = some e ∧ txMsg s = epstartMsg s.config e

/-- BLOCK moves next, under a configuration R293 admits, and no later event is listed. -/
def blockNext (s : State) : Bool := s.config.wf && s.agenda.isEmpty

/-- The next event is the block's reset (70_reset_and_hazards.md R290). -/
def resetNext (s : State) : Bool :=
  match s.agenda with
  | .reset :: _ => true
  | _ => false

/-- `k` steps of the machine, stopping at the first stop. -/
def run : Nat → State → Host.Outcome State Fault Refusal
  | 0, s => .next s
  | k + 1, s =>
    match step s with
    | .next t => run k t
    | .fault r => .fault r
    | .refused r => .refused r

/-- A run of allocations of the given sizes: the granted base addresses and the state after them, or none as soon as one
fails (42_arbiter.md R199). -/
def grantAll : List Nat → State → Option (List Nat × State)
  | [], s => some ([], s)
  | size :: rest, s =>
    match allocate size s with
    | none => none
    | some (a, s') =>
      match grantAll rest s' with
      | none => none
      | some (as, t) => some (a.toNat :: as, t)

/-- The endpoints a list of endpoint-map blocks (block index, bitmap) appends, in the order received
(41_bootstrap.md R160). -/
def mapsEndpoints (maps : List (BitVec 3 × BitVec 32)) : List Byte :=
  maps.flatMap fun p => mapEndpoints p.1 p.2

/-- An outcome's state changed, its stop kept. -/
def mapOutcome (f : State → State) : Host.Outcome State Fault Refusal → Host.Outcome State Fault Refusal
  | .next s => .next (f s)
  | .fault r => .fault r
  | .refused r => .refused r

/-- The same machine with another POLL_DELAY_US (40_transport.md R140). -/
def withDelay (d : Nat) (s : State) : State := { s with config := { s.config with pollDelayUs := d } }

end Sys2Proof.Machine
end

