-- ==== Sys2Proof/Certificates/Slice0/Obligations.lean ====
section
/-! DEFINITION. The statements for the provers. -/

open Sys2Proof Sys2Proof.Machine

/-! ### Encoding -/

/-- Decode and encode agree on every well-formed instruction, for every configuration R293 admits (R95 to R105, R110). -/
def Obligations.DecodeOfEncodeGivesInstruction : Prop :=
  ∀ (c : Config) (i : Instr), c.wf = true → i.wf c = true → decode c i.source (encode c i) = .ok i

/-- No bit of an inbound message is dropped: the instruction it decodes to encodes back to it (R92, R95 to R99). -/
def Obligations.InboundDecodeKeepsEveryBit : Prop :=
  ∀ (c : Config) (m : Message) (i : Instr), c.wf = true → decodeInbound c m = .ok i →
    i.source = .inbound ∧ i.wf c = true ∧ encode c i = messageWords m

/-- The classification of R95, its conditions on the message's bits, and the operands of every inbound message: the bits
each is read from (R92, R93, R96 to R99). -/
def Obligations.InboundKindIsByEndpointAndType : Prop :=
  ∀ (c : Config) (m : Message), c.wf = true →
    ((∃ t x n a b, decodeInbound c m = .ok (.bufreqMgmt t x n a b)) ↔ m.w1.toNat % 256 = c.epMemMgmt.toNat) ∧
    ((∃ t x n a b, decodeInbound c m = .ok (.bufreqStor t x n a b)) ↔ m.w1.toNat % 256 = c.epMemStor.toNat) ∧
    ((∃ v a b, decodeInbound c m = .ok (.hello v a b)) ↔ m.w1.toNat % 256 = 0 ∧ m.w0.toNat / 2 ^ 56 = 0x01) ∧
    ((∃ b k l x y, decodeInbound c m = .ok (.epmap b k l x y)) ↔
      m.w1.toNat % 256 = 0 ∧ m.w0.toNat / 2 ^ 56 = 0x08) ∧
    ((∃ v a b, decodeInbound c m = .ok (.pwrok v a b)) ↔ m.w1.toNat % 256 = 0 ∧ m.w0.toNat / 2 ^ 56 = 0x07) ∧
    (∀ t x n a b,
      (decodeInbound c m = .ok (.bufreqMgmt t x n a b) ∨ decodeInbound c m = .ok (.bufreqStor t x n a b)) →
        t.toNat = m.w0.toNat / 2 ^ 56 ∧ x.toNat = m.w0.toNat / 2 ^ 52 % 16 ∧ n.toNat = m.w0.toNat / 2 ^ 44 % 256 ∧
        a.toNat = m.w0.toNat % 2 ^ 44 ∧ b.toNat = m.w1.toNat / 2 ^ 8) ∧
    (∀ v a b, (decodeInbound c m = .ok (.hello v a b) ∨ decodeInbound c m = .ok (.pwrok v a b)) →
      v.toNat = m.w0.toNat % 2 ^ 32 ∧ a.toNat = m.w0.toNat / 2 ^ 32 % 2 ^ 24 ∧ b.toNat = m.w1.toNat / 2 ^ 8) ∧
    (∀ b k l x y, decodeInbound c m = .ok (.epmap b k l x y) →
      b.toNat = m.w0.toNat % 2 ^ 32 ∧ k.toNat = m.w0.toNat / 2 ^ 32 % 8 ∧
      l = m.w0.toNat.testBit c.epmapLastBit ∧
      (∀ j, j < 21 → x.toNat.testBit j = (m.w0.toNat.testBit (35 + j) && decide (35 + j ≠ c.epmapLastBit))) ∧
      y.toNat = m.w1.toNat / 2 ^ 8)

/-- Every legal command word, OP + SEL * 256, decodes to its command (R109, R110), and message words written out from the
spec's encodings decode to what they stand for (R112, R160, R167 examples). -/
def Obligations.SampleWordsDecode : Prop :=
  (∀ (cmd a0 a1 : Word) (sel : Byte),
    (cmd.toNat = 0x01 → decodeCommand cmd a0 a1 = .ok (.resvInit a0 a1)) ∧
    (cmd.toNat = 0x02 → decodeCommand cmd a0 a1 = .ok .boot) ∧
    (cmd.toNat = 0x03 → decodeCommand cmd a0 a1 = .ok (.send a0 a1)) ∧
    (cmd.toNat = 0x04 + sel.toNat * 256 → decodeCommand cmd a0 a1 = .ok (.recv sel)) ∧
    (cmd.toNat = 0x05 + sel.toNat * 256 → decodeCommand cmd a0 a1 = .ok (.rdreg sel)) ∧
    (cmd.toNat = 0x06 + sel.toNat * 256 → decodeCommand cmd a0 a1 = .ok (.rdep sel))) ∧
  decodeCommand 0x0000000000000304 0 0 = .ok (.recv 3) ∧
  decodeCommand 0x0000000000000905 0 0 = .ok (.rdreg 9) ∧
  decodeInbound Config.rc ⟨0x0808000000000029, 0⟩ = .ok (.epmap 0x29 0 true 0 0) ∧
  decodeInbound Config.rc ⟨0x0100200000000000, 1⟩ = .ok (.bufreqMgmt 1 0 2 0 0) ∧
  decodeOutbound Config.rc .epstart ⟨0x0500002000000000, 0⟩ = .ok (.epstart 0x20)

/-- R111: a reserved command word completes at once with ILLEGAL_OP and changes nothing else. -/
def Obligations.ReservedCommandCompletesIllegalOp : Prop :=
  ∀ (s : State) (r : HostRequest), blockNext s = true → s.curCmd = .none → s.request = some r →
    (r.cmd.toNat % 256 = 0 ∨ 7 ≤ r.cmd.toNat % 256 ∨ r.cmd.toNat / 2 ^ 16 ≠ 0 ∨
      (1 ≤ r.cmd.toNat % 256 ∧ r.cmd.toNat % 256 ≤ 3 ∧ r.cmd.toNat / 2 ^ 8 % 256 ≠ 0)) →
    step s = .next { s with request := none, response := some ⟨.illegalOp, 0, 0⟩ } ∧ statusCode .illegalOp = 7

/-! ### The step -/

/-- A step runs the decoded instruction: at the host port (R230, R231), in a WAIT_* state (R153) and in a SEND_* state
(R152). Around `exec` the step takes the request off the port, or spends a poll iteration and takes the message off
INQ. -/
def Obligations.StepRunsDecodedInstruction : Prop :=
  ∀ (s : State) (i : Instr), s.config.wf = true →
    (s.agenda = [] ∨ ∃ rest, s.agenda = .block :: rest) →
    (∀ r, s.curCmd = .none → s.request = some r → decodeCommand r.cmd r.arg0 r.arg1 = .ok i →
      step s = exec i { s with agenda := s.agenda.tail, request := none }) ∧
    (∀ m rest, s.curCmd = .boot → isWait s.fsm = true → s.inq = m :: rest → decodeInbound s.config m = .ok i →
      step s = exec i { s with agenda := s.agenda.tail, pollCtr := s.pollCtr - 1, inq := rest }) ∧
    (s.curCmd = .boot → isSend s.fsm = true → decodeOutbound s.config (outKind s.fsm) (txMsg s) = .ok i →
      step s = exec i { s with agenda := s.agenda.tail })

/-- The other agents' turns: COPROC appends when INQ is not full, drains, writes memory (R21, R62, R74); an outside
agent writes CPU_CTRL (R38); HOST accesses the window, exactly while the access keeps R74's order, and with a free value
in the accessed bytes where it breaks it (R298, K-17). Which accesses keep the order, and what HOST's record of its
exchanges, by which that is told, now says: a matching RECV is one on the SEND's tag (R215). The model's choices: a
further RECV with no SEND out puts neither a write nor a read out of order (log 36, unsafe), a
COPROC turn that cannot append changes nothing (log 4), a misaligned access is refused and one of 0 bytes counts as
misaligned (log 24, DEDUCED), the address is not tested against the window's extent, so that an access past the
reservation is made like any other (log 35, DESIGN CHOICE, unsafe), HOST's record (log 36), the drawing of free values
(log 37), no access before DONE (log 38). -/
def Obligations.OtherAgentsTurns : Prop :=
  (∀ s : State,
    (writeOrdered s = true ↔ (exchangeNow s).awaited = [] ∧ ∀ tag, (exchangeNow s).command ≠ some (.send tag)) ∧
    (readOrdered s = true ↔ writeOrdered s = true ∧ (exchangeNow s).replied = true) ∧
    ((s.curCmd ≠ .none ∨ s.request ≠ none ∨ s.response = none) → exchangeNow s = s.exchange) ∧
    (∀ r, s.curCmd = .none → s.request = none → s.response = some r →
      (s.exchange.command = none → exchangeNow s = s.exchange) ∧
      (∀ tag, s.exchange.command = some (.send tag) →
        (r.status = .ok → exchangeNow s = ⟨none, tag :: s.exchange.awaited, some tag, false⟩) ∧
        (r.status ≠ .ok → exchangeNow s = { s.exchange with command := none })) ∧
      (∀ ch, s.exchange.command = some (.recv ch) → ∃ b, exchangeNow s =
          { s.exchange with command := none, awaited := s.exchange.awaited.erase ch, replied := b } ∧
        (b = true ↔ s.exchange.replied = true ∨ (r.status = .ok ∧ s.exchange.last = some ch))))) ∧
  ∀ (s : State) (rest : List Event), s.config.wf = true →
    (∀ m, s.agenda = .coprocAppend m :: rest → s.inq.length ≠ s.config.inDepth →
      step s = .next { s with agenda := rest, inq := s.inq ++ [m] }) ∧
    (∀ m, s.agenda = .coprocAppend m :: rest → s.inq.length = s.config.inDepth →
      step s = .next { s with agenda := rest }) ∧
    (s.agenda = .coprocDrain :: rest → step s = .next { s with agenda := rest, outq := s.outq.tail }) ∧
    (∀ a b, s.agenda = .coprocWrite a b :: rest →
      step s = .next { s with agenda := rest, mem := writeByte a b s.mem }) ∧
    (∀ v, s.agenda = .ctrlWrite v :: rest → step s = .next { s with agenda := rest, cpuCtrl := v }) ∧
    (∀ a v, s.agenda = .windowWrite a v :: rest →
      (s.fsm ≠ .done → step s = .next { s with agenda := rest }) ∧
      (s.fsm = .done → 0 < s.config.windowAccessBytes → a % s.config.windowAccessBytes = 0 →
        (writeOrdered s = true → ∃ m',
          memWrite a s.config.windowAccessBytes v s.mem = some m' ∧
          step s = .next { s with agenda := rest, mem := m' }) ∧
        (writeOrdered s = false → ∃ x m',
          memWrite a s.config.windowAccessBytes x s.mem = some m' ∧
          step s = .next { s with agenda := rest, mem := m', freeCtr := s.freeCtr + 1 })) ∧
      (s.fsm = .done → (s.config.windowAccessBytes = 0 ∨ a % s.config.windowAccessBytes ≠ 0) →
        step s = .refused .misalignedWindow)) ∧
    (∀ a, s.agenda = .windowRead a :: rest →
      (s.fsm ≠ .done → step s = .next { s with agenda := rest }) ∧
      (s.fsm = .done → 0 < s.config.windowAccessBytes → a % s.config.windowAccessBytes = 0 →
        (readOrdered s = true →
          step s = .next { s with agenda := rest, windowData := readBytes s.mem a s.config.windowAccessBytes }) ∧
        (readOrdered s = false → ∃ d : List Byte, d.length = s.config.windowAccessBytes ∧
          step s = .next { s with agenda := rest, windowData := d, freeCtr := s.freeCtr + 1 })) ∧
      (s.fsm = .done → (s.config.windowAccessBytes = 0 ∨ a % s.config.windowAccessBytes ≠ 0) →
        step s = .refused .misalignedWindow))

/-- HOST presents a command at a free port, and waits while one is in progress or waiting (R22, R230): the step is then
BLOCK's and the event stays listed (the model's choice, log 5). A SEND with its tag, or a RECV with its channel, is the
command of HOST's exchange from the moment it is presented (R74, R92; HOST's record is the model's, log 36). -/
def Obligations.HostPresentsOnlyAtFreePort : Prop :=
  ∀ (s : State) (r : HostRequest) (rest : List Event), s.config.wf = true → s.agenda = .present r :: rest →
    (s.curCmd = .none → s.request = none → s.call = none → ∃ e,
      step s = .next { s with agenda := rest, request := some r, exchange := e } ∧
      (∀ w0 w1, decodeCommand r.cmd r.arg0 r.arg1 = .ok (.send w0 w1) → ∃ tag : Byte, tag.toNat = w1.toNat % 256 ∧
        e = { exchangeNow s with command := some (.send tag) }) ∧
      (∀ ch, decodeCommand r.cmd r.arg0 r.arg1 = .ok (.recv ch) →
        e = { exchangeNow s with command := some (.recv ch) }) ∧
      ((∀ w0 w1, decodeCommand r.cmd r.arg0 r.arg1 ≠ .ok (.send w0 w1)) →
        (∀ ch, decodeCommand r.cmd r.arg0 r.arg1 ≠ .ok (.recv ch)) → e = exchangeNow s)) ∧
    ((s.curCmd ≠ .none ∨ s.request ≠ none) → step s = blockStep s)

/-! ### The transport -/

/-- Push and Pop at register level (R63, R64) and the status words' flags (R61, R62), whatever the other bits are. -/
def Obligations.PortMovesWholeMessages : Prop :=
  (∀ (m : Message) (s : State),
    writeOutW1 m.w1 (writeOutW0 m.w0 s) = { s with outW0 := m.w0, outq := s.outq ++ [m] }) ∧
  (∀ (m : Message) (rest : List Message) (s : State), s.inq = m :: rest →
    readInW0 s = some m.w0 ∧ readInW1 s = some (m.w1, { s with inq := rest }) ∧
    pop s = some (m, { s with inq := rest })) ∧
  (∀ (other : Word) (s : State), s.config.outFullBit < 64 → s.config.inEmptyBit < 64 →
    ((readOutStatus other s).getLsbD s.config.outFullBit = true ↔ s.outq.length = s.config.outDepth) ∧
    ((readInStatus other s).getLsbD s.config.inEmptyBit = true ↔ s.inq.length = 0))

/-- One block step of a host SEND in progress (R132, R236, R262). -/
def Obligations.HostSendIteration : Prop :=
  ∀ (s : State), blockNext s = true → s.curCmd = .send → 1 ≤ s.pollCtr →
    (s.outq.length ≠ s.config.outDepth →
      step s = .next { s with
        pollCtr := s.pollCtr - 1, outW0 := s.txW0, outq := s.outq ++ [⟨s.txW0, s.txW1⟩],
        response := some ⟨.ok, 0, 0⟩, curCmd := .none }) ∧
    (s.outq.length = s.config.outDepth → s.pollCtr = 1 →
      step s = .next { s with pollCtr := 0, response := some ⟨.timeoutSend, 0, 0⟩, curCmd := .none }) ∧
    (s.outq.length = s.config.outDepth → s.pollCtr ≠ 1 → step s = .next { s with pollCtr := s.pollCtr - 1 })

/-- One block step of a host RECV in progress (R134, R237, R262): only word 1 bits 7:0 are compared. -/
def Obligations.HostRecvIteration : Prop :=
  ∀ (s : State), blockNext s = true → s.curCmd = .recv → 1 ≤ s.pollCtr →
    (∀ m rest, s.inq = m :: rest → m.w1.toNat % 256 = s.curCh.toNat →
      step s = .next { s with
        pollCtr := s.pollCtr - 1, inq := rest, response := some ⟨.ok, m.w0, m.w1⟩, curCmd := .none }) ∧
    (((∃ m rest, s.inq = m :: rest ∧ m.w1.toNat % 256 ≠ s.curCh.toNat) ∨ s.inq = []) →
      (s.pollCtr = 1 → step s = .next { s with
        pollCtr := 0, inq := s.inq.tail, response := some ⟨.timeoutRecv, 0, 0⟩, curCmd := .none }) ∧
      (s.pollCtr ≠ 1 → step s = .next { s with pollCtr := s.pollCtr - 1, inq := s.inq.tail }))

/-- A host SEND with no further event completes within its poll budget: sent at once, or timed out after exactly
POLL_CTR status reads with nothing pushed (R131, R133). -/
def Obligations.HostSendEndsWithinBudget : Prop :=
  ∀ (s : State), blockNext s = true → s.curCmd = .send → 1 ≤ s.pollCtr →
    ∃ k t, 1 ≤ k ∧ k ≤ s.pollCtr ∧ run k s = .next t ∧ t.curCmd = .none ∧ t.fsm = s.fsm ∧
      ((t.response = some ⟨.ok, 0, 0⟩ ∧ t.outq = s.outq ++ [txMsg s]) ∨
       (t.response = some ⟨.timeoutSend, 0, 0⟩ ∧ t.outq = s.outq ∧ k = s.pollCtr))

/-- An addressed receive returns the first message of its tag, every message before it discarded (R135, R137, R138). -/
def Obligations.AddressedReceiveReturnsFirstMatch : Prop :=
  ∀ (s : State) (before : List Message) (m : Message) (after : List Message),
    blockNext s = true → s.curCmd = .recv → s.inq = before ++ m :: after →
    (∀ x ∈ before, x.w1.toNat % 256 ≠ s.curCh.toNat) → m.w1.toNat % 256 = s.curCh.toNat →
    before.length < s.pollCtr →
    run (before.length + 1) s = .next { s with
      pollCtr := s.pollCtr - (before.length + 1), inq := after,
      response := some ⟨.ok, m.w0, m.w1⟩, curCmd := .none }

/-- An addressed receive that meets no message of its tag times out after exactly POLL_CTR iterations; the messages it
popped are lost, and the state stays as it was (R131, R134, R137, R262). -/
def Obligations.AddressedReceiveTimesOut : Prop :=
  ∀ (s : State), blockNext s = true → s.curCmd = .recv → 1 ≤ s.pollCtr →
    (∀ x ∈ s.inq.take s.pollCtr, x.w1.toNat % 256 ≠ s.curCh.toNat) →
    run s.pollCtr s = .next { s with
      pollCtr := 0, inq := s.inq.drop s.pollCtr, response := some ⟨.timeoutRecv, 0, 0⟩, curCmd := .none }

/-! ### Host commands -/

/-- The first RESV_INIT creates the reservation, or is refused when the region would reach 2^44 (R191, R196). -/
def Obligations.FirstResvInitCreatesReservation : Prop :=
  ∀ (base limit : Word) (s : State), s.resvValid = false →
    (base.toNat + limit.toNat < 2 ^ 44 → ∃ t,
      exec (.resvInit base limit) s = .next t ∧
      t = { s with
        resvBase := t.resvBase, resvLimit := t.resvLimit, resvCursor := 0, resvValid := true,
        response := some ⟨.ok, base, limit⟩, curCmd := .none } ∧
      t.resvBase.toNat = base.toNat ∧ t.resvLimit.toNat = limit.toNat) ∧
    (2 ^ 44 ≤ base.toNat + limit.toNat →
      exec (.resvInit base limit) s = .next { s with response := some ⟨.illegalOp, 0, 0⟩, curCmd := .none })

/-- R192: a further RESV_INIT changes nothing and returns the existing base and limit. -/
def Obligations.SecondResvInitChangesNothing : Prop :=
  ∀ (base limit : Word) (s : State), s.resvValid = true → s.curCmd = .none →
    exec (.resvInit base limit) s = .next { s with
      response := some ⟨.ok, s.resvBase.setWidth 64, s.resvLimit.setWidth 64⟩ }

/-- BOOT in IDLE with a reservation performs the IDLE action by the RUN bit (R155, R233). -/
def Obligations.BootPerformsIdleAction : Prop :=
  ∀ (s : State), s.fsm = .idle → s.resvValid = true →
    (s.cpuCtrl.testBit s.config.runBit = true → ∃ w : Word,
      w.toNat = s.config.typeIdleReq.toNat * 2 ^ 56 + s.config.idleReqPayload.toNat ∧
      exec .boot s = .next { s with
        curCmd := .boot, txW0 := w, txW1 := 0, fsm := .sendIdlereq, pollCtr := s.config.pollBudget }) ∧
    (s.cpuCtrl.testBit s.config.runBit = false → ∃ v,
      exec .boot s = .next { s with
        curCmd := .boot, cpuCtrl := v, fsm := .waitHello, pollCtr := s.config.pollBudget } ∧
      ∀ n, v.testBit n = (s.cpuCtrl.testBit n || decide (n = s.config.runBit)))

/-- R234: BOOT is refused, changing nothing, when STATE is not IDLE or no reservation exists. -/
def Obligations.BootRefusedOutsideIdleOrUnreserved : Prop :=
  ∀ (s : State), s.curCmd = .none → (s.fsm ≠ .idle ∨ s.resvValid = false) →
    exec .boot s = .next { s with response := some ⟨.illegalOp, 0, 0⟩ }

/-- SEND and RECV in DONE are accepted: the latch or the channel is loaded and the poll budget is full (R236, R237). -/
def Obligations.SendAndRecvAcceptedInDone : Prop :=
  ∀ (s : State), s.fsm = .done →
    (∀ w0 w1, exec (.send w0 w1) s = .next { s with
      txW0 := w0, txW1 := w1, pollCtr := s.config.pollBudget, curCmd := .send }) ∧
    (∀ ch, exec (.recv ch) s = .next { s with
      pollCtr := s.config.pollBudget, curCmd := .recv, curCh := ch })

/-- Outside DONE, SEND, RECV and RDEP are refused with no change (R236, R237, R239, R240). -/
def Obligations.SendRecvRdepRefusedOutsideDone : Prop :=
  ∀ (i : Instr) (s : State), s.fsm ≠ .done → s.curCmd = .none →
    ((∃ w0 w1, i = .send w0 w1) ∨ (∃ ch, i = .recv ch) ∨ (∃ x, i = .rdep x)) →
    exec i s = .next { s with response := some ⟨.illegalOp, 0, 0⟩ }

/-- RDREG (R238, R39): a register of R39's map answers its value, zero-extended; a reserved selector, and a reservation
register while RESV_VALID = 0, is refused; nothing else changes. The numbers a state and a status code read as are those
of R32 and R261. -/
def Obligations.RdregFollowsTheRegisterMap : Prop :=
  [FsmState.idle, .waitHello, .sendHello, .waitEpmap, .sendEpack, .sendEpstart, .waitPwrok, .sendPwrack, .done, .failed,
    .sendGrant, .sendIdlereq].map (fun f => (fsmCode f).toNat) = List.range 12 ∧
  [Status.ok, .timeoutSend, .timeoutRecv, .protocolViolation, .outOfMemory, .nak, .shortData, .illegalOp].map
    (fun c => (statusCode c).toNat) = List.range 8 ∧
  ∀ (s : State) (sel : Byte), s.curCmd = .none → s.epList.length ≤ 256 →
    (∀ v : Nat,
      ((sel = 0x00 ∧ v = (fsmCode s.fsm).toNat) ∨ (sel = 0x01 ∧ v = (statusCode s.faultCode).toNat) ∨
       (sel = 0x02 ∧ v = (fsmCode s.faultState).toNat) ∨ (sel = 0x03 ∧ v = s.faultW0.toNat) ∨
       (sel = 0x04 ∧ v = s.faultW1.toNat) ∨ (sel = 0x05 ∧ v = s.helloVer.toNat) ∨
       (sel = 0x06 ∧ v = s.epList.length) ∨ (sel = 0x07 ∧ v = s.epmapCount.toNat) ∨
       (sel = 0x08 ∧ v = (if s.resvValid then 1 else 0)) ∨
       (sel = 0x09 ∧ s.resvValid = true ∧ v = s.resvBase.toNat) ∨
       (sel = 0x0A ∧ s.resvValid = true ∧ v = s.resvLimit.toNat) ∨
       (sel = 0x0B ∧ s.resvValid = true ∧ v = s.resvCursor.toNat) ∨ (sel = 0x0D ∧ v = s.epIdx.toNat)) →
      ∃ w : Word, w.toNat = v ∧ exec (.rdreg sel) s = .next { s with response := some ⟨.ok, w, 0⟩ }) ∧
    ((sel.toNat = 0x0C ∨ 0x0E ≤ sel.toNat ∨ (0x09 ≤ sel.toNat ∧ sel.toNat ≤ 0x0B ∧ s.resvValid = false)) →
      exec (.rdreg sel) s = .next { s with response := some ⟨.illegalOp, 0, 0⟩ })

/-- R239: RDEP in DONE answers the entry at a valid index, zero-extended; outside DONE, and for an index past the end,
it is refused; nothing else changes. -/
def Obligations.RdepReadsTheEndpointList : Prop :=
  ∀ (s : State) (idx : Byte), s.curCmd = .none →
    (∀ h : idx.toNat < s.epList.length, s.fsm = .done → ∃ w : Word, w.toNat = s.epList[idx.toNat].toNat ∧
      exec (.rdep idx) s = .next { s with response := some ⟨.ok, w, 0⟩ }) ∧
    ((s.fsm ≠ .done ∨ s.epList.length ≤ idx.toNat) →
      exec (.rdep idx) s = .next { s with response := some ⟨.illegalOp, 0, 0⟩ })

/-- R241: a command that completes with ILLEGAL_OP in its accepting step changes nothing but the result returned, and
RES0 and RES1 are 0. The request leaves the port, as that of every accepted command (R230). -/
def Obligations.IllegalOpChangesNothing : Prop :=
  ∀ (s t : State) (r0 r1 : Word), blockNext s = true → s.curCmd = .none → s.request.isSome = true →
    step s = .next t → t.curCmd = .none → t.response = some ⟨.illegalOp, r0, r1⟩ →
    t = { s with request := none, response := some ⟨.illegalOp, 0, 0⟩ }

/-! ### Inbound messages -/

/-- HELLO in WAIT_HELLO (R157, R101): the version recorded, the hello-ack composed, whatever the ignored bits are. -/
def Obligations.HelloRecordsVersionAndComposesAck : Prop :=
  ∀ (ver : BitVec 32) (ign0 : BitVec 24) (ign1 : BitVec 56) (s : State), s.fsm = .waitHello →
    ∃ w : Word, w.toNat = s.config.typeHelloAck.toNat * 2 ^ 56 + ver.toNat ∧
      exec (.hello ver ign0 ign1) s = .next { s with
        helloVer := ver, txW0 := w, txW1 := 0, fsm := .sendHello, pollCtr := s.config.pollBudget }

/-- A message kind outside the state that handles it: an inbound kind in a WAIT_* state that does not accept it is a
protocol violation that records its words (R95, R158, R162, R169); elsewhere the block receives no inbound kind and sends
no other outbound kind, and the meaning stops by name (the model's choice, logs 15 and 16; `step` never asks for it). -/
def Obligations.MessageKindsOutsideTheirStates : Prop :=
  ∀ (i : Instr) (s : State),
    (∀ w0 w1, i.source = .inbound → isWait s.fsm = true → s.fsm ≠ acceptingState i → encode s.config i = [w0, w1] →
      exec i s = .next { s with
        faultCode := .protocolViolation, faultState := s.fsm, faultW0 := w0, faultW1 := w1, fsm := .failed,
        response := some ⟨.protocolViolation, 0, 0⟩, curCmd := .none }) ∧
    (i.source = .inbound → isWait s.fsm = false → exec i s = .refused .notReceiving) ∧
    (∀ k, i.source = .outbound k → s.fsm ≠ kindState k → exec i s = .refused .notSending)

/-- An unexpected message ends the bootstrap: R158 in WAIT_HELLO, R162 in WAIT_EPMAP, R169 in WAIT_PWROK. -/
def Obligations.UnexpectedMessageEndsBootstrap : Prop :=
  ∀ (s : State) (m : Message) (rest : List Message), blockNext s = true → s.curCmd = .boot → s.inq = m :: rest →
    ((s.fsm = .waitHello ∧ (m.w1.toNat % 256 ≠ 0 ∨ m.w0.toNat / 2 ^ 56 ≠ 0x01)) ∨
     (s.fsm = .waitEpmap ∧ (m.w1.toNat % 256 ≠ 0 ∨ m.w0.toNat / 2 ^ 56 ≠ 0x08)) ∨
     (s.fsm = .waitPwrok ∧ m.w1.toNat % 256 ≠ s.config.epMemMgmt.toNat ∧
       m.w1.toNat % 256 ≠ s.config.epMemStor.toNat ∧ (m.w1.toNat % 256 ≠ 0 ∨ m.w0.toNat / 2 ^ 56 ≠ 0x07))) →
    step s = .next { s with
      pollCtr := s.pollCtr - 1, inq := rest,
      faultCode := .protocolViolation, faultState := s.fsm, faultW0 := m.w0, faultW1 := m.w1,
      fsm := .failed, response := some ⟨.protocolViolation, 0, 0⟩, curCmd := .none }

/-- EPMAP in WAIT_EPMAP with fewer than 8 maps accepted (R160, R102): the endpoints appended, the epack composed. -/
def Obligations.EpmapAppendsAndComposesEpack : Prop :=
  ∀ (bitmap : BitVec 32) (block : BitVec 3) (last : Bool) (ign0 : BitVec 21) (ign1 : BitVec 56) (s : State),
    s.config.wf = true → s.fsm = .waitEpmap → s.epmapCount.toNat < 8 →
    ∃ (w : Word) (n : BitVec 4),
      w.toNat = s.config.typeEpack.toNat * 2 ^ 56 + (if last then 2 ^ s.config.epmapLastBit else 0) +
        block.toNat * 2 ^ 32 ∧
      n.toNat = s.epmapCount.toNat + 1 ∧
      exec (.epmap bitmap block last ign0 ign1) s = .next { s with
        epList := s.epList ++ mapEndpoints block bitmap, epmapCount := n, epmapLast := last,
        txW0 := w, txW1 := 0, fsm := .sendEpack, pollCtr := s.config.pollBudget }

/-- R161: the ninth endpoint map is a protocol violation, with nothing appended. -/
def Obligations.NinthEndpointMapEndsBootstrap : Prop :=
  ∀ (s : State) (m : Message) (rest : List Message), blockNext s = true → s.curCmd = .boot → s.fsm = .waitEpmap →
    s.inq = m :: rest → m.w1.toNat % 256 = 0 → m.w0.toNat / 2 ^ 56 = 0x08 → s.epmapCount.toNat = 8 →
    step s = .next { s with
      pollCtr := s.pollCtr - 1, inq := rest,
      faultCode := .protocolViolation, faultState := .waitEpmap, faultW0 := m.w0, faultW1 := m.w1,
      fsm := .failed, response := some ⟨.protocolViolation, 0, 0⟩, curCmd := .none }

/-- What one map appends (R160, R164): exactly the IDs `b + 32 * B` of its set bits, in strictly ascending order. -/
def Obligations.MapEndpointsAreTheSetBitsAscending : Prop :=
  ∀ (block : BitVec 3) (bitmap : BitVec 32),
    (∀ e : Byte, e ∈ mapEndpoints block bitmap ↔
      ∃ b, b < 32 ∧ bitmap.getLsbD b = true ∧ e.toNat = b + 32 * block.toNat) ∧
    (mapEndpoints block bitmap).Pairwise (fun x y => x.toNat < y.toNat)

/-- Blocks received once each in ascending block order give a strictly ascending list with no duplicate: exactly the
IDs of the set bits (R175, E-1). -/
def Obligations.AscendingMapsGiveSortedEndpointList : Prop :=
  ∀ (maps : List (BitVec 3 × BitVec 32)), maps.Pairwise (fun p q => p.1.toNat < q.1.toNat) →
    (mapsEndpoints maps).Pairwise (fun x y => x.toNat < y.toNat) ∧
    ∀ e : Byte, e ∈ mapsEndpoints maps ↔
      ∃ p ∈ maps, ∃ b, b < 32 ∧ p.2.getLsbD b = true ∧ e.toNat = b + 32 * p.1.toNat

/-- A buffer request that fits is granted (R167, R194, R104): bits 63:44 of word 0 and all of word 1 kept, the address
in bits 43:0, exact under the reservation's bound (R37, R193), the cursor advanced by the exact size. -/
def Obligations.BufferRequestIsGranted : Prop :=
  ∀ (type : Byte) (ign52 : BitVec 4) (count : Byte) (ign0 : BitVec 44) (ign1 : BitVec 56) (s : State),
    s.fsm = .waitPwrok → s.resvCursor.toNat + count.toNat * 4096 ≤ s.resvLimit.toNat →
    s.resvBase.toNat + s.resvLimit.toNat < 2 ^ 44 →
    ∃ (cursor : BitVec 44) (w wm ws : Word),
      cursor.toNat = s.resvCursor.toNat + count.toNat * 4096 ∧
      w.toNat = type.toNat * 2 ^ 56 + ign52.toNat * 2 ^ 52 + count.toNat * 2 ^ 44 +
        (s.resvBase.toNat + s.resvCursor.toNat) ∧
      wm.toNat = ign1.toNat * 2 ^ 8 + s.config.epMemMgmt.toNat ∧
      ws.toNat = ign1.toNat * 2 ^ 8 + s.config.epMemStor.toNat ∧
      exec (.bufreqMgmt type ign52 count ign0 ign1) s = .next { s with
        resvCursor := cursor, txW0 := w, txW1 := wm, fsm := .sendGrant, pollCtr := s.config.pollBudget } ∧
      exec (.bufreqStor type ign52 count ign0 ign1) s = .next { s with
        resvCursor := cursor, txW0 := w, txW1 := ws, fsm := .sendGrant, pollCtr := s.config.pollBudget }

/-- A buffer request that does not fit ends the bootstrap out of memory, the cursor unchanged and the request recorded
(R167, R195, R264). -/
def Obligations.BufferRequestOutOfMemory : Prop :=
  ∀ (type : Byte) (ign52 : BitVec 4) (count : Byte) (ign0 : BitVec 44) (ign1 : BitVec 56) (s : State),
    s.fsm = .waitPwrok → s.resvLimit.toNat < s.resvCursor.toNat + count.toNat * 4096 →
    ∃ w wm ws : Word,
      w.toNat = type.toNat * 2 ^ 56 + ign52.toNat * 2 ^ 52 + count.toNat * 2 ^ 44 + ign0.toNat ∧
      wm.toNat = ign1.toNat * 2 ^ 8 + s.config.epMemMgmt.toNat ∧
      ws.toNat = ign1.toNat * 2 ^ 8 + s.config.epMemStor.toNat ∧
      exec (.bufreqMgmt type ign52 count ign0 ign1) s = .next { s with
        faultCode := .outOfMemory, faultState := .waitPwrok, faultW0 := w, faultW1 := wm, fsm := .failed,
        response := some ⟨.outOfMemory, 0, 0⟩, curCmd := .none } ∧
      exec (.bufreqStor type ign52 count ign0 ign1) s = .next { s with
        faultCode := .outOfMemory, faultState := .waitPwrok, faultW0 := w, faultW1 := ws, fsm := .failed,
        response := some ⟨.outOfMemory, 0, 0⟩, curCmd := .none }

/-- PWROK in WAIT_PWROK (R168, R105): the power ack composed, bits 55:32 not echoed. -/
def Obligations.PwrokComposesPowerAck : Prop :=
  ∀ (low32 : BitVec 32) (ign0 : BitVec 24) (ign1 : BitVec 56) (s : State), s.fsm = .waitPwrok →
    ∃ w : Word, w.toNat = 0xB0 * 2 ^ 56 + low32.toNat ∧
      exec (.pwrok low32 ign0 ign1) s = .next { s with
        txW0 := w, txW1 := 0, fsm := .sendPwrack, pollCtr := s.config.pollBudget }

/-! ### Outbound messages -/

/-- Sending the idle request, the hello-ack and a grant: the message is pushed and the next receive starts with a full
budget (R156, R159, R170, with R100, R101, R104). -/
def Obligations.IdleReqHelloAckAndGrantAreSent : Prop :=
  ∀ (s : State), s.outq.length ≠ s.config.outDepth →
    (s.fsm = .sendIdlereq → ∃ w : Word,
      w.toNat = s.config.typeIdleReq.toNat * 2 ^ 56 + s.config.idleReqPayload.toNat ∧
      exec .idleReq s = .next { s with
        outW0 := w, outq := s.outq ++ [⟨w, 0⟩], fsm := .waitHello, pollCtr := s.config.pollBudget }) ∧
    (∀ ver : BitVec 32, s.fsm = .sendHello → ∃ w : Word,
      w.toNat = s.config.typeHelloAck.toNat * 2 ^ 56 + ver.toNat ∧
      exec (.helloAck ver) s = .next { s with
        outW0 := w, outq := s.outq ++ [⟨w, 0⟩], fsm := .waitEpmap, pollCtr := s.config.pollBudget }) ∧
    (∀ (upper : BitVec 20) (addr : BitVec 44) (w1 : Word), s.fsm = .sendGrant → ∃ w : Word,
      w.toNat = upper.toNat * 2 ^ 44 + addr.toNat ∧
      exec (.bufgrant upper addr w1) s = .next { s with
        outW0 := w, outq := s.outq ++ [⟨w, w1⟩], fsm := .waitPwrok, pollCtr := s.config.pollBudget })

/-- Sending an epack (R163): back to WAIT_EPMAP when the map was not the last, else `start_from(0)` (R165): the first
nonzero entry is started, or with none EP_IDX is EP_COUNT and the power loop is entered. -/
def Obligations.EpackIsSentThenLoopsOrStarts : Prop :=
  ∀ (last : Bool) (block : BitVec 3) (s : State), s.config.wf = true → s.fsm = .sendEpack →
    s.outq.length ≠ s.config.outDepth → s.epList.length ≤ 256 →
    ∃ (w : Word) (u : State),
      w.toNat = s.config.typeEpack.toNat * 2 ^ 56 + (if last then 2 ^ s.config.epmapLastBit else 0) +
        block.toNat * 2 ^ 32 ∧
      u = { s with pollCtr := s.config.pollBudget, outW0 := w, outq := s.outq ++ [⟨w, 0⟩] } ∧
      (s.epmapLast = false → exec (.epack last block) s = .next { u with fsm := .waitEpmap }) ∧
      (s.epmapLast = true → (∀ e ∈ s.epList, e = 0) → ∃ q : BitVec 9, q.toNat = s.epList.length ∧
        exec (.epack last block) s = .next { u with fsm := .waitPwrok, epIdx := q }) ∧
      (∀ (j : Nat) (e : Byte), s.epmapLast = true → s.epList[j]? = some e → e ≠ 0 →
        (∀ k, k < j → s.epList[k]? = some 0) →
        ∃ (q : BitVec 9) (x : Word), q.toNat = j ∧
          x.toNat = s.config.typeEpstart.toNat * 2 ^ 56 + e.toNat * 2 ^ 32 ∧
          exec (.epack last block) s = .next { u with fsm := .sendEpstart, epIdx := q, txW0 := x, txW1 := 0 })

/-- Sending a start message (R166, R103): the next nonzero entry after EP_IDX is started, or with none EP_IDX is
EP_COUNT and the power loop is entered (R165). -/
def Obligations.EpstartIsSentThenNextStartOrPowerLoop : Prop :=
  ∀ (epid : Byte) (s : State), s.fsm = .sendEpstart → s.outq.length ≠ s.config.outDepth → s.epList.length ≤ 256 →
    ∃ (w : Word) (u : State),
      w.toNat = s.config.typeEpstart.toNat * 2 ^ 56 + epid.toNat * 2 ^ 32 ∧
      u = { s with pollCtr := s.config.pollBudget, outW0 := w, outq := s.outq ++ [⟨w, 0⟩] } ∧
      ((∀ k e, s.epIdx.toNat < k → s.epList[k]? = some e → e = 0) → ∃ q : BitVec 9, q.toNat = s.epList.length ∧
        exec (.epstart epid) s = .next { u with fsm := .waitPwrok, epIdx := q }) ∧
      (∀ (j : Nat) (e : Byte), s.epIdx.toNat < j → s.epList[j]? = some e → e ≠ 0 →
        (∀ k, s.epIdx.toNat < k → k < j → s.epList[k]? = some 0) →
        ∃ (q : BitVec 9) (x : Word), q.toNat = j ∧
          x.toNat = s.config.typeEpstart.toNat * 2 ^ 56 + e.toNat * 2 ^ 32 ∧
          exec (.epstart epid) s = .next { u with epIdx := q, txW0 := x, txW1 := 0 })

/-- Sending the power ack ends the bootstrap in DONE and completes BOOT with OK (R171, R235). -/
def Obligations.PwrackIsSentAndBootCompletes : Prop :=
  ∀ (low32 : BitVec 32) (s : State), s.fsm = .sendPwrack → s.outq.length ≠ s.config.outDepth →
    ∃ w : Word, w.toNat = 0xB0 * 2 ^ 56 + low32.toNat ∧
      exec (.pwrack low32) s = .next { s with
        pollCtr := s.pollCtr - 1, outW0 := w, outq := s.outq ++ [⟨w, 0⟩],
        fsm := .done, response := some ⟨.ok, 0, 0⟩, curCmd := .none }

/-- A SEND_* state whose FIFO is full waits, or with its last poll iteration ends the bootstrap (R152, R264); nothing is
pushed. -/
def Obligations.FullFifoWaitsOrEndsBootstrap : Prop :=
  ∀ (i : Instr) (k : OutKind) (s : State), i.source = .outbound k → s.fsm = kindState k →
    s.outq.length = s.config.outDepth → 1 ≤ s.pollCtr →
    (s.pollCtr ≠ 1 → exec i s = .next { s with pollCtr := s.pollCtr - 1 }) ∧
    (s.pollCtr = 1 → exec i s = .next { s with
      pollCtr := 0, faultCode := .timeoutSend, faultState := s.fsm, faultW0 := 0, faultW1 := 0, fsm := .failed,
      response := some ⟨.timeoutSend, 0, 0⟩, curCmd := .none })

/-- A WAIT_* state whose FIFO is empty waits, or with its last poll iteration ends the bootstrap (R153, R264). -/
def Obligations.EmptyFifoWaitsOrEndsBootstrap : Prop :=
  ∀ (s : State), blockNext s = true → s.curCmd = .boot → isWait s.fsm = true → s.inq = [] → 1 ≤ s.pollCtr →
    (s.pollCtr ≠ 1 → step s = .next { s with pollCtr := s.pollCtr - 1 }) ∧
    (s.pollCtr = 1 → step s = .next { s with
      pollCtr := 0, faultCode := .timeoutRecv, faultState := s.fsm, faultW0 := 0, faultW1 := 0, fsm := .failed,
      response := some ⟨.timeoutRecv, 0, 0⟩, curCmd := .none })

/-! ### Faults and reset -/

/-- R264: the bootstrap fault entry, and what it leaves unchanged. -/
def Obligations.FaultEntryRecordsAndCompletes : Prop :=
  ∀ (code : Status) (s : State),
    (∀ m : Message, bootFault code (some m) s = { s with
      faultCode := code, faultState := s.fsm, faultW0 := m.w0, faultW1 := m.w1, fsm := .failed,
      response := some ⟨code, 0, 0⟩, curCmd := .none }) ∧
    bootFault code none s = { s with
      faultCode := code, faultState := s.fsm, faultW0 := 0, faultW1 := 0, fsm := .failed,
      response := some ⟨code, 0, 0⟩, curCmd := .none }

/-- Every step into FAILED ends BOOT with its own code and records it with the state it was taken in (R263, R265). -/
def Obligations.EveryEntryToFailedIsRecorded : Prop :=
  ∀ (s t : State), step s = .next t → s.fsm ≠ .failed → t.fsm = .failed →
    t.faultCode ≠ .ok ∧ t.faultState = s.fsm ∧ t.response = some ⟨t.faultCode, 0, 0⟩ ∧ t.curCmd = .none ∧
    t.outq = s.outq ∧ t.resvCursor = s.resvCursor ∧ t.epList = s.epList ∧ t.cpuCtrl = s.cpuCtrl ∧
    ((t.faultCode = .timeoutSend ∨ t.faultCode = .timeoutRecv) → t.faultW0 = 0 ∧ t.faultW1 = 0)

/-- R291: the reset event leaves RUN, the FIFO queues and memory as they are. -/
def Obligations.ResetLeavesTheOutsideAlone : Prop :=
  ∀ (s : State) (rest : List Event), s.config.wf = true → s.agenda = .reset :: rest →
    ∃ t, step s = .next t ∧ t.cpuCtrl = s.cpuCtrl ∧ t.outq = s.outq ∧ t.inq = s.inq ∧ t.mem = s.mem ∧
      t.config = s.config

/-- The reset event sets the registers R42 gives a value (R42, R290). The last clause, SEQ, is the model's reading and
no rule's: SEQ is the consumer's, R214 has it 0 at reset without saying whose, and that the block's reset event is HOST's
too is log 28 (DEDUCED). -/
def Obligations.ResetSetsTheBlockRegisters : Prop :=
  ∀ (s : State) (rest : List Event), s.config.wf = true → s.agenda = .reset :: rest →
    ∃ t, step s = .next t ∧ t.fsm = .idle ∧ t.curCmd = .none ∧ t.txW0 = 0 ∧ t.txW1 = 0 ∧ t.epmapLast = false ∧
      t.epIdx = 0 ∧ t.pollCtr = 0 ∧ t.helloVer = 0 ∧ epCount t = 0 ∧ t.epmapCount = 0 ∧ t.faultCode = .ok ∧
      t.faultState = .idle ∧ t.faultW0 = 0 ∧ t.faultW1 = 0 ∧ t.resvValid = false ∧ t.seq = 0

/-! ### The whole machine -/

/-- Every launch under a legal configuration meets the invariant, and so does State.reset (the model's choice of launch
values, logs 1 and 2). -/
def Obligations.LaunchMeetsInvariant : Prop :=
  State.reset.Inv ∧
  ∀ (c : Config) (ctrl : Nat) (w : Word) (outq inq : List Message) (mem : Memory) (free : Nat)
    (agenda : List Event),
    c.wf = true → mem.wf = true → outq.length ≤ c.outDepth → inq.length ≤ c.inDepth →
    (State.launch c ctrl w outq inq mem free agenda).Inv

/-- Every step of every agent keeps the invariant (R29, R37, R62, R175, R230, R233 to R235, R264). -/
def Obligations.StepKeepsInvariant : Prop :=
  ∀ (s t : State), s.Inv → step s = .next t → t.Inv

/-- STATE moves only along R174's table, but for the reset event. -/
def Obligations.FsmFollowsTransitionTable : Prop :=
  ∀ (s t : State), step s = .next t → resetNext s = false → t.fsm = s.fsm ∨ fsmEdge s.fsm t.fsm = true

/-- DONE and FAILED are left by reset alone (R172, R173, R266, R290). -/
def Obligations.DoneAndFailedStayUntilReset : Prop :=
  ∀ (s t : State), step s = .next t → resetNext s = false → (s.fsm = .done ∨ s.fsm = .failed) → t.fsm = s.fsm

/-- The reservation is created once and never freed, moved or shrunk, and its cursor never decreases (R190, R192,
R197). -/
def Obligations.ReservationNeverMovesOrShrinks : Prop :=
  ∀ (s t : State), step s = .next t → resetNext s = false → s.resvValid = true →
    t.resvValid = true ∧ t.resvBase = s.resvBase ∧ t.resvLimit = s.resvLimit ∧
    s.resvCursor.toNat ≤ t.resvCursor.toNat

/-- The endpoint list is only appended to, and only by an accepted endpoint map (R34). -/
def Obligations.EndpointListIsOnlyAppendedTo : Prop :=
  ∀ (s t : State), step s = .next t → resetNext s = false →
    t.epList = s.epList ∨
    (s.fsm = .waitEpmap ∧ t.fsm = .sendEpack ∧ ∃ m ∈ s.inq.head?, t.epList = s.epList ++ mapEndpoints (msgBlock m) (msgLow32 m))

/-- No BLOCK step clears RUN or touches another bit of CPU_CTRL, and none changes memory, the parameters, SEQ or the
consumer's call (R24, R38, R60, R155). -/
def Obligations.BlockNeverClearsRunNorWritesMemory : Prop :=
  ∀ (s t : State), blockStep s = .next t →
    t.mem = s.mem ∧ t.config = s.config ∧ t.seq = s.seq ∧ t.call = s.call ∧
    ∀ n, t.cpuCtrl.testBit n = s.cpuCtrl.testBit n ∨ (n = s.config.runBit ∧ t.cpuCtrl.testBit n = true)

/-- BLOCK never stops: from every state a BLOCK step answers a next state, and under a configuration R293 admits a
refused step is one of the consumer's three refusals (R71, R211, R212), never one for an instruction (R263; the refusals
ruled out are names of the model, logs 15, 16 and 20). -/
def Obligations.BlockNeverStops : Prop :=
  ∀ (s : State), (∃ t, blockStep s = .next t) ∧
    (s.config.wf = true → ∀ r, step s = .refused r →
      r = .channelNotDiscovered ∨ r = .inputTooLong ∨ r = .misalignedWindow)

/-- With no further event BOOT ends, within a number of steps the queues and the budget bound (R233, R301: the premise
about COPROC is that it does nothing more). -/
def Obligations.BootEndsWhenCoprocIsSilent : Prop :=
  ∀ (s : State), s.Inv → s.agenda = [] → s.curCmd = .boot →
    ∃ k t, k ≤ (s.inq.length + (s.config.outDepth - s.outq.length)) * (s.config.pollBudget + 1) + s.pollCtr ∧
      run k s = .next t ∧ t.curCmd = .none ∧ (t.fsm = .done ∨ t.fsm = .failed)

/-- Successive allocations return RESV_BASE plus the sum of the sizes before, inside the reservation, the cursor ending at
the sum of all; so their ranges never overlap (R193, R199). -/
def Obligations.GrantsAreConsecutiveAndInside : Prop :=
  ∀ (sizes : List Nat) (s t : State) (as : List Nat),
    s.resvCursor.toNat ≤ s.resvLimit.toNat → s.resvBase.toNat + s.resvLimit.toNat < 2 ^ 44 →
    grantAll sizes s = some (as, t) →
    as.length = sizes.length ∧ t.resvCursor.toNat = s.resvCursor.toNat + sizes.sum ∧
    ∀ (k a size : Nat), as[k]? = some a → sizes[k]? = some size →
      a = s.resvBase.toNat + s.resvCursor.toNat + (sizes.take k).sum ∧
      a + size ≤ s.resvBase.toNat + s.resvLimit.toNat ∧
      ∀ (l b : Nat), k < l → as[l]? = some b → a + size ≤ b

/-- No rule depends on POLL_DELAY_US: another delay changes no step (R140, R303). -/
def Obligations.PollDelayChangesNoStep : Prop :=
  ∀ (d : Nat) (s : State), step (withDelay d s) = mapOutcome (withDelay d) (step s)

/-! ### The consumer and memory -/

/-- A window access: MemRead after MemWrite at one address gives the value back, and no byte outside the access changes
(R70, R212, R216). -/
def Obligations.WindowReadAfterWrite : Prop :=
  ∀ (a n v : Nat) (m m' : Memory), m.wf = true → memWrite a n v m = some m' →
    (v < 256 ^ n → memRead a n m' = some v) ∧ m'.wf = true ∧
    (∀ k, k < n → readByte m' (a + k) = BitVec.ofNat 8 (v / 256 ^ k)) ∧
    ∀ x, (x < a ∨ a + n ≤ x) → readByte m' x = readByte m x

/-- A call begins at a free port (R211, R212, R214). In DONE, on a discovered nonzero channel with an input that fits, it
takes SEQ, which advances modulo 16, and its window writes come next. On channel 0 or a channel not discovered it is
refused, and else so is an input that does not fit (R211, R212, K-18; the names and their order are the model's, log 24).
Before DONE it takes its tag and has no window to write, so its SEND comes next (R211, R242; the model's reading, log
23). That SEQ advances in the step that begins the call, before any window write, is the model's choice (log 39). -/
def Obligations.CallTakesTheSequenceTag : Prop :=
  ∀ (s : State) (r : CallRequest) (rest : List Event), s.config.wf = true → s.agenda = .beginCall r :: rest →
    s.curCmd = .none → s.request = none → s.call = none →
    ∃ q : BitVec 4, q.toNat = (s.seq.toNat + 1) % 16 ∧
      (s.fsm = .done → r.channel ≠ 0 → r.channel ∈ s.epList →
        (s.config.callBufOffset + r.input.length ≤ s.resvLimit.toNat →
          step s = .next { s with
            agenda := rest, seq := q,
            call := some ⟨r, s.seq, .writing (s.resvBase.toNat + s.config.callBufOffset) r.input⟩ }) ∧
        (s.resvLimit.toNat < s.config.callBufOffset + r.input.length → step s = .refused .inputTooLong)) ∧
      (s.fsm = .done → (r.channel = 0 ∨ r.channel ∉ s.epList) → step s = .refused .channelNotDiscovered) ∧
      (s.fsm ≠ .done → ∃ addr, step s = .next { s with
        agenda := rest, seq := q, call := some ⟨r, s.seq, .writing addr []⟩ })

/-- One window write of a call (R212): WINDOW_ACCESS_BYTES bytes of the input, a last partial word padded with zeros; no
other byte of memory changes. That is so while the write keeps R74's order; a call begun while another SEND of HOST
awaits its reply, which R296 forbids, leaves any bytes there, by a free value (the model's choice, logs 36 and 37). A
misaligned write is refused (R71, K-18; log 24, which counts a width of 0 as misaligned). That a padded last word is not
tested against the window's extent is log 29. -/
def Obligations.CallWritesOneWindowWord : Prop :=
  ∀ (s : State) (c : Call) (addr : Nat) (rest : List Byte), s.config.wf = true → s.agenda = [.continueCall] →
    s.curCmd = .none → s.request = none → s.call = some c → c.phase = .writing addr rest → rest ≠ [] →
    s.mem.wf = true →
    (0 < s.config.windowAccessBytes → addr % s.config.windowAccessBytes = 0 → ∃ (m' : Memory) (n : Nat),
      step s = .next { s with
        agenda := [], mem := m', freeCtr := n,
        call := some { c with
          phase := .writing (addr + s.config.windowAccessBytes) (rest.drop s.config.windowAccessBytes) } } ∧
      (writeOrdered s = true → n = s.freeCtr ∧
        ∀ k, k < s.config.windowAccessBytes → readByte m' (addr + k) = (rest[k]?).getD 0) ∧
      (writeOrdered s = false → n = s.freeCtr + 1) ∧
      ∀ x, (x < addr ∨ addr + s.config.windowAccessBytes ≤ x) → readByte m' x = readByte s.mem x) ∧
    ((s.config.windowAccessBytes = 0 ∨ addr % s.config.windowAccessBytes ≠ 0) →
      step s = .refused .misalignedWindow)

/-- With its input written a call presents SEND of its request (R213, R215): CALL_ENCODE's words, the channel in word 1
bits 7:0. The SEND, with that tag, is then the command of HOST's exchange (R74; the record is the model's, log 36). -/
def Obligations.CallPresentsItsRequest : Prop :=
  ∀ (s : State) (c : Call) (addr : Nat), s.config.wf = true → s.agenda = [.continueCall] →
    s.curCmd = .none → s.request = none → s.call = some c → c.phase = .writing addr [] →
    ∃ (cmd w1 : Word) (m : Message), cmd.toNat = 0x03 ∧
      m = Config.callEncode c.req.command c.req.key c.req.input.length c.seq ∧
      w1.toNat % 2 ^ 8 = c.req.channel.toNat ∧ w1.toNat / 2 ^ 8 = m.w1.toNat / 2 ^ 8 ∧
      step s = .next { s with
        agenda := [], request := some ⟨cmd, m.w0, w1⟩,
        exchange := { exchangeNow s with command := some (.send c.req.channel) },
        call := some { c with phase := .awaitSend } }

/-- One window read of a call (R216): the next bytes of the reply, at most those still wanted; with none left the call
ends with OK and the bytes read. The bytes are those of memory while the read keeps R74's order; while another SEND of
HOST awaits its reply, which R296 forbids, they are a free value's (the model's choice, logs 36 and 37). A misaligned
read is refused (R71, K-18; log 24, which counts a width of 0 as misaligned). That the copy-out is not tested against the
window's extent is the model's choice (log 35). -/
def Obligations.CallReadsOneWindowWord : Prop :=
  ∀ (s : State) (c : Call) (addr remaining : Nat) (got : List Byte), s.config.wf = true →
    s.agenda = [.continueCall] → s.curCmd = .none → s.request = none → s.call = some c →
    c.phase = .reading addr remaining got →
    (remaining = 0 → step s = .next { s with agenda := [], call := none, callResult := some ⟨.ok, got⟩ }) ∧
    (0 < remaining → 0 < s.config.windowAccessBytes → addr % s.config.windowAccessBytes = 0 →
      ∃ (more : List Byte) (n : Nat), more.length = min s.config.windowAccessBytes remaining ∧
        (readOrdered s = true → n = s.freeCtr ∧ ∀ k b, more[k]? = some b → b = readByte s.mem (addr + k)) ∧
        (readOrdered s = false → n = s.freeCtr + 1) ∧
        step s = .next { s with
          agenda := [], freeCtr := n,
          call := some ⟨c.req, c.seq, .reading (addr + s.config.windowAccessBytes)
            (remaining - s.config.windowAccessBytes) (got ++ more)⟩ }) ∧
    (0 < remaining → (s.config.windowAccessBytes = 0 ∨ addr % s.config.windowAccessBytes ≠ 0) →
      step s = .refused .misalignedWindow)

/-- The outcomes of a call's SEND and of its reply (R214 to R217). A SEND that completed with OK is followed by RECV of
the call's channel; a SEND or RECV that did not complete with OK ends the call with its status; a reply with a wrong tag
faults, else the call ends with Nak or ShortData, or the copy-out begins. The order of the tag check is the model's
(log 25), and so is HOST's record of its exchange (log 36). -/
def Obligations.CallReplyOutcomes : Prop :=
  ∀ (s : State) (c : Call) (r : Response), s.config.wf = true → s.agenda = [.continueCall] → s.curCmd = .none →
    s.request = none → s.call = some c → s.response = some r →
    (c.phase = .awaitSend → r.status = .ok → ∃ cmd : Word, cmd.toNat = 0x04 + c.req.channel.toNat * 2 ^ 8 ∧
      step s = .next { s with
        agenda := [], request := some ⟨cmd, 0, 0⟩,
        exchange := { exchangeNow s with command := some (.recv c.req.channel) },
        call := some { c with phase := .awaitRecv } }) ∧
    ((c.phase = .awaitSend ∨ c.phase = .awaitRecv) → r.status ≠ .ok →
      step s = .next { s with agenda := [], call := none, callResult := some ⟨r.status, []⟩ }) ∧
    (c.phase = .awaitRecv → r.status = .ok →
      ((Config.callDecode ⟨r.res0, r.res1⟩).seq ≠ c.seq → step s = .fault .replySeqMismatch) ∧
      ((Config.callDecode ⟨r.res0, r.res1⟩).seq = c.seq →
        ((Config.callDecode ⟨r.res0, r.res1⟩).ok = false →
          step s = .next { s with agenda := [], call := none, callResult := some ⟨.nak, []⟩ }) ∧
        ((Config.callDecode ⟨r.res0, r.res1⟩).ok = true →
          (Config.callDecode ⟨r.res0, r.res1⟩).length < c.req.capacity →
          step s = .next { s with agenda := [], call := none, callResult := some ⟨.shortData, []⟩ }) ∧
        ((Config.callDecode ⟨r.res0, r.res1⟩).ok = true →
          c.req.capacity ≤ (Config.callDecode ⟨r.res0, r.res1⟩).length →
          step s = .next { s with
            agenda := [],
            call := some { c with
              phase := .reading (s.resvBase.toNat + s.config.callBufOffset) c.req.capacity [] } })))
end

