-- ==== Sys2Proof/Laws/Memory.lean ====
section
/-! SUPPORT. Physical memory: a byte read after a byte written, and the canonical form kept by every memory
operation. -/

namespace Sys2Proof.Machine

theorem readByte_consByte (a : Nat) (b : Byte) (rest : Memory) (x : Nat) (h : readByte rest a = unlistedByte) :
    readByte (consByte a b rest) x = if x = a then b else readByte rest x := by
  unfold consByte
  by_cases hb : b = unlistedByte
  · by_cases hx : x = a
    · simp [hb, hx, h]
    · simp [hb, hx]
  · simp only [if_neg hb, readByte]
    by_cases hx : x = a
    · simp [hx]
    · simp [hx, Ne.symm hx]

theorem Memory.wfFrom_mono {lo lo' : Nat} {m : Memory} (h : Memory.wfFrom lo m = true) (hl : lo' ≤ lo) :
    Memory.wfFrom lo' m = true := by
  cases m with
  | nil => rfl
  | cons c rest =>
    obtain ⟨k, v⟩ := c
    simp only [Memory.wfFrom, Bool.and_eq_true, decide_eq_true_eq] at h ⊢
    exact ⟨⟨by omega, h.1.2⟩, h.2⟩

/-- An address below everything listed reads as an unlisted one. -/
theorem readByte_below {lo : Nat} {m : Memory} (h : Memory.wfFrom lo m = true) {a : Nat} (ha : a < lo) :
    readByte m a = unlistedByte := by
  induction m generalizing lo with
  | nil => rfl
  | cons c rest ih =>
    obtain ⟨k, v⟩ := c
    simp only [Memory.wfFrom, Bool.and_eq_true, decide_eq_true_eq] at h
    have hk : k ≠ a := by omega
    simp only [readByte, if_neg hk]
    exact ih h.2 (by omega)

theorem consByte_wfFrom {lo a : Nat} {rest : Memory} (b : Byte) (h : Memory.wfFrom (a + 1) rest = true)
    (hl : lo ≤ a) : Memory.wfFrom lo (consByte a b rest) = true := by
  unfold consByte
  by_cases hb : b = unlistedByte
  · simpa [hb] using Memory.wfFrom_mono h (by omega)
  · rw [if_neg hb]
    simpa [Memory.wfFrom, h, hl] using hb

theorem writeByte_wfFrom {lo a : Nat} (b : Byte) {m : Memory} (h : Memory.wfFrom lo m = true) (hl : lo ≤ a) :
    Memory.wfFrom lo (writeByte a b m) = true := by
  induction m generalizing lo with
  | nil => exact consByte_wfFrom b rfl hl
  | cons c rest ih =>
    obtain ⟨k, v⟩ := c
    have h' := h
    simp only [Memory.wfFrom, Bool.and_eq_true, decide_eq_true_eq] at h'
    simp only [writeByte]
    split
    · refine consByte_wfFrom b ?_ hl
      simp only [Memory.wfFrom, Bool.and_eq_true, decide_eq_true_eq]
      exact ⟨⟨by omega, h'.1.2⟩, h'.2⟩
    · split
      · next hlt heq => subst heq; exact consByte_wfFrom b h'.2 hl
      · simp only [Memory.wfFrom, Bool.and_eq_true, decide_eq_true_eq]
        exact ⟨h'.1, ih h'.2 (by omega)⟩

/-- Writing a byte keeps the canonical form. -/
theorem writeByte_wf (a : Nat) (b : Byte) {m : Memory} (h : m.wf = true) : (writeByte a b m : Memory).wf = true :=
  writeByte_wfFrom b h (Nat.zero_le a)

/-- Writing bytes keeps the canonical form. -/
theorem writeBytes_wf (a : Nat) (bs : List Byte) {m : Memory} (h : m.wf = true) :
    (writeBytes a bs m : Memory).wf = true := by
  induction bs generalizing a m with
  | nil => exact h
  | cons b rest ih => exact ih (a + 1) (writeByte_wf a b h)

/-- A window write keeps the canonical form. -/
theorem memWrite_wf {a n v : Nat} {m m' : Memory} (h : m.wf = true) (hw : memWrite a n v m = some m') :
    m'.wf = true := by
  unfold memWrite at hw
  split at hw
  · cases hw; exact writeBytes_wf a _ h
  · cases hw

theorem readByte_writeByte_from {lo : Nat} (a : Nat) (b : Byte) {m : Memory} (h : Memory.wfFrom lo m = true) (x : Nat) :
    readByte (writeByte a b m) x = if x = a then b else readByte m x := by
  induction m generalizing lo with
  | nil => exact readByte_consByte a b [] x rfl
  | cons c rest ih =>
    obtain ⟨k, v⟩ := c
    have h' := h
    simp only [Memory.wfFrom, Bool.and_eq_true, decide_eq_true_eq] at h'
    simp only [writeByte]
    split
    · next hlt =>
      refine readByte_consByte a b _ x ?_
      have hk : k ≠ a := by omega
      simp only [readByte, if_neg hk]
      exact readByte_below h'.2 (by omega)
    · split
      · next hlt heq =>
        subst heq
        rw [readByte_consByte a b rest x (readByte_below h'.2 (by omega))]
        simp only [readByte]
        by_cases hx : x = a
        · simp [hx]
        · simp [hx, Ne.symm hx]
      · next hlt hne =>
        simp only [readByte, ih h'.2]
        by_cases hk : k = x
        · subst hk; simp [Ne.symm hne]
        · simp [hk]

/-- A byte read after a byte written, in canonical memory. -/
theorem readByte_writeByte (a : Nat) (b : Byte) {m : Memory} (h : m.wf = true) (x : Nat) :
    readByte (writeByte a b m) x = if x = a then b else readByte m x :=
  readByte_writeByte_from a b h x

end Sys2Proof.Machine
end

