-- ==== Sys2Proof/Laws/State.lean ====
section
/-! SUPPORT. For each named update of the state, what each field holds after it: one lemma a field, true by
unfolding. -/

namespace Sys2Proof.Machine

/-! ### runSet -/

@[simp] theorem runSet_config (s : State) : (runSet s).config = s.config := rfl
@[simp] theorem runSet_fsm (s : State) : (runSet s).fsm = s.fsm := rfl
@[simp] theorem runSet_curCmd (s : State) : (runSet s).curCmd = s.curCmd := rfl
@[simp] theorem runSet_curCh (s : State) : (runSet s).curCh = s.curCh := rfl
@[simp] theorem runSet_txW0 (s : State) : (runSet s).txW0 = s.txW0 := rfl
@[simp] theorem runSet_txW1 (s : State) : (runSet s).txW1 = s.txW1 := rfl
@[simp] theorem runSet_epmapLast (s : State) : (runSet s).epmapLast = s.epmapLast := rfl
@[simp] theorem runSet_epIdx (s : State) : (runSet s).epIdx = s.epIdx := rfl
@[simp] theorem runSet_pollCtr (s : State) : (runSet s).pollCtr = s.pollCtr := rfl
@[simp] theorem runSet_helloVer (s : State) : (runSet s).helloVer = s.helloVer := rfl
@[simp] theorem runSet_epList (s : State) : (runSet s).epList = s.epList := rfl
@[simp] theorem runSet_epmapCount (s : State) : (runSet s).epmapCount = s.epmapCount := rfl
@[simp] theorem runSet_faultCode (s : State) : (runSet s).faultCode = s.faultCode := rfl
@[simp] theorem runSet_faultState (s : State) : (runSet s).faultState = s.faultState := rfl
@[simp] theorem runSet_faultW0 (s : State) : (runSet s).faultW0 = s.faultW0 := rfl
@[simp] theorem runSet_faultW1 (s : State) : (runSet s).faultW1 = s.faultW1 := rfl
@[simp] theorem runSet_resvValid (s : State) : (runSet s).resvValid = s.resvValid := rfl
@[simp] theorem runSet_resvBase (s : State) : (runSet s).resvBase = s.resvBase := rfl
@[simp] theorem runSet_resvLimit (s : State) : (runSet s).resvLimit = s.resvLimit := rfl
@[simp] theorem runSet_resvCursor (s : State) : (runSet s).resvCursor = s.resvCursor := rfl
@[simp] theorem runSet_request (s : State) : (runSet s).request = s.request := rfl
@[simp] theorem runSet_response (s : State) : (runSet s).response = s.response := rfl
@[simp] theorem runSet_outW0 (s : State) : (runSet s).outW0 = s.outW0 := rfl
@[simp] theorem runSet_outq (s : State) : (runSet s).outq = s.outq := rfl
@[simp] theorem runSet_inq (s : State) : (runSet s).inq = s.inq := rfl
@[simp] theorem runSet_cpuCtrl (s : State) : (runSet s).cpuCtrl = s.cpuCtrl ||| (1 <<< s.config.runBit) := rfl
@[simp] theorem runSet_mem (s : State) : (runSet s).mem = s.mem := rfl
@[simp] theorem runSet_seq (s : State) : (runSet s).seq = s.seq := rfl
@[simp] theorem runSet_call (s : State) : (runSet s).call = s.call := rfl
@[simp] theorem runSet_callResult (s : State) : (runSet s).callResult = s.callResult := rfl
@[simp] theorem runSet_exchange (s : State) : (runSet s).exchange = s.exchange := rfl
@[simp] theorem runSet_windowData (s : State) : (runSet s).windowData = s.windowData := rfl
@[simp] theorem runSet_freeCtr (s : State) : (runSet s).freeCtr = s.freeCtr := rfl
@[simp] theorem runSet_agenda (s : State) : (runSet s).agenda = s.agenda := rfl

/-! ### push -/

@[simp] theorem push_config (m : Message) (s : State) : (push m s).config = s.config := rfl
@[simp] theorem push_fsm (m : Message) (s : State) : (push m s).fsm = s.fsm := rfl
@[simp] theorem push_curCmd (m : Message) (s : State) : (push m s).curCmd = s.curCmd := rfl
@[simp] theorem push_curCh (m : Message) (s : State) : (push m s).curCh = s.curCh := rfl
@[simp] theorem push_txW0 (m : Message) (s : State) : (push m s).txW0 = s.txW0 := rfl
@[simp] theorem push_txW1 (m : Message) (s : State) : (push m s).txW1 = s.txW1 := rfl
@[simp] theorem push_epmapLast (m : Message) (s : State) : (push m s).epmapLast = s.epmapLast := rfl
@[simp] theorem push_epIdx (m : Message) (s : State) : (push m s).epIdx = s.epIdx := rfl
@[simp] theorem push_pollCtr (m : Message) (s : State) : (push m s).pollCtr = s.pollCtr := rfl
@[simp] theorem push_helloVer (m : Message) (s : State) : (push m s).helloVer = s.helloVer := rfl
@[simp] theorem push_epList (m : Message) (s : State) : (push m s).epList = s.epList := rfl
@[simp] theorem push_epmapCount (m : Message) (s : State) : (push m s).epmapCount = s.epmapCount := rfl
@[simp] theorem push_faultCode (m : Message) (s : State) : (push m s).faultCode = s.faultCode := rfl
@[simp] theorem push_faultState (m : Message) (s : State) : (push m s).faultState = s.faultState := rfl
@[simp] theorem push_faultW0 (m : Message) (s : State) : (push m s).faultW0 = s.faultW0 := rfl
@[simp] theorem push_faultW1 (m : Message) (s : State) : (push m s).faultW1 = s.faultW1 := rfl
@[simp] theorem push_resvValid (m : Message) (s : State) : (push m s).resvValid = s.resvValid := rfl
@[simp] theorem push_resvBase (m : Message) (s : State) : (push m s).resvBase = s.resvBase := rfl
@[simp] theorem push_resvLimit (m : Message) (s : State) : (push m s).resvLimit = s.resvLimit := rfl
@[simp] theorem push_resvCursor (m : Message) (s : State) : (push m s).resvCursor = s.resvCursor := rfl
@[simp] theorem push_request (m : Message) (s : State) : (push m s).request = s.request := rfl
@[simp] theorem push_response (m : Message) (s : State) : (push m s).response = s.response := rfl
@[simp] theorem push_outW0 (m : Message) (s : State) : (push m s).outW0 = m.w0 := rfl
@[simp] theorem push_outq (m : Message) (s : State) : (push m s).outq = s.outq ++ [m] := rfl
@[simp] theorem push_inq (m : Message) (s : State) : (push m s).inq = s.inq := rfl
@[simp] theorem push_cpuCtrl (m : Message) (s : State) : (push m s).cpuCtrl = s.cpuCtrl := rfl
@[simp] theorem push_mem (m : Message) (s : State) : (push m s).mem = s.mem := rfl
@[simp] theorem push_seq (m : Message) (s : State) : (push m s).seq = s.seq := rfl
@[simp] theorem push_call (m : Message) (s : State) : (push m s).call = s.call := rfl
@[simp] theorem push_callResult (m : Message) (s : State) : (push m s).callResult = s.callResult := rfl
@[simp] theorem push_exchange (m : Message) (s : State) : (push m s).exchange = s.exchange := rfl
@[simp] theorem push_windowData (m : Message) (s : State) : (push m s).windowData = s.windowData := rfl
@[simp] theorem push_freeCtr (m : Message) (s : State) : (push m s).freeCtr = s.freeCtr := rfl
@[simp] theorem push_agenda (m : Message) (s : State) : (push m s).agenda = s.agenda := rfl

/-! ### setTx -/

@[simp] theorem setTx_config (m : Message) (s : State) : (setTx m s).config = s.config := rfl
@[simp] theorem setTx_fsm (m : Message) (s : State) : (setTx m s).fsm = s.fsm := rfl
@[simp] theorem setTx_curCmd (m : Message) (s : State) : (setTx m s).curCmd = s.curCmd := rfl
@[simp] theorem setTx_curCh (m : Message) (s : State) : (setTx m s).curCh = s.curCh := rfl
@[simp] theorem setTx_txW0 (m : Message) (s : State) : (setTx m s).txW0 = m.w0 := rfl
@[simp] theorem setTx_txW1 (m : Message) (s : State) : (setTx m s).txW1 = m.w1 := rfl
@[simp] theorem setTx_epmapLast (m : Message) (s : State) : (setTx m s).epmapLast = s.epmapLast := rfl
@[simp] theorem setTx_epIdx (m : Message) (s : State) : (setTx m s).epIdx = s.epIdx := rfl
@[simp] theorem setTx_pollCtr (m : Message) (s : State) : (setTx m s).pollCtr = s.pollCtr := rfl
@[simp] theorem setTx_helloVer (m : Message) (s : State) : (setTx m s).helloVer = s.helloVer := rfl
@[simp] theorem setTx_epList (m : Message) (s : State) : (setTx m s).epList = s.epList := rfl
@[simp] theorem setTx_epmapCount (m : Message) (s : State) : (setTx m s).epmapCount = s.epmapCount := rfl
@[simp] theorem setTx_faultCode (m : Message) (s : State) : (setTx m s).faultCode = s.faultCode := rfl
@[simp] theorem setTx_faultState (m : Message) (s : State) : (setTx m s).faultState = s.faultState := rfl
@[simp] theorem setTx_faultW0 (m : Message) (s : State) : (setTx m s).faultW0 = s.faultW0 := rfl
@[simp] theorem setTx_faultW1 (m : Message) (s : State) : (setTx m s).faultW1 = s.faultW1 := rfl
@[simp] theorem setTx_resvValid (m : Message) (s : State) : (setTx m s).resvValid = s.resvValid := rfl
@[simp] theorem setTx_resvBase (m : Message) (s : State) : (setTx m s).resvBase = s.resvBase := rfl
@[simp] theorem setTx_resvLimit (m : Message) (s : State) : (setTx m s).resvLimit = s.resvLimit := rfl
@[simp] theorem setTx_resvCursor (m : Message) (s : State) : (setTx m s).resvCursor = s.resvCursor := rfl
@[simp] theorem setTx_request (m : Message) (s : State) : (setTx m s).request = s.request := rfl
@[simp] theorem setTx_response (m : Message) (s : State) : (setTx m s).response = s.response := rfl
@[simp] theorem setTx_outW0 (m : Message) (s : State) : (setTx m s).outW0 = s.outW0 := rfl
@[simp] theorem setTx_outq (m : Message) (s : State) : (setTx m s).outq = s.outq := rfl
@[simp] theorem setTx_inq (m : Message) (s : State) : (setTx m s).inq = s.inq := rfl
@[simp] theorem setTx_cpuCtrl (m : Message) (s : State) : (setTx m s).cpuCtrl = s.cpuCtrl := rfl
@[simp] theorem setTx_mem (m : Message) (s : State) : (setTx m s).mem = s.mem := rfl
@[simp] theorem setTx_seq (m : Message) (s : State) : (setTx m s).seq = s.seq := rfl
@[simp] theorem setTx_call (m : Message) (s : State) : (setTx m s).call = s.call := rfl
@[simp] theorem setTx_callResult (m : Message) (s : State) : (setTx m s).callResult = s.callResult := rfl
@[simp] theorem setTx_exchange (m : Message) (s : State) : (setTx m s).exchange = s.exchange := rfl
@[simp] theorem setTx_windowData (m : Message) (s : State) : (setTx m s).windowData = s.windowData := rfl
@[simp] theorem setTx_freeCtr (m : Message) (s : State) : (setTx m s).freeCtr = s.freeCtr := rfl
@[simp] theorem setTx_agenda (m : Message) (s : State) : (setTx m s).agenda = s.agenda := rfl

/-! ### spendPoll -/

@[simp] theorem spendPoll_config (s : State) : (spendPoll s).config = s.config := rfl
@[simp] theorem spendPoll_fsm (s : State) : (spendPoll s).fsm = s.fsm := rfl
@[simp] theorem spendPoll_curCmd (s : State) : (spendPoll s).curCmd = s.curCmd := rfl
@[simp] theorem spendPoll_curCh (s : State) : (spendPoll s).curCh = s.curCh := rfl
@[simp] theorem spendPoll_txW0 (s : State) : (spendPoll s).txW0 = s.txW0 := rfl
@[simp] theorem spendPoll_txW1 (s : State) : (spendPoll s).txW1 = s.txW1 := rfl
@[simp] theorem spendPoll_epmapLast (s : State) : (spendPoll s).epmapLast = s.epmapLast := rfl
@[simp] theorem spendPoll_epIdx (s : State) : (spendPoll s).epIdx = s.epIdx := rfl
@[simp] theorem spendPoll_pollCtr (s : State) : (spendPoll s).pollCtr = s.pollCtr - 1 := rfl
@[simp] theorem spendPoll_helloVer (s : State) : (spendPoll s).helloVer = s.helloVer := rfl
@[simp] theorem spendPoll_epList (s : State) : (spendPoll s).epList = s.epList := rfl
@[simp] theorem spendPoll_epmapCount (s : State) : (spendPoll s).epmapCount = s.epmapCount := rfl
@[simp] theorem spendPoll_faultCode (s : State) : (spendPoll s).faultCode = s.faultCode := rfl
@[simp] theorem spendPoll_faultState (s : State) : (spendPoll s).faultState = s.faultState := rfl
@[simp] theorem spendPoll_faultW0 (s : State) : (spendPoll s).faultW0 = s.faultW0 := rfl
@[simp] theorem spendPoll_faultW1 (s : State) : (spendPoll s).faultW1 = s.faultW1 := rfl
@[simp] theorem spendPoll_resvValid (s : State) : (spendPoll s).resvValid = s.resvValid := rfl
@[simp] theorem spendPoll_resvBase (s : State) : (spendPoll s).resvBase = s.resvBase := rfl
@[simp] theorem spendPoll_resvLimit (s : State) : (spendPoll s).resvLimit = s.resvLimit := rfl
@[simp] theorem spendPoll_resvCursor (s : State) : (spendPoll s).resvCursor = s.resvCursor := rfl
@[simp] theorem spendPoll_request (s : State) : (spendPoll s).request = s.request := rfl
@[simp] theorem spendPoll_response (s : State) : (spendPoll s).response = s.response := rfl
@[simp] theorem spendPoll_outW0 (s : State) : (spendPoll s).outW0 = s.outW0 := rfl
@[simp] theorem spendPoll_outq (s : State) : (spendPoll s).outq = s.outq := rfl
@[simp] theorem spendPoll_inq (s : State) : (spendPoll s).inq = s.inq := rfl
@[simp] theorem spendPoll_cpuCtrl (s : State) : (spendPoll s).cpuCtrl = s.cpuCtrl := rfl
@[simp] theorem spendPoll_mem (s : State) : (spendPoll s).mem = s.mem := rfl
@[simp] theorem spendPoll_seq (s : State) : (spendPoll s).seq = s.seq := rfl
@[simp] theorem spendPoll_call (s : State) : (spendPoll s).call = s.call := rfl
@[simp] theorem spendPoll_callResult (s : State) : (spendPoll s).callResult = s.callResult := rfl
@[simp] theorem spendPoll_exchange (s : State) : (spendPoll s).exchange = s.exchange := rfl
@[simp] theorem spendPoll_windowData (s : State) : (spendPoll s).windowData = s.windowData := rfl
@[simp] theorem spendPoll_freeCtr (s : State) : (spendPoll s).freeCtr = s.freeCtr := rfl
@[simp] theorem spendPoll_agenda (s : State) : (spendPoll s).agenda = s.agenda := rfl

/-! ### complete -/

@[simp] theorem complete_config (st : Status) (r0 r1 : Word) (s : State) : (complete st r0 r1 s).config = s.config := rfl
@[simp] theorem complete_fsm (st : Status) (r0 r1 : Word) (s : State) : (complete st r0 r1 s).fsm = s.fsm := rfl
@[simp] theorem complete_curCmd (st : Status) (r0 r1 : Word) (s : State) : (complete st r0 r1 s).curCmd = .none := rfl
@[simp] theorem complete_curCh (st : Status) (r0 r1 : Word) (s : State) : (complete st r0 r1 s).curCh = s.curCh := rfl
@[simp] theorem complete_txW0 (st : Status) (r0 r1 : Word) (s : State) : (complete st r0 r1 s).txW0 = s.txW0 := rfl
@[simp] theorem complete_txW1 (st : Status) (r0 r1 : Word) (s : State) : (complete st r0 r1 s).txW1 = s.txW1 := rfl
@[simp] theorem complete_epmapLast (st : Status) (r0 r1 : Word) (s : State) : (complete st r0 r1 s).epmapLast = s.epmapLast := rfl
@[simp] theorem complete_epIdx (st : Status) (r0 r1 : Word) (s : State) : (complete st r0 r1 s).epIdx = s.epIdx := rfl
@[simp] theorem complete_pollCtr (st : Status) (r0 r1 : Word) (s : State) : (complete st r0 r1 s).pollCtr = s.pollCtr := rfl
@[simp] theorem complete_helloVer (st : Status) (r0 r1 : Word) (s : State) : (complete st r0 r1 s).helloVer = s.helloVer := rfl
@[simp] theorem complete_epList (st : Status) (r0 r1 : Word) (s : State) : (complete st r0 r1 s).epList = s.epList := rfl
@[simp] theorem complete_epmapCount (st : Status) (r0 r1 : Word) (s : State) : (complete st r0 r1 s).epmapCount = s.epmapCount := rfl
@[simp] theorem complete_faultCode (st : Status) (r0 r1 : Word) (s : State) : (complete st r0 r1 s).faultCode = s.faultCode := rfl
@[simp] theorem complete_faultState (st : Status) (r0 r1 : Word) (s : State) : (complete st r0 r1 s).faultState = s.faultState := rfl
@[simp] theorem complete_faultW0 (st : Status) (r0 r1 : Word) (s : State) : (complete st r0 r1 s).faultW0 = s.faultW0 := rfl
@[simp] theorem complete_faultW1 (st : Status) (r0 r1 : Word) (s : State) : (complete st r0 r1 s).faultW1 = s.faultW1 := rfl
@[simp] theorem complete_resvValid (st : Status) (r0 r1 : Word) (s : State) : (complete st r0 r1 s).resvValid = s.resvValid := rfl
@[simp] theorem complete_resvBase (st : Status) (r0 r1 : Word) (s : State) : (complete st r0 r1 s).resvBase = s.resvBase := rfl
@[simp] theorem complete_resvLimit (st : Status) (r0 r1 : Word) (s : State) : (complete st r0 r1 s).resvLimit = s.resvLimit := rfl
@[simp] theorem complete_resvCursor (st : Status) (r0 r1 : Word) (s : State) : (complete st r0 r1 s).resvCursor = s.resvCursor := rfl
@[simp] theorem complete_request (st : Status) (r0 r1 : Word) (s : State) : (complete st r0 r1 s).request = s.request := rfl
@[simp] theorem complete_response (st : Status) (r0 r1 : Word) (s : State) : (complete st r0 r1 s).response = some ⟨st, r0, r1⟩ := rfl
@[simp] theorem complete_outW0 (st : Status) (r0 r1 : Word) (s : State) : (complete st r0 r1 s).outW0 = s.outW0 := rfl
@[simp] theorem complete_outq (st : Status) (r0 r1 : Word) (s : State) : (complete st r0 r1 s).outq = s.outq := rfl
@[simp] theorem complete_inq (st : Status) (r0 r1 : Word) (s : State) : (complete st r0 r1 s).inq = s.inq := rfl
@[simp] theorem complete_cpuCtrl (st : Status) (r0 r1 : Word) (s : State) : (complete st r0 r1 s).cpuCtrl = s.cpuCtrl := rfl
@[simp] theorem complete_mem (st : Status) (r0 r1 : Word) (s : State) : (complete st r0 r1 s).mem = s.mem := rfl
@[simp] theorem complete_seq (st : Status) (r0 r1 : Word) (s : State) : (complete st r0 r1 s).seq = s.seq := rfl
@[simp] theorem complete_call (st : Status) (r0 r1 : Word) (s : State) : (complete st r0 r1 s).call = s.call := rfl
@[simp] theorem complete_callResult (st : Status) (r0 r1 : Word) (s : State) : (complete st r0 r1 s).callResult = s.callResult := rfl
@[simp] theorem complete_exchange (st : Status) (r0 r1 : Word) (s : State) : (complete st r0 r1 s).exchange = s.exchange := rfl
@[simp] theorem complete_windowData (st : Status) (r0 r1 : Word) (s : State) : (complete st r0 r1 s).windowData = s.windowData := rfl
@[simp] theorem complete_freeCtr (st : Status) (r0 r1 : Word) (s : State) : (complete st r0 r1 s).freeCtr = s.freeCtr := rfl
@[simp] theorem complete_agenda (st : Status) (r0 r1 : Word) (s : State) : (complete st r0 r1 s).agenda = s.agenda := rfl

/-! ### enter -/

@[simp] theorem enter_config (f : FsmState) (s : State) : (enter f s).config = s.config := rfl
@[simp] theorem enter_fsm (f : FsmState) (s : State) : (enter f s).fsm = f := rfl
@[simp] theorem enter_curCmd (f : FsmState) (s : State) : (enter f s).curCmd = s.curCmd := rfl
@[simp] theorem enter_curCh (f : FsmState) (s : State) : (enter f s).curCh = s.curCh := rfl
@[simp] theorem enter_txW0 (f : FsmState) (s : State) : (enter f s).txW0 = s.txW0 := rfl
@[simp] theorem enter_txW1 (f : FsmState) (s : State) : (enter f s).txW1 = s.txW1 := rfl
@[simp] theorem enter_epmapLast (f : FsmState) (s : State) : (enter f s).epmapLast = s.epmapLast := rfl
@[simp] theorem enter_epIdx (f : FsmState) (s : State) : (enter f s).epIdx = s.epIdx := rfl
@[simp] theorem enter_pollCtr (f : FsmState) (s : State) : (enter f s).pollCtr = if isSend f || isWait f then s.config.pollBudget else s.pollCtr := rfl
@[simp] theorem enter_helloVer (f : FsmState) (s : State) : (enter f s).helloVer = s.helloVer := rfl
@[simp] theorem enter_epList (f : FsmState) (s : State) : (enter f s).epList = s.epList := rfl
@[simp] theorem enter_epmapCount (f : FsmState) (s : State) : (enter f s).epmapCount = s.epmapCount := rfl
@[simp] theorem enter_faultCode (f : FsmState) (s : State) : (enter f s).faultCode = s.faultCode := rfl
@[simp] theorem enter_faultState (f : FsmState) (s : State) : (enter f s).faultState = s.faultState := rfl
@[simp] theorem enter_faultW0 (f : FsmState) (s : State) : (enter f s).faultW0 = s.faultW0 := rfl
@[simp] theorem enter_faultW1 (f : FsmState) (s : State) : (enter f s).faultW1 = s.faultW1 := rfl
@[simp] theorem enter_resvValid (f : FsmState) (s : State) : (enter f s).resvValid = s.resvValid := rfl
@[simp] theorem enter_resvBase (f : FsmState) (s : State) : (enter f s).resvBase = s.resvBase := rfl
@[simp] theorem enter_resvLimit (f : FsmState) (s : State) : (enter f s).resvLimit = s.resvLimit := rfl
@[simp] theorem enter_resvCursor (f : FsmState) (s : State) : (enter f s).resvCursor = s.resvCursor := rfl
@[simp] theorem enter_request (f : FsmState) (s : State) : (enter f s).request = s.request := rfl
@[simp] theorem enter_response (f : FsmState) (s : State) : (enter f s).response = s.response := rfl
@[simp] theorem enter_outW0 (f : FsmState) (s : State) : (enter f s).outW0 = s.outW0 := rfl
@[simp] theorem enter_outq (f : FsmState) (s : State) : (enter f s).outq = s.outq := rfl
@[simp] theorem enter_inq (f : FsmState) (s : State) : (enter f s).inq = s.inq := rfl
@[simp] theorem enter_cpuCtrl (f : FsmState) (s : State) : (enter f s).cpuCtrl = s.cpuCtrl := rfl
@[simp] theorem enter_mem (f : FsmState) (s : State) : (enter f s).mem = s.mem := rfl
@[simp] theorem enter_seq (f : FsmState) (s : State) : (enter f s).seq = s.seq := rfl
@[simp] theorem enter_call (f : FsmState) (s : State) : (enter f s).call = s.call := rfl
@[simp] theorem enter_callResult (f : FsmState) (s : State) : (enter f s).callResult = s.callResult := rfl
@[simp] theorem enter_exchange (f : FsmState) (s : State) : (enter f s).exchange = s.exchange := rfl
@[simp] theorem enter_windowData (f : FsmState) (s : State) : (enter f s).windowData = s.windowData := rfl
@[simp] theorem enter_freeCtr (f : FsmState) (s : State) : (enter f s).freeCtr = s.freeCtr := rfl
@[simp] theorem enter_agenda (f : FsmState) (s : State) : (enter f s).agenda = s.agenda := rfl

/-! ### bootFault -/

@[simp] theorem bootFault_config (c : Status) (m : Option Message) (s : State) : (bootFault c m s).config = s.config := rfl
@[simp] theorem bootFault_fsm (c : Status) (m : Option Message) (s : State) : (bootFault c m s).fsm = .failed := rfl
@[simp] theorem bootFault_curCmd (c : Status) (m : Option Message) (s : State) : (bootFault c m s).curCmd = .none := rfl
@[simp] theorem bootFault_curCh (c : Status) (m : Option Message) (s : State) : (bootFault c m s).curCh = s.curCh := rfl
@[simp] theorem bootFault_txW0 (c : Status) (m : Option Message) (s : State) : (bootFault c m s).txW0 = s.txW0 := rfl
@[simp] theorem bootFault_txW1 (c : Status) (m : Option Message) (s : State) : (bootFault c m s).txW1 = s.txW1 := rfl
@[simp] theorem bootFault_epmapLast (c : Status) (m : Option Message) (s : State) : (bootFault c m s).epmapLast = s.epmapLast := rfl
@[simp] theorem bootFault_epIdx (c : Status) (m : Option Message) (s : State) : (bootFault c m s).epIdx = s.epIdx := rfl
@[simp] theorem bootFault_pollCtr (c : Status) (m : Option Message) (s : State) : (bootFault c m s).pollCtr = s.pollCtr := rfl
@[simp] theorem bootFault_helloVer (c : Status) (m : Option Message) (s : State) : (bootFault c m s).helloVer = s.helloVer := rfl
@[simp] theorem bootFault_epList (c : Status) (m : Option Message) (s : State) : (bootFault c m s).epList = s.epList := rfl
@[simp] theorem bootFault_epmapCount (c : Status) (m : Option Message) (s : State) : (bootFault c m s).epmapCount = s.epmapCount := rfl
@[simp] theorem bootFault_faultCode (c : Status) (m : Option Message) (s : State) : (bootFault c m s).faultCode = c := rfl
@[simp] theorem bootFault_faultState (c : Status) (m : Option Message) (s : State) : (bootFault c m s).faultState = s.fsm := rfl
@[simp] theorem bootFault_faultW0 (c : Status) (m : Option Message) (s : State) : (bootFault c m s).faultW0 = (faultMessage m).w0 := rfl
@[simp] theorem bootFault_faultW1 (c : Status) (m : Option Message) (s : State) : (bootFault c m s).faultW1 = (faultMessage m).w1 := rfl
@[simp] theorem bootFault_resvValid (c : Status) (m : Option Message) (s : State) : (bootFault c m s).resvValid = s.resvValid := rfl
@[simp] theorem bootFault_resvBase (c : Status) (m : Option Message) (s : State) : (bootFault c m s).resvBase = s.resvBase := rfl
@[simp] theorem bootFault_resvLimit (c : Status) (m : Option Message) (s : State) : (bootFault c m s).resvLimit = s.resvLimit := rfl
@[simp] theorem bootFault_resvCursor (c : Status) (m : Option Message) (s : State) : (bootFault c m s).resvCursor = s.resvCursor := rfl
@[simp] theorem bootFault_request (c : Status) (m : Option Message) (s : State) : (bootFault c m s).request = s.request := rfl
@[simp] theorem bootFault_response (c : Status) (m : Option Message) (s : State) : (bootFault c m s).response = some ⟨c, 0, 0⟩ := rfl
@[simp] theorem bootFault_outW0 (c : Status) (m : Option Message) (s : State) : (bootFault c m s).outW0 = s.outW0 := rfl
@[simp] theorem bootFault_outq (c : Status) (m : Option Message) (s : State) : (bootFault c m s).outq = s.outq := rfl
@[simp] theorem bootFault_inq (c : Status) (m : Option Message) (s : State) : (bootFault c m s).inq = s.inq := rfl
@[simp] theorem bootFault_cpuCtrl (c : Status) (m : Option Message) (s : State) : (bootFault c m s).cpuCtrl = s.cpuCtrl := rfl
@[simp] theorem bootFault_mem (c : Status) (m : Option Message) (s : State) : (bootFault c m s).mem = s.mem := rfl
@[simp] theorem bootFault_seq (c : Status) (m : Option Message) (s : State) : (bootFault c m s).seq = s.seq := rfl
@[simp] theorem bootFault_call (c : Status) (m : Option Message) (s : State) : (bootFault c m s).call = s.call := rfl
@[simp] theorem bootFault_callResult (c : Status) (m : Option Message) (s : State) : (bootFault c m s).callResult = s.callResult := rfl
@[simp] theorem bootFault_exchange (c : Status) (m : Option Message) (s : State) : (bootFault c m s).exchange = s.exchange := rfl
@[simp] theorem bootFault_windowData (c : Status) (m : Option Message) (s : State) : (bootFault c m s).windowData = s.windowData := rfl
@[simp] theorem bootFault_freeCtr (c : Status) (m : Option Message) (s : State) : (bootFault c m s).freeCtr = s.freeCtr := rfl
@[simp] theorem bootFault_agenda (c : Status) (m : Option Message) (s : State) : (bootFault c m s).agenda = s.agenda := rfl

/-! ### illegalOp -/

@[simp] theorem illegalOp_config (s : State) : (illegalOp s).config = s.config := rfl
@[simp] theorem illegalOp_fsm (s : State) : (illegalOp s).fsm = s.fsm := rfl
@[simp] theorem illegalOp_curCmd (s : State) : (illegalOp s).curCmd = .none := rfl
@[simp] theorem illegalOp_curCh (s : State) : (illegalOp s).curCh = s.curCh := rfl
@[simp] theorem illegalOp_txW0 (s : State) : (illegalOp s).txW0 = s.txW0 := rfl
@[simp] theorem illegalOp_txW1 (s : State) : (illegalOp s).txW1 = s.txW1 := rfl
@[simp] theorem illegalOp_epmapLast (s : State) : (illegalOp s).epmapLast = s.epmapLast := rfl
@[simp] theorem illegalOp_epIdx (s : State) : (illegalOp s).epIdx = s.epIdx := rfl
@[simp] theorem illegalOp_pollCtr (s : State) : (illegalOp s).pollCtr = s.pollCtr := rfl
@[simp] theorem illegalOp_helloVer (s : State) : (illegalOp s).helloVer = s.helloVer := rfl
@[simp] theorem illegalOp_epList (s : State) : (illegalOp s).epList = s.epList := rfl
@[simp] theorem illegalOp_epmapCount (s : State) : (illegalOp s).epmapCount = s.epmapCount := rfl
@[simp] theorem illegalOp_faultCode (s : State) : (illegalOp s).faultCode = s.faultCode := rfl
@[simp] theorem illegalOp_faultState (s : State) : (illegalOp s).faultState = s.faultState := rfl
@[simp] theorem illegalOp_faultW0 (s : State) : (illegalOp s).faultW0 = s.faultW0 := rfl
@[simp] theorem illegalOp_faultW1 (s : State) : (illegalOp s).faultW1 = s.faultW1 := rfl
@[simp] theorem illegalOp_resvValid (s : State) : (illegalOp s).resvValid = s.resvValid := rfl
@[simp] theorem illegalOp_resvBase (s : State) : (illegalOp s).resvBase = s.resvBase := rfl
@[simp] theorem illegalOp_resvLimit (s : State) : (illegalOp s).resvLimit = s.resvLimit := rfl
@[simp] theorem illegalOp_resvCursor (s : State) : (illegalOp s).resvCursor = s.resvCursor := rfl
@[simp] theorem illegalOp_request (s : State) : (illegalOp s).request = s.request := rfl
@[simp] theorem illegalOp_response (s : State) : (illegalOp s).response = some ⟨.illegalOp, 0, 0⟩ := rfl
@[simp] theorem illegalOp_outW0 (s : State) : (illegalOp s).outW0 = s.outW0 := rfl
@[simp] theorem illegalOp_outq (s : State) : (illegalOp s).outq = s.outq := rfl
@[simp] theorem illegalOp_inq (s : State) : (illegalOp s).inq = s.inq := rfl
@[simp] theorem illegalOp_cpuCtrl (s : State) : (illegalOp s).cpuCtrl = s.cpuCtrl := rfl
@[simp] theorem illegalOp_mem (s : State) : (illegalOp s).mem = s.mem := rfl
@[simp] theorem illegalOp_seq (s : State) : (illegalOp s).seq = s.seq := rfl
@[simp] theorem illegalOp_call (s : State) : (illegalOp s).call = s.call := rfl
@[simp] theorem illegalOp_callResult (s : State) : (illegalOp s).callResult = s.callResult := rfl
@[simp] theorem illegalOp_exchange (s : State) : (illegalOp s).exchange = s.exchange := rfl
@[simp] theorem illegalOp_windowData (s : State) : (illegalOp s).windowData = s.windowData := rfl
@[simp] theorem illegalOp_freeCtr (s : State) : (illegalOp s).freeCtr = s.freeCtr := rfl
@[simp] theorem illegalOp_agenda (s : State) : (illegalOp s).agenda = s.agenda := rfl

/-! ### createReservation -/

@[simp] theorem createReservation_config (b l : Word) (s : State) : (createReservation b l s).config = s.config := rfl
@[simp] theorem createReservation_fsm (b l : Word) (s : State) : (createReservation b l s).fsm = s.fsm := rfl
@[simp] theorem createReservation_curCmd (b l : Word) (s : State) : (createReservation b l s).curCmd = s.curCmd := rfl
@[simp] theorem createReservation_curCh (b l : Word) (s : State) : (createReservation b l s).curCh = s.curCh := rfl
@[simp] theorem createReservation_txW0 (b l : Word) (s : State) : (createReservation b l s).txW0 = s.txW0 := rfl
@[simp] theorem createReservation_txW1 (b l : Word) (s : State) : (createReservation b l s).txW1 = s.txW1 := rfl
@[simp] theorem createReservation_epmapLast (b l : Word) (s : State) : (createReservation b l s).epmapLast = s.epmapLast := rfl
@[simp] theorem createReservation_epIdx (b l : Word) (s : State) : (createReservation b l s).epIdx = s.epIdx := rfl
@[simp] theorem createReservation_pollCtr (b l : Word) (s : State) : (createReservation b l s).pollCtr = s.pollCtr := rfl
@[simp] theorem createReservation_helloVer (b l : Word) (s : State) : (createReservation b l s).helloVer = s.helloVer := rfl
@[simp] theorem createReservation_epList (b l : Word) (s : State) : (createReservation b l s).epList = s.epList := rfl
@[simp] theorem createReservation_epmapCount (b l : Word) (s : State) : (createReservation b l s).epmapCount = s.epmapCount := rfl
@[simp] theorem createReservation_faultCode (b l : Word) (s : State) : (createReservation b l s).faultCode = s.faultCode := rfl
@[simp] theorem createReservation_faultState (b l : Word) (s : State) : (createReservation b l s).faultState = s.faultState := rfl
@[simp] theorem createReservation_faultW0 (b l : Word) (s : State) : (createReservation b l s).faultW0 = s.faultW0 := rfl
@[simp] theorem createReservation_faultW1 (b l : Word) (s : State) : (createReservation b l s).faultW1 = s.faultW1 := rfl
@[simp] theorem createReservation_resvValid (b l : Word) (s : State) : (createReservation b l s).resvValid = true := rfl
@[simp] theorem createReservation_resvBase (b l : Word) (s : State) : (createReservation b l s).resvBase = b.setWidth 44 := rfl
@[simp] theorem createReservation_resvLimit (b l : Word) (s : State) : (createReservation b l s).resvLimit = l.setWidth 44 := rfl
@[simp] theorem createReservation_resvCursor (b l : Word) (s : State) : (createReservation b l s).resvCursor = 0 := rfl
@[simp] theorem createReservation_request (b l : Word) (s : State) : (createReservation b l s).request = s.request := rfl
@[simp] theorem createReservation_response (b l : Word) (s : State) : (createReservation b l s).response = s.response := rfl
@[simp] theorem createReservation_outW0 (b l : Word) (s : State) : (createReservation b l s).outW0 = s.outW0 := rfl
@[simp] theorem createReservation_outq (b l : Word) (s : State) : (createReservation b l s).outq = s.outq := rfl
@[simp] theorem createReservation_inq (b l : Word) (s : State) : (createReservation b l s).inq = s.inq := rfl
@[simp] theorem createReservation_cpuCtrl (b l : Word) (s : State) : (createReservation b l s).cpuCtrl = s.cpuCtrl := rfl
@[simp] theorem createReservation_mem (b l : Word) (s : State) : (createReservation b l s).mem = s.mem := rfl
@[simp] theorem createReservation_seq (b l : Word) (s : State) : (createReservation b l s).seq = s.seq := rfl
@[simp] theorem createReservation_call (b l : Word) (s : State) : (createReservation b l s).call = s.call := rfl
@[simp] theorem createReservation_callResult (b l : Word) (s : State) : (createReservation b l s).callResult = s.callResult := rfl
@[simp] theorem createReservation_exchange (b l : Word) (s : State) : (createReservation b l s).exchange = s.exchange := rfl
@[simp] theorem createReservation_windowData (b l : Word) (s : State) : (createReservation b l s).windowData = s.windowData := rfl
@[simp] theorem createReservation_freeCtr (b l : Word) (s : State) : (createReservation b l s).freeCtr = s.freeCtr := rfl
@[simp] theorem createReservation_agenda (b l : Word) (s : State) : (createReservation b l s).agenda = s.agenda := rfl

/-! ### presentRequest -/

@[simp] theorem presentRequest_config (r : HostRequest) (s : State) : (presentRequest r s).config = s.config := rfl
@[simp] theorem presentRequest_fsm (r : HostRequest) (s : State) : (presentRequest r s).fsm = s.fsm := rfl
@[simp] theorem presentRequest_curCmd (r : HostRequest) (s : State) : (presentRequest r s).curCmd = s.curCmd := rfl
@[simp] theorem presentRequest_curCh (r : HostRequest) (s : State) : (presentRequest r s).curCh = s.curCh := rfl
@[simp] theorem presentRequest_txW0 (r : HostRequest) (s : State) : (presentRequest r s).txW0 = s.txW0 := rfl
@[simp] theorem presentRequest_txW1 (r : HostRequest) (s : State) : (presentRequest r s).txW1 = s.txW1 := rfl
@[simp] theorem presentRequest_epmapLast (r : HostRequest) (s : State) : (presentRequest r s).epmapLast = s.epmapLast := rfl
@[simp] theorem presentRequest_epIdx (r : HostRequest) (s : State) : (presentRequest r s).epIdx = s.epIdx := rfl
@[simp] theorem presentRequest_pollCtr (r : HostRequest) (s : State) : (presentRequest r s).pollCtr = s.pollCtr := rfl
@[simp] theorem presentRequest_helloVer (r : HostRequest) (s : State) : (presentRequest r s).helloVer = s.helloVer := rfl
@[simp] theorem presentRequest_epList (r : HostRequest) (s : State) : (presentRequest r s).epList = s.epList := rfl
@[simp] theorem presentRequest_epmapCount (r : HostRequest) (s : State) : (presentRequest r s).epmapCount = s.epmapCount := rfl
@[simp] theorem presentRequest_faultCode (r : HostRequest) (s : State) : (presentRequest r s).faultCode = s.faultCode := rfl
@[simp] theorem presentRequest_faultState (r : HostRequest) (s : State) : (presentRequest r s).faultState = s.faultState := rfl
@[simp] theorem presentRequest_faultW0 (r : HostRequest) (s : State) : (presentRequest r s).faultW0 = s.faultW0 := rfl
@[simp] theorem presentRequest_faultW1 (r : HostRequest) (s : State) : (presentRequest r s).faultW1 = s.faultW1 := rfl
@[simp] theorem presentRequest_resvValid (r : HostRequest) (s : State) : (presentRequest r s).resvValid = s.resvValid := rfl
@[simp] theorem presentRequest_resvBase (r : HostRequest) (s : State) : (presentRequest r s).resvBase = s.resvBase := rfl
@[simp] theorem presentRequest_resvLimit (r : HostRequest) (s : State) : (presentRequest r s).resvLimit = s.resvLimit := rfl
@[simp] theorem presentRequest_resvCursor (r : HostRequest) (s : State) : (presentRequest r s).resvCursor = s.resvCursor := rfl
@[simp] theorem presentRequest_request (r : HostRequest) (s : State) : (presentRequest r s).request = some r := rfl
@[simp] theorem presentRequest_response (r : HostRequest) (s : State) : (presentRequest r s).response = s.response := rfl
@[simp] theorem presentRequest_outW0 (r : HostRequest) (s : State) : (presentRequest r s).outW0 = s.outW0 := rfl
@[simp] theorem presentRequest_outq (r : HostRequest) (s : State) : (presentRequest r s).outq = s.outq := rfl
@[simp] theorem presentRequest_inq (r : HostRequest) (s : State) : (presentRequest r s).inq = s.inq := rfl
@[simp] theorem presentRequest_cpuCtrl (r : HostRequest) (s : State) : (presentRequest r s).cpuCtrl = s.cpuCtrl := rfl
@[simp] theorem presentRequest_mem (r : HostRequest) (s : State) : (presentRequest r s).mem = s.mem := rfl
@[simp] theorem presentRequest_seq (r : HostRequest) (s : State) : (presentRequest r s).seq = s.seq := rfl
@[simp] theorem presentRequest_call (r : HostRequest) (s : State) : (presentRequest r s).call = s.call := rfl
@[simp] theorem presentRequest_callResult (r : HostRequest) (s : State) : (presentRequest r s).callResult = s.callResult := rfl
@[simp] theorem presentRequest_exchange (r : HostRequest) (s : State) : (presentRequest r s).exchange = issueCommand r (exchangeNow s) := rfl
@[simp] theorem presentRequest_windowData (r : HostRequest) (s : State) : (presentRequest r s).windowData = s.windowData := rfl
@[simp] theorem presentRequest_freeCtr (r : HostRequest) (s : State) : (presentRequest r s).freeCtr = s.freeCtr := rfl
@[simp] theorem presentRequest_agenda (r : HostRequest) (s : State) : (presentRequest r s).agenda = s.agenda := rfl

/-! ### drawFree -/

@[simp] theorem drawFree_config (s : State) : (drawFree s).config = s.config := rfl
@[simp] theorem drawFree_fsm (s : State) : (drawFree s).fsm = s.fsm := rfl
@[simp] theorem drawFree_curCmd (s : State) : (drawFree s).curCmd = s.curCmd := rfl
@[simp] theorem drawFree_curCh (s : State) : (drawFree s).curCh = s.curCh := rfl
@[simp] theorem drawFree_txW0 (s : State) : (drawFree s).txW0 = s.txW0 := rfl
@[simp] theorem drawFree_txW1 (s : State) : (drawFree s).txW1 = s.txW1 := rfl
@[simp] theorem drawFree_epmapLast (s : State) : (drawFree s).epmapLast = s.epmapLast := rfl
@[simp] theorem drawFree_epIdx (s : State) : (drawFree s).epIdx = s.epIdx := rfl
@[simp] theorem drawFree_pollCtr (s : State) : (drawFree s).pollCtr = s.pollCtr := rfl
@[simp] theorem drawFree_helloVer (s : State) : (drawFree s).helloVer = s.helloVer := rfl
@[simp] theorem drawFree_epList (s : State) : (drawFree s).epList = s.epList := rfl
@[simp] theorem drawFree_epmapCount (s : State) : (drawFree s).epmapCount = s.epmapCount := rfl
@[simp] theorem drawFree_faultCode (s : State) : (drawFree s).faultCode = s.faultCode := rfl
@[simp] theorem drawFree_faultState (s : State) : (drawFree s).faultState = s.faultState := rfl
@[simp] theorem drawFree_faultW0 (s : State) : (drawFree s).faultW0 = s.faultW0 := rfl
@[simp] theorem drawFree_faultW1 (s : State) : (drawFree s).faultW1 = s.faultW1 := rfl
@[simp] theorem drawFree_resvValid (s : State) : (drawFree s).resvValid = s.resvValid := rfl
@[simp] theorem drawFree_resvBase (s : State) : (drawFree s).resvBase = s.resvBase := rfl
@[simp] theorem drawFree_resvLimit (s : State) : (drawFree s).resvLimit = s.resvLimit := rfl
@[simp] theorem drawFree_resvCursor (s : State) : (drawFree s).resvCursor = s.resvCursor := rfl
@[simp] theorem drawFree_request (s : State) : (drawFree s).request = s.request := rfl
@[simp] theorem drawFree_response (s : State) : (drawFree s).response = s.response := rfl
@[simp] theorem drawFree_outW0 (s : State) : (drawFree s).outW0 = s.outW0 := rfl
@[simp] theorem drawFree_outq (s : State) : (drawFree s).outq = s.outq := rfl
@[simp] theorem drawFree_inq (s : State) : (drawFree s).inq = s.inq := rfl
@[simp] theorem drawFree_cpuCtrl (s : State) : (drawFree s).cpuCtrl = s.cpuCtrl := rfl
@[simp] theorem drawFree_mem (s : State) : (drawFree s).mem = s.mem := rfl
@[simp] theorem drawFree_seq (s : State) : (drawFree s).seq = s.seq := rfl
@[simp] theorem drawFree_call (s : State) : (drawFree s).call = s.call := rfl
@[simp] theorem drawFree_callResult (s : State) : (drawFree s).callResult = s.callResult := rfl
@[simp] theorem drawFree_exchange (s : State) : (drawFree s).exchange = s.exchange := rfl
@[simp] theorem drawFree_windowData (s : State) : (drawFree s).windowData = s.windowData := rfl
@[simp] theorem drawFree_freeCtr (s : State) : (drawFree s).freeCtr = s.freeCtr + 1 := rfl
@[simp] theorem drawFree_agenda (s : State) : (drawFree s).agenda = s.agenda := rfl

/-! ### setPhase -/

@[simp] theorem setPhase_config (c : Call) (p : CallPhase) (s : State) : (setPhase c p s).config = s.config := rfl
@[simp] theorem setPhase_fsm (c : Call) (p : CallPhase) (s : State) : (setPhase c p s).fsm = s.fsm := rfl
@[simp] theorem setPhase_curCmd (c : Call) (p : CallPhase) (s : State) : (setPhase c p s).curCmd = s.curCmd := rfl
@[simp] theorem setPhase_curCh (c : Call) (p : CallPhase) (s : State) : (setPhase c p s).curCh = s.curCh := rfl
@[simp] theorem setPhase_txW0 (c : Call) (p : CallPhase) (s : State) : (setPhase c p s).txW0 = s.txW0 := rfl
@[simp] theorem setPhase_txW1 (c : Call) (p : CallPhase) (s : State) : (setPhase c p s).txW1 = s.txW1 := rfl
@[simp] theorem setPhase_epmapLast (c : Call) (p : CallPhase) (s : State) : (setPhase c p s).epmapLast = s.epmapLast := rfl
@[simp] theorem setPhase_epIdx (c : Call) (p : CallPhase) (s : State) : (setPhase c p s).epIdx = s.epIdx := rfl
@[simp] theorem setPhase_pollCtr (c : Call) (p : CallPhase) (s : State) : (setPhase c p s).pollCtr = s.pollCtr := rfl
@[simp] theorem setPhase_helloVer (c : Call) (p : CallPhase) (s : State) : (setPhase c p s).helloVer = s.helloVer := rfl
@[simp] theorem setPhase_epList (c : Call) (p : CallPhase) (s : State) : (setPhase c p s).epList = s.epList := rfl
@[simp] theorem setPhase_epmapCount (c : Call) (p : CallPhase) (s : State) : (setPhase c p s).epmapCount = s.epmapCount := rfl
@[simp] theorem setPhase_faultCode (c : Call) (p : CallPhase) (s : State) : (setPhase c p s).faultCode = s.faultCode := rfl
@[simp] theorem setPhase_faultState (c : Call) (p : CallPhase) (s : State) : (setPhase c p s).faultState = s.faultState := rfl
@[simp] theorem setPhase_faultW0 (c : Call) (p : CallPhase) (s : State) : (setPhase c p s).faultW0 = s.faultW0 := rfl
@[simp] theorem setPhase_faultW1 (c : Call) (p : CallPhase) (s : State) : (setPhase c p s).faultW1 = s.faultW1 := rfl
@[simp] theorem setPhase_resvValid (c : Call) (p : CallPhase) (s : State) : (setPhase c p s).resvValid = s.resvValid := rfl
@[simp] theorem setPhase_resvBase (c : Call) (p : CallPhase) (s : State) : (setPhase c p s).resvBase = s.resvBase := rfl
@[simp] theorem setPhase_resvLimit (c : Call) (p : CallPhase) (s : State) : (setPhase c p s).resvLimit = s.resvLimit := rfl
@[simp] theorem setPhase_resvCursor (c : Call) (p : CallPhase) (s : State) : (setPhase c p s).resvCursor = s.resvCursor := rfl
@[simp] theorem setPhase_request (c : Call) (p : CallPhase) (s : State) : (setPhase c p s).request = s.request := rfl
@[simp] theorem setPhase_response (c : Call) (p : CallPhase) (s : State) : (setPhase c p s).response = s.response := rfl
@[simp] theorem setPhase_outW0 (c : Call) (p : CallPhase) (s : State) : (setPhase c p s).outW0 = s.outW0 := rfl
@[simp] theorem setPhase_outq (c : Call) (p : CallPhase) (s : State) : (setPhase c p s).outq = s.outq := rfl
@[simp] theorem setPhase_inq (c : Call) (p : CallPhase) (s : State) : (setPhase c p s).inq = s.inq := rfl
@[simp] theorem setPhase_cpuCtrl (c : Call) (p : CallPhase) (s : State) : (setPhase c p s).cpuCtrl = s.cpuCtrl := rfl
@[simp] theorem setPhase_mem (c : Call) (p : CallPhase) (s : State) : (setPhase c p s).mem = s.mem := rfl
@[simp] theorem setPhase_seq (c : Call) (p : CallPhase) (s : State) : (setPhase c p s).seq = s.seq := rfl
@[simp] theorem setPhase_call (c : Call) (p : CallPhase) (s : State) : (setPhase c p s).call = some { c with phase := p } := rfl
@[simp] theorem setPhase_callResult (c : Call) (p : CallPhase) (s : State) : (setPhase c p s).callResult = s.callResult := rfl
@[simp] theorem setPhase_exchange (c : Call) (p : CallPhase) (s : State) : (setPhase c p s).exchange = s.exchange := rfl
@[simp] theorem setPhase_windowData (c : Call) (p : CallPhase) (s : State) : (setPhase c p s).windowData = s.windowData := rfl
@[simp] theorem setPhase_freeCtr (c : Call) (p : CallPhase) (s : State) : (setPhase c p s).freeCtr = s.freeCtr := rfl
@[simp] theorem setPhase_agenda (c : Call) (p : CallPhase) (s : State) : (setPhase c p s).agenda = s.agenda := rfl

/-! ### endCall -/

@[simp] theorem endCall_config (c : Status) (b : List Byte) (s : State) : (endCall c b s).config = s.config := rfl
@[simp] theorem endCall_fsm (c : Status) (b : List Byte) (s : State) : (endCall c b s).fsm = s.fsm := rfl
@[simp] theorem endCall_curCmd (c : Status) (b : List Byte) (s : State) : (endCall c b s).curCmd = s.curCmd := rfl
@[simp] theorem endCall_curCh (c : Status) (b : List Byte) (s : State) : (endCall c b s).curCh = s.curCh := rfl
@[simp] theorem endCall_txW0 (c : Status) (b : List Byte) (s : State) : (endCall c b s).txW0 = s.txW0 := rfl
@[simp] theorem endCall_txW1 (c : Status) (b : List Byte) (s : State) : (endCall c b s).txW1 = s.txW1 := rfl
@[simp] theorem endCall_epmapLast (c : Status) (b : List Byte) (s : State) : (endCall c b s).epmapLast = s.epmapLast := rfl
@[simp] theorem endCall_epIdx (c : Status) (b : List Byte) (s : State) : (endCall c b s).epIdx = s.epIdx := rfl
@[simp] theorem endCall_pollCtr (c : Status) (b : List Byte) (s : State) : (endCall c b s).pollCtr = s.pollCtr := rfl
@[simp] theorem endCall_helloVer (c : Status) (b : List Byte) (s : State) : (endCall c b s).helloVer = s.helloVer := rfl
@[simp] theorem endCall_epList (c : Status) (b : List Byte) (s : State) : (endCall c b s).epList = s.epList := rfl
@[simp] theorem endCall_epmapCount (c : Status) (b : List Byte) (s : State) : (endCall c b s).epmapCount = s.epmapCount := rfl
@[simp] theorem endCall_faultCode (c : Status) (b : List Byte) (s : State) : (endCall c b s).faultCode = s.faultCode := rfl
@[simp] theorem endCall_faultState (c : Status) (b : List Byte) (s : State) : (endCall c b s).faultState = s.faultState := rfl
@[simp] theorem endCall_faultW0 (c : Status) (b : List Byte) (s : State) : (endCall c b s).faultW0 = s.faultW0 := rfl
@[simp] theorem endCall_faultW1 (c : Status) (b : List Byte) (s : State) : (endCall c b s).faultW1 = s.faultW1 := rfl
@[simp] theorem endCall_resvValid (c : Status) (b : List Byte) (s : State) : (endCall c b s).resvValid = s.resvValid := rfl
@[simp] theorem endCall_resvBase (c : Status) (b : List Byte) (s : State) : (endCall c b s).resvBase = s.resvBase := rfl
@[simp] theorem endCall_resvLimit (c : Status) (b : List Byte) (s : State) : (endCall c b s).resvLimit = s.resvLimit := rfl
@[simp] theorem endCall_resvCursor (c : Status) (b : List Byte) (s : State) : (endCall c b s).resvCursor = s.resvCursor := rfl
@[simp] theorem endCall_request (c : Status) (b : List Byte) (s : State) : (endCall c b s).request = s.request := rfl
@[simp] theorem endCall_response (c : Status) (b : List Byte) (s : State) : (endCall c b s).response = s.response := rfl
@[simp] theorem endCall_outW0 (c : Status) (b : List Byte) (s : State) : (endCall c b s).outW0 = s.outW0 := rfl
@[simp] theorem endCall_outq (c : Status) (b : List Byte) (s : State) : (endCall c b s).outq = s.outq := rfl
@[simp] theorem endCall_inq (c : Status) (b : List Byte) (s : State) : (endCall c b s).inq = s.inq := rfl
@[simp] theorem endCall_cpuCtrl (c : Status) (b : List Byte) (s : State) : (endCall c b s).cpuCtrl = s.cpuCtrl := rfl
@[simp] theorem endCall_mem (c : Status) (b : List Byte) (s : State) : (endCall c b s).mem = s.mem := rfl
@[simp] theorem endCall_seq (c : Status) (b : List Byte) (s : State) : (endCall c b s).seq = s.seq := rfl
@[simp] theorem endCall_call (c : Status) (b : List Byte) (s : State) : (endCall c b s).call = none := rfl
@[simp] theorem endCall_callResult (c : Status) (b : List Byte) (s : State) : (endCall c b s).callResult = some ⟨c, b⟩ := rfl
@[simp] theorem endCall_exchange (c : Status) (b : List Byte) (s : State) : (endCall c b s).exchange = s.exchange := rfl
@[simp] theorem endCall_windowData (c : Status) (b : List Byte) (s : State) : (endCall c b s).windowData = s.windowData := rfl
@[simp] theorem endCall_freeCtr (c : Status) (b : List Byte) (s : State) : (endCall c b s).freeCtr = s.freeCtr := rfl
@[simp] theorem endCall_agenda (c : Status) (b : List Byte) (s : State) : (endCall c b s).agenda = s.agenda := rfl

/-! ### openCall -/

@[simp] theorem openCall_config (r : CallRequest) (p : CallPhase) (s : State) : (openCall r p s).config = s.config := rfl
@[simp] theorem openCall_fsm (r : CallRequest) (p : CallPhase) (s : State) : (openCall r p s).fsm = s.fsm := rfl
@[simp] theorem openCall_curCmd (r : CallRequest) (p : CallPhase) (s : State) : (openCall r p s).curCmd = s.curCmd := rfl
@[simp] theorem openCall_curCh (r : CallRequest) (p : CallPhase) (s : State) : (openCall r p s).curCh = s.curCh := rfl
@[simp] theorem openCall_txW0 (r : CallRequest) (p : CallPhase) (s : State) : (openCall r p s).txW0 = s.txW0 := rfl
@[simp] theorem openCall_txW1 (r : CallRequest) (p : CallPhase) (s : State) : (openCall r p s).txW1 = s.txW1 := rfl
@[simp] theorem openCall_epmapLast (r : CallRequest) (p : CallPhase) (s : State) : (openCall r p s).epmapLast = s.epmapLast := rfl
@[simp] theorem openCall_epIdx (r : CallRequest) (p : CallPhase) (s : State) : (openCall r p s).epIdx = s.epIdx := rfl
@[simp] theorem openCall_pollCtr (r : CallRequest) (p : CallPhase) (s : State) : (openCall r p s).pollCtr = s.pollCtr := rfl
@[simp] theorem openCall_helloVer (r : CallRequest) (p : CallPhase) (s : State) : (openCall r p s).helloVer = s.helloVer := rfl
@[simp] theorem openCall_epList (r : CallRequest) (p : CallPhase) (s : State) : (openCall r p s).epList = s.epList := rfl
@[simp] theorem openCall_epmapCount (r : CallRequest) (p : CallPhase) (s : State) : (openCall r p s).epmapCount = s.epmapCount := rfl
@[simp] theorem openCall_faultCode (r : CallRequest) (p : CallPhase) (s : State) : (openCall r p s).faultCode = s.faultCode := rfl
@[simp] theorem openCall_faultState (r : CallRequest) (p : CallPhase) (s : State) : (openCall r p s).faultState = s.faultState := rfl
@[simp] theorem openCall_faultW0 (r : CallRequest) (p : CallPhase) (s : State) : (openCall r p s).faultW0 = s.faultW0 := rfl
@[simp] theorem openCall_faultW1 (r : CallRequest) (p : CallPhase) (s : State) : (openCall r p s).faultW1 = s.faultW1 := rfl
@[simp] theorem openCall_resvValid (r : CallRequest) (p : CallPhase) (s : State) : (openCall r p s).resvValid = s.resvValid := rfl
@[simp] theorem openCall_resvBase (r : CallRequest) (p : CallPhase) (s : State) : (openCall r p s).resvBase = s.resvBase := rfl
@[simp] theorem openCall_resvLimit (r : CallRequest) (p : CallPhase) (s : State) : (openCall r p s).resvLimit = s.resvLimit := rfl
@[simp] theorem openCall_resvCursor (r : CallRequest) (p : CallPhase) (s : State) : (openCall r p s).resvCursor = s.resvCursor := rfl
@[simp] theorem openCall_request (r : CallRequest) (p : CallPhase) (s : State) : (openCall r p s).request = s.request := rfl
@[simp] theorem openCall_response (r : CallRequest) (p : CallPhase) (s : State) : (openCall r p s).response = s.response := rfl
@[simp] theorem openCall_outW0 (r : CallRequest) (p : CallPhase) (s : State) : (openCall r p s).outW0 = s.outW0 := rfl
@[simp] theorem openCall_outq (r : CallRequest) (p : CallPhase) (s : State) : (openCall r p s).outq = s.outq := rfl
@[simp] theorem openCall_inq (r : CallRequest) (p : CallPhase) (s : State) : (openCall r p s).inq = s.inq := rfl
@[simp] theorem openCall_cpuCtrl (r : CallRequest) (p : CallPhase) (s : State) : (openCall r p s).cpuCtrl = s.cpuCtrl := rfl
@[simp] theorem openCall_mem (r : CallRequest) (p : CallPhase) (s : State) : (openCall r p s).mem = s.mem := rfl
@[simp] theorem openCall_seq (r : CallRequest) (p : CallPhase) (s : State) : (openCall r p s).seq = s.seq + 1 := rfl
@[simp] theorem openCall_call (r : CallRequest) (p : CallPhase) (s : State) : (openCall r p s).call = some ⟨r, s.seq, p⟩ := rfl
@[simp] theorem openCall_callResult (r : CallRequest) (p : CallPhase) (s : State) : (openCall r p s).callResult = s.callResult := rfl
@[simp] theorem openCall_exchange (r : CallRequest) (p : CallPhase) (s : State) : (openCall r p s).exchange = s.exchange := rfl
@[simp] theorem openCall_windowData (r : CallRequest) (p : CallPhase) (s : State) : (openCall r p s).windowData = s.windowData := rfl
@[simp] theorem openCall_freeCtr (r : CallRequest) (p : CallPhase) (s : State) : (openCall r p s).freeCtr = s.freeCtr := rfl
@[simp] theorem openCall_agenda (r : CallRequest) (p : CallPhase) (s : State) : (openCall r p s).agenda = s.agenda := rfl

/-! ### setInq -/

@[simp] theorem setInq_config (q : List Message) (s : State) : (setInq q s).config = s.config := rfl
@[simp] theorem setInq_fsm (q : List Message) (s : State) : (setInq q s).fsm = s.fsm := rfl
@[simp] theorem setInq_curCmd (q : List Message) (s : State) : (setInq q s).curCmd = s.curCmd := rfl
@[simp] theorem setInq_curCh (q : List Message) (s : State) : (setInq q s).curCh = s.curCh := rfl
@[simp] theorem setInq_txW0 (q : List Message) (s : State) : (setInq q s).txW0 = s.txW0 := rfl
@[simp] theorem setInq_txW1 (q : List Message) (s : State) : (setInq q s).txW1 = s.txW1 := rfl
@[simp] theorem setInq_epmapLast (q : List Message) (s : State) : (setInq q s).epmapLast = s.epmapLast := rfl
@[simp] theorem setInq_epIdx (q : List Message) (s : State) : (setInq q s).epIdx = s.epIdx := rfl
@[simp] theorem setInq_pollCtr (q : List Message) (s : State) : (setInq q s).pollCtr = s.pollCtr := rfl
@[simp] theorem setInq_helloVer (q : List Message) (s : State) : (setInq q s).helloVer = s.helloVer := rfl
@[simp] theorem setInq_epList (q : List Message) (s : State) : (setInq q s).epList = s.epList := rfl
@[simp] theorem setInq_epmapCount (q : List Message) (s : State) : (setInq q s).epmapCount = s.epmapCount := rfl
@[simp] theorem setInq_faultCode (q : List Message) (s : State) : (setInq q s).faultCode = s.faultCode := rfl
@[simp] theorem setInq_faultState (q : List Message) (s : State) : (setInq q s).faultState = s.faultState := rfl
@[simp] theorem setInq_faultW0 (q : List Message) (s : State) : (setInq q s).faultW0 = s.faultW0 := rfl
@[simp] theorem setInq_faultW1 (q : List Message) (s : State) : (setInq q s).faultW1 = s.faultW1 := rfl
@[simp] theorem setInq_resvValid (q : List Message) (s : State) : (setInq q s).resvValid = s.resvValid := rfl
@[simp] theorem setInq_resvBase (q : List Message) (s : State) : (setInq q s).resvBase = s.resvBase := rfl
@[simp] theorem setInq_resvLimit (q : List Message) (s : State) : (setInq q s).resvLimit = s.resvLimit := rfl
@[simp] theorem setInq_resvCursor (q : List Message) (s : State) : (setInq q s).resvCursor = s.resvCursor := rfl
@[simp] theorem setInq_request (q : List Message) (s : State) : (setInq q s).request = s.request := rfl
@[simp] theorem setInq_response (q : List Message) (s : State) : (setInq q s).response = s.response := rfl
@[simp] theorem setInq_outW0 (q : List Message) (s : State) : (setInq q s).outW0 = s.outW0 := rfl
@[simp] theorem setInq_outq (q : List Message) (s : State) : (setInq q s).outq = s.outq := rfl
@[simp] theorem setInq_inq (q : List Message) (s : State) : (setInq q s).inq = q := rfl
@[simp] theorem setInq_cpuCtrl (q : List Message) (s : State) : (setInq q s).cpuCtrl = s.cpuCtrl := rfl
@[simp] theorem setInq_mem (q : List Message) (s : State) : (setInq q s).mem = s.mem := rfl
@[simp] theorem setInq_seq (q : List Message) (s : State) : (setInq q s).seq = s.seq := rfl
@[simp] theorem setInq_call (q : List Message) (s : State) : (setInq q s).call = s.call := rfl
@[simp] theorem setInq_callResult (q : List Message) (s : State) : (setInq q s).callResult = s.callResult := rfl
@[simp] theorem setInq_exchange (q : List Message) (s : State) : (setInq q s).exchange = s.exchange := rfl
@[simp] theorem setInq_windowData (q : List Message) (s : State) : (setInq q s).windowData = s.windowData := rfl
@[simp] theorem setInq_freeCtr (q : List Message) (s : State) : (setInq q s).freeCtr = s.freeCtr := rfl
@[simp] theorem setInq_agenda (q : List Message) (s : State) : (setInq q s).agenda = s.agenda := rfl

/-! ### startCommand -/

@[simp] theorem startCommand_config (c : CurCmd) (s : State) : (startCommand c s).config = s.config := rfl
@[simp] theorem startCommand_fsm (c : CurCmd) (s : State) : (startCommand c s).fsm = s.fsm := rfl
@[simp] theorem startCommand_curCmd (c : CurCmd) (s : State) : (startCommand c s).curCmd = c := rfl
@[simp] theorem startCommand_curCh (c : CurCmd) (s : State) : (startCommand c s).curCh = s.curCh := rfl
@[simp] theorem startCommand_txW0 (c : CurCmd) (s : State) : (startCommand c s).txW0 = s.txW0 := rfl
@[simp] theorem startCommand_txW1 (c : CurCmd) (s : State) : (startCommand c s).txW1 = s.txW1 := rfl
@[simp] theorem startCommand_epmapLast (c : CurCmd) (s : State) : (startCommand c s).epmapLast = s.epmapLast := rfl
@[simp] theorem startCommand_epIdx (c : CurCmd) (s : State) : (startCommand c s).epIdx = s.epIdx := rfl
@[simp] theorem startCommand_pollCtr (c : CurCmd) (s : State) : (startCommand c s).pollCtr = s.config.pollBudget := rfl
@[simp] theorem startCommand_helloVer (c : CurCmd) (s : State) : (startCommand c s).helloVer = s.helloVer := rfl
@[simp] theorem startCommand_epList (c : CurCmd) (s : State) : (startCommand c s).epList = s.epList := rfl
@[simp] theorem startCommand_epmapCount (c : CurCmd) (s : State) : (startCommand c s).epmapCount = s.epmapCount := rfl
@[simp] theorem startCommand_faultCode (c : CurCmd) (s : State) : (startCommand c s).faultCode = s.faultCode := rfl
@[simp] theorem startCommand_faultState (c : CurCmd) (s : State) : (startCommand c s).faultState = s.faultState := rfl
@[simp] theorem startCommand_faultW0 (c : CurCmd) (s : State) : (startCommand c s).faultW0 = s.faultW0 := rfl
@[simp] theorem startCommand_faultW1 (c : CurCmd) (s : State) : (startCommand c s).faultW1 = s.faultW1 := rfl
@[simp] theorem startCommand_resvValid (c : CurCmd) (s : State) : (startCommand c s).resvValid = s.resvValid := rfl
@[simp] theorem startCommand_resvBase (c : CurCmd) (s : State) : (startCommand c s).resvBase = s.resvBase := rfl
@[simp] theorem startCommand_resvLimit (c : CurCmd) (s : State) : (startCommand c s).resvLimit = s.resvLimit := rfl
@[simp] theorem startCommand_resvCursor (c : CurCmd) (s : State) : (startCommand c s).resvCursor = s.resvCursor := rfl
@[simp] theorem startCommand_request (c : CurCmd) (s : State) : (startCommand c s).request = s.request := rfl
@[simp] theorem startCommand_response (c : CurCmd) (s : State) : (startCommand c s).response = s.response := rfl
@[simp] theorem startCommand_outW0 (c : CurCmd) (s : State) : (startCommand c s).outW0 = s.outW0 := rfl
@[simp] theorem startCommand_outq (c : CurCmd) (s : State) : (startCommand c s).outq = s.outq := rfl
@[simp] theorem startCommand_inq (c : CurCmd) (s : State) : (startCommand c s).inq = s.inq := rfl
@[simp] theorem startCommand_cpuCtrl (c : CurCmd) (s : State) : (startCommand c s).cpuCtrl = s.cpuCtrl := rfl
@[simp] theorem startCommand_mem (c : CurCmd) (s : State) : (startCommand c s).mem = s.mem := rfl
@[simp] theorem startCommand_seq (c : CurCmd) (s : State) : (startCommand c s).seq = s.seq := rfl
@[simp] theorem startCommand_call (c : CurCmd) (s : State) : (startCommand c s).call = s.call := rfl
@[simp] theorem startCommand_callResult (c : CurCmd) (s : State) : (startCommand c s).callResult = s.callResult := rfl
@[simp] theorem startCommand_exchange (c : CurCmd) (s : State) : (startCommand c s).exchange = s.exchange := rfl
@[simp] theorem startCommand_windowData (c : CurCmd) (s : State) : (startCommand c s).windowData = s.windowData := rfl
@[simp] theorem startCommand_freeCtr (c : CurCmd) (s : State) : (startCommand c s).freeCtr = s.freeCtr := rfl
@[simp] theorem startCommand_agenda (c : CurCmd) (s : State) : (startCommand c s).agenda = s.agenda := rfl

/-! ### resetBlock: what R43 and R291 leave alone -/

@[simp] theorem resetBlock_config (s : State) : (resetBlock s).config = s.config := rfl
@[simp] theorem resetBlock_fsm (s : State) : (resetBlock s).fsm = State.reset.fsm := rfl
@[simp] theorem resetBlock_curCmd (s : State) : (resetBlock s).curCmd = State.reset.curCmd := rfl
@[simp] theorem resetBlock_curCh (s : State) : (resetBlock s).curCh = State.reset.curCh := rfl
@[simp] theorem resetBlock_txW0 (s : State) : (resetBlock s).txW0 = State.reset.txW0 := rfl
@[simp] theorem resetBlock_txW1 (s : State) : (resetBlock s).txW1 = State.reset.txW1 := rfl
@[simp] theorem resetBlock_epmapLast (s : State) : (resetBlock s).epmapLast = State.reset.epmapLast := rfl
@[simp] theorem resetBlock_epIdx (s : State) : (resetBlock s).epIdx = State.reset.epIdx := rfl
@[simp] theorem resetBlock_pollCtr (s : State) : (resetBlock s).pollCtr = State.reset.pollCtr := rfl
@[simp] theorem resetBlock_helloVer (s : State) : (resetBlock s).helloVer = State.reset.helloVer := rfl
@[simp] theorem resetBlock_epList (s : State) : (resetBlock s).epList = State.reset.epList := rfl
@[simp] theorem resetBlock_epmapCount (s : State) : (resetBlock s).epmapCount = State.reset.epmapCount := rfl
@[simp] theorem resetBlock_faultCode (s : State) : (resetBlock s).faultCode = State.reset.faultCode := rfl
@[simp] theorem resetBlock_faultState (s : State) : (resetBlock s).faultState = State.reset.faultState := rfl
@[simp] theorem resetBlock_faultW0 (s : State) : (resetBlock s).faultW0 = State.reset.faultW0 := rfl
@[simp] theorem resetBlock_faultW1 (s : State) : (resetBlock s).faultW1 = State.reset.faultW1 := rfl
@[simp] theorem resetBlock_resvValid (s : State) : (resetBlock s).resvValid = State.reset.resvValid := rfl
@[simp] theorem resetBlock_resvBase (s : State) : (resetBlock s).resvBase = State.reset.resvBase := rfl
@[simp] theorem resetBlock_resvLimit (s : State) : (resetBlock s).resvLimit = State.reset.resvLimit := rfl
@[simp] theorem resetBlock_resvCursor (s : State) : (resetBlock s).resvCursor = State.reset.resvCursor := rfl
@[simp] theorem resetBlock_request (s : State) : (resetBlock s).request = State.reset.request := rfl
@[simp] theorem resetBlock_response (s : State) : (resetBlock s).response = State.reset.response := rfl
@[simp] theorem resetBlock_outW0 (s : State) : (resetBlock s).outW0 = s.outW0 := rfl
@[simp] theorem resetBlock_outq (s : State) : (resetBlock s).outq = s.outq := rfl
@[simp] theorem resetBlock_inq (s : State) : (resetBlock s).inq = s.inq := rfl
@[simp] theorem resetBlock_cpuCtrl (s : State) : (resetBlock s).cpuCtrl = s.cpuCtrl := rfl
@[simp] theorem resetBlock_mem (s : State) : (resetBlock s).mem = s.mem := rfl
@[simp] theorem resetBlock_seq (s : State) : (resetBlock s).seq = State.reset.seq := rfl
@[simp] theorem resetBlock_call (s : State) : (resetBlock s).call = State.reset.call := rfl
@[simp] theorem resetBlock_callResult (s : State) : (resetBlock s).callResult = State.reset.callResult := rfl
@[simp] theorem resetBlock_exchange (s : State) : (resetBlock s).exchange = State.reset.exchange := rfl
@[simp] theorem resetBlock_windowData (s : State) : (resetBlock s).windowData = State.reset.windowData := rfl
@[simp] theorem resetBlock_freeCtr (s : State) : (resetBlock s).freeCtr = s.freeCtr := rfl
@[simp] theorem resetBlock_agenda (s : State) : (resetBlock s).agenda = s.agenda := rfl

end Sys2Proof.Machine
end

