-- ==== Sys2Proof/Laws/Ops.lean ====
section
/-! SUPPORT. For each shared operation, one lemma that says once what it can do. -/

namespace Sys2Proof.Machine

/-- A push is the two port writes (20_memory.md R63): the pair goes to the tail of OUTQ. -/
theorem push_eq (m : Message) (s : State) : push m s = { s with outW0 := m.w0, outq := s.outq ++ [m] } := rfl

/-- A pop is the two port reads (20_memory.md R64): the head leaves INQ. -/
theorem pop_eq (s : State) :
    pop s = match s.inq with | [] => none | m :: rest => some (m, setInq rest s) := by
  unfold pop readInW0 readInW1
  cases h : s.inq <;> simp

/-- What one poll iteration of a send does (40_transport.md R132). -/
theorem sendIter_cases (t : Message) (s : State) :
    (s.outq.length ≠ s.config.outDepth ∧ sendIter t s = .sent (push t (spendPoll s))) ∨
    (s.outq.length = s.config.outDepth ∧ s.pollCtr - 1 = 0 ∧ sendIter t s = .timeout (spendPoll s)) ∨
    (s.outq.length = s.config.outDepth ∧ s.pollCtr - 1 ≠ 0 ∧ sendIter t s = .again (spendPoll s)) := by
  unfold sendIter
  by_cases h : s.outq.length = s.config.outDepth
  · by_cases h0 : s.pollCtr - 1 = 0
    · exact .inr (.inl ⟨h, h0, by simp [outFull, h, h0]⟩)
    · exact .inr (.inr ⟨h, h0, by simp [outFull, h, h0]⟩)
  · exact .inl ⟨h, by simp [outFull, h]⟩

/-- What one poll iteration of a receive does (40_transport.md R134, R137). -/
theorem recvIter_cases (f : RecvFilter) (s : State) :
    (∃ m rest, s.inq = m :: rest ∧ accepts f m = true ∧
      recvIter f s = .got m (setInq rest (spendPoll s))) ∨
    (∃ m rest, s.inq = m :: rest ∧ accepts f m = false ∧
      recvIter f s = recvWait (setInq rest (spendPoll s))) ∨
    (s.inq = [] ∧ recvIter f s = recvWait (spendPoll s)) := by
  cases h : s.inq with
  | nil => exact .inr (.inr ⟨rfl, by simp [recvIter, pop_eq, h]⟩)
  | cons m rest =>
    cases ha : accepts f m with
    | true => exact .inl ⟨m, rest, rfl, ha, by simp [recvIter, pop_eq, h, ha]⟩
    | false => exact .inr (.inl ⟨m, rest, rfl, ha, by simp [recvIter, pop_eq, h, ha]⟩)

/-- A receive that accepted nothing times out or goes on (40_transport.md R134). -/
theorem recvWait_cases (s : State) :
    (s.pollCtr = 0 ∧ recvWait s = .timeout s) ∨ (s.pollCtr ≠ 0 ∧ recvWait s = .again s) := by
  unfold recvWait
  by_cases h : s.pollCtr = 0
  · exact .inl ⟨h, by simp [h]⟩
  · exact .inr ⟨h, by simp [h]⟩

/-- What a SEND_* state's step does (41_bootstrap.md R152). -/
theorem sendStep_cases (t : Message) (after : State → State) (s : State) :
    (s.outq.length ≠ s.config.outDepth ∧ sendStep t after s = after (push t (spendPoll s))) ∨
    (s.outq.length = s.config.outDepth ∧ s.pollCtr - 1 = 0 ∧
      sendStep t after s = bootFault .timeoutSend none (spendPoll s)) ∨
    (s.outq.length = s.config.outDepth ∧ s.pollCtr - 1 ≠ 0 ∧ sendStep t after s = spendPoll s) := by
  unfold sendStep
  rcases sendIter_cases t s with ⟨h, e⟩ | ⟨h, h0, e⟩ | ⟨h, h0, e⟩
  · simp [h, e]
  · simp [h, h0, e]
  · simp [h, h0, e]

/-- What the allocator does (42_arbiter.md R194, R195). -/
theorem allocate_cases (size : Nat) (s : State) :
    (s.resvLimit.toNat < s.resvCursor.toNat + size ∧ allocate size s = none) ∨
    (s.resvCursor.toNat + size ≤ s.resvLimit.toNat ∧
      allocate size s = some (s.resvBase + s.resvCursor,
        { s with resvCursor := BitVec.ofNat 44 (s.resvCursor.toNat + size) })) := by
  unfold allocate
  by_cases h : s.resvLimit.toNat < s.resvCursor.toNat + size
  · exact .inl ⟨h, by simp [h]⟩
  · exact .inr ⟨by omega, by simp [h]⟩

/-- The cursor after a successful allocation is exact (42_arbiter.md R196). -/
theorem allocate_cursor {size : Nat} {s s' : State} {a : BitVec 44} (h : allocate size s = some (a, s')) :
    s'.resvCursor.toNat = s.resvCursor.toNat + size ∧ s'.resvCursor.toNat ≤ s.resvLimit.toNat := by
  rcases allocate_cases size s with ⟨_, e⟩ | ⟨hl, e⟩
  · simp [e] at h
  · rw [e] at h
    cases h
    have := s.resvLimit.isLt
    simp only [BitVec.toNat_ofNat]
    omega

/-- `firstNonzero` finds the least index with a nonzero entry (41_bootstrap.md R165). -/
theorem firstNonzero_some {l : List Byte} {i j : Nat} {e : Byte} (h : firstNonzero i l = some (j, e)) :
    i ≤ j ∧ l[j - i]? = some e ∧ e ≠ 0 ∧ ∀ k, i ≤ k → k < j → l[k - i]? = some 0 := by
  induction l generalizing i with
  | nil => simp [firstNonzero] at h
  | cons x rest ih =>
    unfold firstNonzero at h
    split at h
    · next hx =>
      cases h
      exact ⟨le_refl _, by simp, hx, fun k h1 h2 => by omega⟩
    · next hx =>
      obtain ⟨h1, h2, h3, h4⟩ := ih h
      refine ⟨by omega, ?_, h3, fun k hk1 hk2 => ?_⟩
      · have : j - i = (j - (i + 1)) + 1 := by omega
        rw [this]; simpa using h2
      · by_cases hk : k = i
        · subst hk; simpa using hx
        · have : k - i = (k - (i + 1)) + 1 := by omega
          rw [this]; simpa using h4 k (by omega) hk2

theorem firstNonzero_none {l : List Byte} {i : Nat} (h : firstNonzero i l = none) : ∀ e ∈ l, e = 0 := by
  induction l generalizing i with
  | nil => simp
  | cons x rest ih =>
    unfold firstNonzero at h
    split at h
    · cases h
    · next hx =>
      intro e he
      rcases List.mem_cons.mp he with rfl | he
      · simpa using hx
      · exact ih h e he

/-- What `start_from(i)` does (41_bootstrap.md R165). -/
theorem startFrom_cases (i : Nat) (s : State) :
    (nextStart s.epList i = none ∧ startFrom i s = enter .waitPwrok { s with epIdx := epCount s }) ∨
    (∃ j e, nextStart s.epList i = some (j, e) ∧ startFrom i s =
      enter .sendEpstart (setTx (epstartMsg s.config e) { s with epIdx := BitVec.ofNat 9 j })) := by
  unfold startFrom
  cases h : nextStart s.epList i with
  | none => exact .inl ⟨rfl, rfl⟩
  | some p => exact .inr ⟨p.1, p.2, rfl, rfl⟩

/-- The flag the block reads in OUT_STATUS is OUT_FULL whatever the word's other bits are (20_memory.md R61, R62). -/
theorem statusWord_flag (other : Word) (n : Nat) (flag : Bool) (h : n < 64) :
    (statusWord other n flag).getLsbD n = flag := by
  unfold statusWord bitAt fieldAt
  cases flag <;> simp [h]

/-! ### HOST's exchange and window accesses (20_memory.md R74) -/

/-- A command just presented stands uncompleted, so HOST's exchange is what issuing it made of it. -/
theorem exchangeNow_presentRequest (r : HostRequest) (s : State) :
    exchangeNow (presentRequest r s) = issueCommand r (exchangeNow s) := by
  simp [exchangeNow, portReady]

/-- Whose turn comes next is no part of HOST's exchange. -/
@[simp] theorem exchangeNow_agenda (s : State) (a : List Event) :
    exchangeNow { s with agenda := a } = exchangeNow s := rfl

theorem decodeCommand_send (w0 w1 : Word) : decodeCommand (cmdWord 0x03 0) w0 w1 = .ok (.send w0 w1) := rfl

theorem decodeCommand_recv (ch : Byte) (a0 a1 : Word) : decodeCommand (cmdWord 0x04 ch) a0 a1 = .ok (.recv ch) := by
  have h : ∀ ch : Byte,
      cmdReserved (cmdWord 0x04 ch) = 0 ∧ cmdOp (cmdWord 0x04 ch) = 0x04 ∧ cmdSel (cmdWord 0x04 ch) = ch := by decide
  obtain ⟨hr, ho, hs⟩ := h ch
  simp only [decodeCommand, hr, ho, hs]
  rfl

/-- The tag of a message whose word 1 holds a channel in bits 7:0 (30_encoding.md R92). -/
theorem msgEp_callMessage (r : CallRequest) (seq : BitVec 4) : msgEp (callMessage r seq) = r.channel := by
  unfold msgEp callMessage fieldAt
  ext i hi
  simp only [BitVec.getElem_extractLsb', BitVec.getLsbD_or, BitVec.getLsbD_shiftLeft, BitVec.getLsbD_setWidth]
  have h1 : i < 64 := by omega
  simp [hi, h1]

/-- Presenting the consumer's SEND (20_memory.md R74). -/
@[simp] theorem issueCommand_sendRequest (m : Message) (e : Exchange) :
    issueCommand (sendRequest m) e = { e with command := some (.send (msgEp m)) } := by
  simp only [issueCommand, sendRequest, decodeCommand_send]

/-- Presenting the consumer's RECV (20_memory.md R74). -/
@[simp] theorem issueCommand_recvRequest (ch : Byte) (e : Exchange) :
    issueCommand (recvRequest ch) e = { e with command := some (.recv ch) } := by
  simp only [issueCommand, recvRequest, decodeCommand_recv]

theorem requestOut_eq_false_iff (e : Exchange) :
    requestOut e = false ↔ e.awaited = [] ∧ ∀ tag, e.command ≠ some (.send tag) := by
  unfold requestOut
  split
  · next tag h => simp [h]
  · next ch h => simp [h]
  · next h => simp [h]

theorem writeOrdered_iff (s : State) : writeOrdered s = true ↔
    (exchangeNow s).awaited = [] ∧ ∀ tag, (exchangeNow s).command ≠ some (.send tag) := by
  rw [← requestOut_eq_false_iff, writeOrdered, Bool.not_eq_true']

theorem readOrdered_iff (s : State) :
    readOrdered s = true ↔ writeOrdered s = true ∧ (exchangeNow s).replied = true := by
  rw [readOrdered, writeOrdered, Bool.and_eq_true]

/-- What a window write does. -/
theorem windowStore_cases {addr v : Nat} {s t : State} (h : windowStore addr v s = some t) :
    (writeOrdered s = true ∧ ∃ m', memWrite addr s.config.windowAccessBytes v s.mem = some m' ∧
      t = { s with mem := m' }) ∨
    (writeOrdered s = false ∧ ∃ m',
      memWrite addr s.config.windowAccessBytes (Config.freeWindowData s.freeCtr) s.mem = some m' ∧
      t = drawFree { s with mem := m' }) := by
  unfold windowStore at h
  split at h
  · next ho =>
    split at h
    · cases h
    · next m' hm => exact .inl ⟨ho, m', hm, (Option.some.inj h).symm⟩
  · next ho =>
    split at h
    · cases h
    · next m' hm => exact .inr ⟨by simpa using ho, m', hm, (Option.some.inj h).symm⟩

/-- A window write is refused exactly when it is misaligned. -/
theorem windowStore_eq_none_iff (addr v : Nat) (s : State) :
    windowStore addr v s = none ↔ windowAligned addr s.config.windowAccessBytes = false := by
  unfold windowStore memWrite
  cases windowAligned addr s.config.windowAccessBytes <;> cases writeOrdered s <;> simp

/-- What a window read does. -/
theorem windowLoad_cases {addr d : Nat} {s t : State} (h : windowLoad addr s = some (d, t)) :
    (readOrdered s = true ∧ memRead addr s.config.windowAccessBytes s.mem = some d ∧ t = s) ∨
    (readOrdered s = false ∧ d = Config.freeWindowData s.freeCtr ∧ t = drawFree s) := by
  unfold windowLoad at h
  split at h
  · cases h
  · next v hv =>
    split at h
    · next ho => cases h; exact .inl ⟨ho, hv, rfl⟩
    · next ho => cases h; exact .inr ⟨by simpa using ho, rfl, rfl⟩

/-- A window read is refused exactly when it is misaligned. -/
theorem windowLoad_eq_none_iff (addr : Nat) (s : State) :
    windowLoad addr s = none ↔ windowAligned addr s.config.windowAccessBytes = false := by
  unfold windowLoad memRead
  cases windowAligned addr s.config.windowAccessBytes <;> cases readOrdered s <;> simp

end Sys2Proof.Machine
end

