-- ==== Sys2Proof/Laws/PerInstr.lean ====
section
/-! SUPPORT. Statements made per instruction. -/

namespace Sys2Proof.Laws

/-- An instruction is written in the words its source carries: CMD, ARG0, ARG1 at the host port (30_encoding.md R109), the
two words of a message elsewhere (30_encoding.md R90). -/
def EncodeWords.Statement (i : Instr) : Prop :=
  ∀ c : Config, (encode c i).length = if i.source = .hostPort then 3 else 2

theorem EncodeWords.resvInit (base limit : Word) : EncodeWords.Statement (.resvInit base limit) := fun _ => rfl
theorem EncodeWords.boot : EncodeWords.Statement (.boot) := fun _ => rfl
theorem EncodeWords.send (w0 w1 : Word) : EncodeWords.Statement (.send w0 w1) := fun _ => rfl
theorem EncodeWords.recv (ch : Byte) : EncodeWords.Statement (.recv ch) := fun _ => rfl
theorem EncodeWords.rdreg (sel : Byte) : EncodeWords.Statement (.rdreg sel) := fun _ => rfl
theorem EncodeWords.rdep (idx : Byte) : EncodeWords.Statement (.rdep idx) := fun _ => rfl
theorem EncodeWords.hello (ver : BitVec 32) (ign0 : BitVec 24) (ign1 : BitVec 56) : EncodeWords.Statement (.hello ver ign0 ign1) := fun _ => rfl
theorem EncodeWords.epmap (bitmap : BitVec 32) (block : BitVec 3) (last : Bool) (ign0 : BitVec 21) (ign1 : BitVec 56) : EncodeWords.Statement (.epmap bitmap block last ign0 ign1) := fun _ => rfl
theorem EncodeWords.pwrok (low32 : BitVec 32) (ign0 : BitVec 24) (ign1 : BitVec 56) : EncodeWords.Statement (.pwrok low32 ign0 ign1) := fun _ => rfl
theorem EncodeWords.bufreqMgmt (type : Byte) (ign52 : BitVec 4) (count : Byte) (ign0 : BitVec 44) (ign1 : BitVec 56) : EncodeWords.Statement (.bufreqMgmt type ign52 count ign0 ign1) := fun _ => rfl
theorem EncodeWords.bufreqStor (type : Byte) (ign52 : BitVec 4) (count : Byte) (ign0 : BitVec 44) (ign1 : BitVec 56) : EncodeWords.Statement (.bufreqStor type ign52 count ign0 ign1) := fun _ => rfl
theorem EncodeWords.idleReq : EncodeWords.Statement (.idleReq) := fun _ => rfl
theorem EncodeWords.helloAck (ver : BitVec 32) : EncodeWords.Statement (.helloAck ver) := fun _ => rfl
theorem EncodeWords.epack (last : Bool) (block : BitVec 3) : EncodeWords.Statement (.epack last block) := fun _ => rfl
theorem EncodeWords.epstart (epid : Byte) : EncodeWords.Statement (.epstart epid) := fun _ => rfl
theorem EncodeWords.bufgrant (upper : BitVec 20) (addr : BitVec 44) (w1 : Word) : EncodeWords.Statement (.bufgrant upper addr w1) := fun _ => rfl
theorem EncodeWords.pwrack (low32 : BitVec 32) : EncodeWords.Statement (.pwrack low32) := fun _ => rfl

end Sys2Proof.Laws
end

