-- ==== Sys2Proof/Laws/Words.lean ====
section
/-! SUPPORT. The fields of a message as numbers and as bits: what each message constructor's words hold, and what the
operand extractions read. -/

namespace Sys2Proof.Machine

/-! ### A field at a position -/

/-- A bit of a placed field. -/
theorem fieldAt_getLsbD {k : Nat} (n : Nat) (v : BitVec k) (i : Nat) :
    (fieldAt n v).getLsbD i = (decide (i < 64) && decide (n ≤ i) && v.getLsbD (i - n)) := by
  unfold fieldAt
  by_cases h : i < 64 <;> by_cases h2 : i < n <;>
    (simp [h, h2, BitVec.getLsbD_shiftLeft, BitVec.getLsbD_setWidth]; try omega)

/-- The value of a placed field that fits. -/
theorem fieldAt_toNat {k : Nat} (n : Nat) (v : BitVec k) (h : n + k ≤ 64) : (fieldAt n v).toNat = v.toNat * 2 ^ n := by
  unfold fieldAt
  have hv := v.isLt
  have h1 : 2 ^ k ≤ 2 ^ 64 := Nat.pow_le_pow_right (by omega) (by omega)
  have h2 : v.toNat * 2 ^ n < 2 ^ 64 := by
    calc v.toNat * 2 ^ n < 2 ^ k * 2 ^ n := Nat.mul_lt_mul_of_pos_right hv (by positivity)
      _ = 2 ^ (n + k) := by rw [Nat.pow_add, Nat.mul_comm]
      _ ≤ 2 ^ 64 := Nat.pow_le_pow_right (by omega) h
  rw [BitVec.toNat_shiftLeft, BitVec.toNat_setWidth, Nat.mod_eq_of_lt (Nat.lt_of_lt_of_le hv h1), Nat.shiftLeft_eq,
    Nat.mod_eq_of_lt h2]

/-- A field above joined with a word below it is their sum. -/
theorem or_toNat_add (a n : Nat) (b x : Word) (hx : x.toNat = a * 2 ^ n) (hb : b.toNat < 2 ^ n) :
    (x ||| b).toNat = a * 2 ^ n + b.toNat := by
  rw [BitVec.toNat_or, hx, ← Nat.shiftLeft_eq, Nat.shiftLeft_add_eq_or_of_lt hb]

/-! ### Control messages -/

/-- `ctl(t, p)`: its word 0 as a number (30_encoding.md R94). -/
theorem ctl_w0_toNat (t : Byte) (p : BitVec 56) : (ctl t p).w0.toNat = t.toNat * 2 ^ 56 + p.toNat := by
  have hp := p.isLt
  have hp' : (p.setWidth 64).toNat = p.toNat := by rw [BitVec.toNat_setWidth]; omega
  show (fieldAt 56 t ||| p.setWidth 64).toNat = _
  rw [or_toNat_add t.toNat 56 _ _ (fieldAt_toNat 56 t (by omega)) (by omega), hp']

@[simp] theorem ctl_w1 (t : Byte) (p : BitVec 56) : (ctl t p).w1 = 0 := rfl

@[simp] theorem idleReqMsg_w1 (c : Config) : (idleReqMsg c).w1 = 0 := rfl
@[simp] theorem helloAckMsg_w1 (c : Config) (v : BitVec 32) : (helloAckMsg c v).w1 = 0 := rfl
@[simp] theorem epackMsg_w1 (c : Config) (l : Bool) (b : BitVec 3) : (epackMsg c l b).w1 = 0 := rfl
@[simp] theorem epstartMsg_w1 (c : Config) (e : Byte) : (epstartMsg c e).w1 = 0 := rfl
@[simp] theorem pwrackMsg_w1 (v : BitVec 32) : (pwrackMsg v).w1 = 0 := rfl

/-- IDLE_REQ's word 0 (30_encoding.md R100). -/
theorem idleReqMsg_w0_toNat (c : Config) :
    (idleReqMsg c).w0.toNat = c.typeIdleReq.toNat * 2 ^ 56 + c.idleReqPayload.toNat := ctl_w0_toNat _ _

/-- HELLO_ACK's word 0 (30_encoding.md R101). -/
theorem helloAckMsg_w0_toNat (c : Config) (v : BitVec 32) :
    (helloAckMsg c v).w0.toNat = c.typeHelloAck.toNat * 2 ^ 56 + v.toNat := by
  have := v.isLt
  rw [helloAckMsg, ctl_w0_toNat, BitVec.toNat_setWidth, Nat.mod_eq_of_lt (by omega)]

/-- PWRACK's word 0 (30_encoding.md R105). -/
theorem pwrackMsg_w0_toNat (v : BitVec 32) : (pwrackMsg v).w0.toNat = typePwrack.toNat * 2 ^ 56 + v.toNat := by
  have := v.isLt
  rw [pwrackMsg, ctl_w0_toNat, BitVec.toNat_setWidth, Nat.mod_eq_of_lt (by omega)]

/-- EPSTART's word 0 (30_encoding.md R103). -/
theorem epstartMsg_w0_toNat (c : Config) (e : Byte) :
    (epstartMsg c e).w0.toNat = c.typeEpstart.toNat * 2 ^ 56 + e.toNat * 2 ^ 32 := by
  have := e.isLt
  rw [epstartMsg, ctl_w0_toNat, BitVec.toNat_shiftLeft, BitVec.toNat_setWidth, Nat.shiftLeft_eq,
    Nat.mod_eq_of_lt (b := 2 ^ 56) (by omega), Nat.mod_eq_of_lt (by omega)]

/-- EPACK's word 0, for a LAST position R293 admits (30_encoding.md R102). -/
theorem epackMsg_w0_toNat (c : Config) (hc : c.wf = true) (l : Bool) (b : BitVec 3) :
    (epackMsg c l b).w0.toNat =
      c.typeEpack.toNat * 2 ^ 56 + (if l then 2 ^ c.epmapLastBit else 0) + b.toNat * 2 ^ 32 := by
  rw [epackMsg, ctl_w0_toNat]
  have := b.isLt
  simp only [Config.wf, Bool.and_eq_true, decide_eq_true_eq] at hc
  have hb : (b.setWidth 56 <<< 32 : BitVec 56).toNat = b.toNat * 2 ^ 32 := by
    rw [BitVec.toNat_shiftLeft, BitVec.toNat_setWidth, Nat.shiftLeft_eq]; omega
  have hl : ((BitVec.ofBool l).setWidth 56 <<< c.epmapLastBit : BitVec 56).toNat = l.toNat * 2 ^ c.epmapLastBit := by
    rw [BitVec.toNat_shiftLeft, BitVec.toNat_setWidth, Nat.shiftLeft_eq]
    have h1 : 2 ^ c.epmapLastBit ≤ 2 ^ 55 := Nat.pow_le_pow_right (by omega) (by omega)
    cases l
    · simp
    · simp only [BitVec.toNat_ofBool, Bool.toNat_true]; omega
  have h1 : 2 ^ 35 ≤ 2 ^ c.epmapLastBit := Nat.pow_le_pow_right (by omega) (by omega)
  have hif : l.toNat * 2 ^ c.epmapLastBit = if l = true then 2 ^ c.epmapLastBit else 0 := by cases l <;> simp
  rw [BitVec.toNat_or, hl, hb, ← Nat.shiftLeft_eq (l.toNat), ← Nat.shiftLeft_add_eq_or_of_lt (by omega),
    Nat.shiftLeft_eq, hif, Nat.add_assoc]

/-! ### Requests and grants -/

/-- A BUFREQ's word 0 (30_encoding.md R99). -/
theorem bufreqMsg_w0_toNat (ep t : Byte) (i52 : BitVec 4) (n : Byte) (i0 : BitVec 44) (i1 : BitVec 56) :
    (bufreqMsg ep t i52 n i0 i1).w0.toNat =
      t.toNat * 2 ^ 56 + i52.toNat * 2 ^ 52 + n.toNat * 2 ^ 44 + i0.toNat := by
  have h2 := i52.isLt
  have h3 := n.isLt
  have h4 := i0.isLt
  have e0 := fieldAt_toNat 0 i0 (by omega)
  have a1 := or_toNat_add n.toNat 44 (fieldAt 0 i0) _ (fieldAt_toNat 44 n (by omega)) (by omega)
  have a2 := or_toNat_add i52.toNat 52 (fieldAt 44 n ||| fieldAt 0 i0) _ (fieldAt_toNat 52 i52 (by omega)) (by omega)
  have a3 := or_toNat_add t.toNat 56 (fieldAt 52 i52 ||| (fieldAt 44 n ||| fieldAt 0 i0)) _
    (fieldAt_toNat 56 t (by omega)) (by omega)
  show (fieldAt 56 t ||| fieldAt 52 i52 ||| fieldAt 44 n ||| fieldAt 0 i0).toNat = _
  rw [BitVec.or_assoc, BitVec.or_assoc, a3, a2, a1, e0, Nat.pow_zero, Nat.mul_one, Nat.add_assoc, Nat.add_assoc]

/-- A BUFREQ's word 1 (30_encoding.md R99). -/
theorem bufreqMsg_w1_toNat (ep t : Byte) (i52 : BitVec 4) (n : Byte) (i0 : BitVec 44) (i1 : BitVec 56) :
    (bufreqMsg ep t i52 n i0 i1).w1.toNat = i1.toNat * 2 ^ 8 + ep.toNat := by
  have h6 := ep.isLt
  have e6 := fieldAt_toNat 0 ep (by omega)
  show (fieldAt 8 i1 ||| fieldAt 0 ep).toNat = _
  rw [or_toNat_add _ 8 _ _ (fieldAt_toNat 8 i1 (by omega)) (by omega), e6, Nat.pow_zero, Nat.mul_one]

theorem mask44_getLsbD (i : Nat) : mask44.getLsbD i = decide (i < 44) := by
  have : mask44 = BitVec.ofNat 64 (2 ^ 44 - 1) := rfl
  rw [this, BitVec.getLsbD_ofNat, Nat.testBit_two_pow_sub_one]
  by_cases h : i < 44 <;> simp [h]; omega

/-- A grant of a request is the request with the address in bits 43:0 (30_encoding.md R94, R104). -/
theorem grant_bufreq (ep t : Byte) (i52 : BitVec 4) (n : Byte) (i0 : BitVec 44) (i1 : BitVec 56) (a : BitVec 44) :
    grant (bufreqMsg ep t i52 n i0 i1) a = bufreqMsg ep t i52 n a i1 := by
  unfold grant bufreqMsg
  congr 1
  apply BitVec.eq_of_getLsbD_eq
  intro i hi
  simp only [BitVec.getLsbD_or, BitVec.getLsbD_and, BitVec.getLsbD_not, fieldAt_getLsbD, mask44_getLsbD,
    BitVec.getLsbD_setWidth, hi]
  by_cases h : i < 44
  · have : ¬ 44 ≤ i := by omega
    have : ¬ 52 ≤ i := by omega
    have : ¬ 56 ≤ i := by omega
    simp [*]
  · have e1 : i0.getLsbD i = false := BitVec.getLsbD_of_ge _ _ (by omega)
    have e2 : a.getLsbD i = false := BitVec.getLsbD_of_ge _ _ (by omega)
    simp [h, e1, e2]

/-- BUFGRANT's word 0 (30_encoding.md R104). -/
theorem bufgrantMsg_w0_toNat (u : BitVec 20) (a : BitVec 44) (w : Word) :
    (bufgrantMsg u a w).w0.toNat = u.toNat * 2 ^ 44 + a.toNat := by
  have h2 := a.isLt
  have e4 := fieldAt_toNat 0 a (by omega)
  show (fieldAt 44 u ||| fieldAt 0 a).toNat = _
  rw [or_toNat_add _ _ _ _ (fieldAt_toNat 44 u (by omega)) (by omega), e4, Nat.pow_zero, Nat.mul_one]

/-! ### Extraction -/

/-- `ep(m)` as a number (30_encoding.md R93). -/
theorem msgEp_toNat (m : Message) : (msgEp m).toNat = m.w1.toNat % 256 := by
  simp [msgEp, BitVec.extractLsb'_toNat]

/-- `type(m)` as a number (30_encoding.md R93). -/
theorem msgType_toNat (m : Message) : (msgType m).toNat = m.w0.toNat / 2 ^ 56 := by
  have := m.w0.isLt
  simp only [msgType, BitVec.extractLsb'_toNat, Nat.shiftRight_eq_div_pow]; omega

/-- `OP` as a number (30_encoding.md R109). -/
theorem cmdOp_toNat (c : Word) : (cmdOp c).toNat = c.toNat % 256 := by
  simp [cmdOp, BitVec.extractLsb'_toNat]

/-- `SEL` as a number (30_encoding.md R109). -/
theorem cmdSel_toNat (c : Word) : (cmdSel c).toNat = c.toNat / 2 ^ 8 % 256 := by
  simp [cmdSel, BitVec.extractLsb'_toNat, Nat.shiftRight_eq_div_pow]

/-- The reserved bits as a number (30_encoding.md R109). -/
theorem cmdReserved_toNat (c : Word) : (cmdReserved c).toNat = c.toNat / 2 ^ 16 := by
  have := c.isLt
  simp only [cmdReserved, BitVec.extractLsb'_toNat, Nat.shiftRight_eq_div_pow]; omega

theorem cmdOp_eq_iff (c : Word) (v : Byte) : cmdOp c = v ↔ c.toNat % 256 = v.toNat := by
  rw [← cmdOp_toNat]; exact BitVec.toNat_inj.symm

theorem cmdSel_eq_iff (c : Word) (v : Byte) : cmdSel c = v ↔ c.toNat / 2 ^ 8 % 256 = v.toNat := by
  rw [← cmdSel_toNat]; exact BitVec.toNat_inj.symm

theorem cmdReserved_eq_iff (c : Word) (v : BitVec 48) : cmdReserved c = v ↔ c.toNat / 2 ^ 16 = v.toNat := by
  rw [← cmdReserved_toNat]; exact BitVec.toNat_inj.symm

theorem msgEp_eq_iff (m : Message) (v : Byte) : msgEp m = v ↔ m.w1.toNat % 256 = v.toNat := by
  rw [← msgEp_toNat]; exact BitVec.toNat_inj.symm

theorem msgType_eq_iff (m : Message) (v : Byte) : msgType m = v ↔ m.w0.toNat / 2 ^ 56 = v.toNat := by
  rw [← msgType_toNat]; exact BitVec.toNat_inj.symm

/-! ### The next endpoint to start -/

/-- The least index from `i` on with a nonzero entry is the next start (41_bootstrap.md R165). -/
theorem firstNonzero_of {l : List Byte} {i j : Nat} {e : Byte} (hij : i ≤ j) (h : l[j - i]? = some e) (he : e ≠ 0)
    (hk : ∀ k, i ≤ k → k < j → l[k - i]? = some 0) : firstNonzero i l = some (j, e) := by
  induction l generalizing i with
  | nil => simp at h
  | cons x rest ih =>
    unfold firstNonzero
    by_cases hx : x ≠ 0
    · rw [if_pos hx]
      by_cases hji : j = i
      · subst hji; simp at h; simp [h]
      · have := hk i (le_refl _) (by omega)
        simp at this; exact absurd this hx
    · rw [if_neg hx]
      have hji : i ≠ j := by
        rintro rfl; simp at h; subst h; exact hx he
      apply ih (by omega)
      · have : j - i = (j - (i + 1)) + 1 := by omega
        rw [this] at h; simpa using h
      · intro k h1 h2
        have := hk k (by omega) h2
        have e' : k - i = (k - (i + 1)) + 1 := by omega
        rw [e'] at this; simpa using this

theorem firstNonzero_none_of {l : List Byte} {i : Nat} (h : ∀ e ∈ l, e = 0) : firstNonzero i l = none := by
  induction l generalizing i with
  | nil => rfl
  | cons x rest ih =>
    have := h x (by simp)
    simp [firstNonzero, this]; exact ih fun e he => h e (by simp [he])

theorem nextStart_of {l : List Byte} {i j : Nat} {e : Byte} (hij : i ≤ j) (h : l[j]? = some e) (he : e ≠ 0)
    (hk : ∀ k, i ≤ k → k < j → l[k]? = some 0) : nextStart l i = some (j, e) := by
  apply firstNonzero_of hij _ he
  · intro k h1 h2
    rw [List.getElem?_drop, show i + (k - i) = k by omega]; exact hk k h1 h2
  · rw [List.getElem?_drop, show i + (j - i) = j by omega]; exact h

theorem nextStart_none_of {l : List Byte} {i : Nat} (h : ∀ k e, i ≤ k → l[k]? = some e → e = 0) :
    nextStart l i = none := by
  apply firstNonzero_none_of
  intro e he
  obtain ⟨k, hk⟩ := List.mem_iff_getElem?.mp he
  rw [List.getElem?_drop] at hk
  exact h _ e (by omega) hk

/-- What `start_from(i)` finds: the next start is a nonzero entry at or after `i` (41_bootstrap.md R165). -/
theorem nextStart_some {l : List Byte} {i j : Nat} {e : Byte} (h : nextStart l i = some (j, e)) :
    i ≤ j ∧ l[j]? = some e ∧ e ≠ 0 := by
  obtain ⟨h1, h2, h3, -⟩ := firstNonzero_some h
  rw [List.getElem?_drop, show i + (j - i) = j by omega] at h2
  exact ⟨h1, h2, h3⟩

end Sys2Proof.Machine
end

