-- ==== Sys2Proof/Laws/Steps.lean ====
section
/-! SUPPORT. What a run, a BLOCK step, and a message received in a WAIT_* state can do: each said once. -/

namespace Sys2Proof.Machine

theorem run_zero (s : State) : run 0 s = .next s := rfl

theorem run_succ {k : Nat} {s t : State} (h : step s = .next t) : run (k + 1) s = run k t := by
  simp only [run, h]

/-- With no event listed the step is a BLOCK step (10_state.md R23). -/
theorem step_of_blockNext {s : State} (h : blockNext s = true) : step s = blockStep s := by
  simp only [blockNext, Bool.and_eq_true, List.isEmpty_iff] at h
  simp only [step, stepTurn, h.1, if_true, turn, h.2]

theorem isWait_eq_false_of_isSend {f : FsmState} (h : isSend f = true) : isWait f = false := by
  cases f <;> first | rfl | cases h

/-- Splitting a grant's word 0 and joining it again (30_encoding.md R104). -/
theorem bufgrantMsg_extract (m : Message) :
    bufgrantMsg (m.w0.extractLsb' 44 20) (m.w0.extractLsb' 0 44) m.w1 = m := by
  have h := bufgrantMsg_w0_toNat (m.w0.extractLsb' 44 20) (m.w0.extractLsb' 0 44) m.w1
  have hw := m.w0.isLt
  have h0 : (bufgrantMsg (m.w0.extractLsb' 44 20) (m.w0.extractLsb' 0 44) m.w1).w0 = m.w0 := by
    apply BitVec.eq_of_toNat_eq
    rw [h, BitVec.extractLsb'_toNat, BitVec.extractLsb'_toNat, Nat.shiftRight_eq_div_pow, Nat.shiftRight_eq_div_pow]
    omega
  exact congrArg (fun w => Message.mk w m.w1) h0

/-- An outbound instruction read from a message sends that message (41_bootstrap.md R152). -/
theorem exec_of_decodeOutbound {k : OutKind} {m : Message} {i : Instr} {s : State}
    (h : decodeOutbound s.config k m = .ok i) (hf : s.fsm = kindState k) :
    exec i s = .next (sendStep m (afterSend s.fsm) s) := by
  have of_ite : ∀ (m' : Message) (i' : Instr),
      (if m = m' then Except.ok i' else Except.error DecodeError.notThatKind) = Except.ok i → m = m' ∧ i' = i := by
    intro m' i' h
    split at h
    · next hm => exact ⟨hm, Except.ok.inj h⟩
    · cases h
  cases k <;> simp only [decodeOutbound] at h
  case bufgrant =>
    obtain rfl := Except.ok.inj h
    simp only [exec, execBufgrant, sendFrom, hf, kindState, if_true, bufgrantMsg_extract]
    rfl
  all_goals
    obtain ⟨hm, rfl⟩ := of_ite _ _ h
    simp only [exec, execIdleReq, execHelloAck, execEpack, execEpstart, execPwrack, sendFrom, hf, kindState, if_true,
      ← hm]
    rfl

/-- A SEND_* state's step sends the latch, whatever it holds (41_bootstrap.md R152). -/
theorem sendStateStep_eq {s : State} (h : isSend s.fsm = true) :
    sendStateStep s = .next (sendStep (txMsg s) (afterSend s.fsm) s) := by
  unfold sendStateStep
  split
  · next i hd =>
    refine exec_of_decodeOutbound hd ?_
    cases hs : s.fsm <;> rw [hs] at h <;> first | rfl | cases h
  · rfl

/-- A message the WAIT_* state does not accept takes the fault entry (41_bootstrap.md R158, R162, R169). -/
theorem unexpectedMessage_eq {m : Message} {s : State} (h : isWait s.fsm = true) :
    unexpectedMessage m s = .next (bootFault .protocolViolation (some m) s) := by
  simp only [unexpectedMessage, h, if_true]

/-- What BLOCK does with a message it received in a WAIT_* state (30_encoding.md R95, 41_bootstrap.md R157 to R169). -/
theorem onMessage_cases (m : Message) {s : State} (hw : isWait s.fsm = true) :
    ∃ t, onMessage m s = .next t ∧
      ((s.fsm = .waitHello ∧
          t = enter .sendHello (setTx (helloAckMsg s.config (msgLow32 m)) { s with helloVer := msgLow32 m })) ∨
       (s.fsm = .waitEpmap ∧ s.epmapCount.toNat < epMaxBlocks ∧
          t = acceptMap (msgLow32 m) (msgBlock m) (msgLast s.config m) s) ∨
       (s.fsm = .waitPwrok ∧ t = enter .sendPwrack (setTx (pwrackMsg (msgLow32 m)) s)) ∨
       (s.fsm = .waitPwrok ∧ ∃ m' size, t = serveBufferRequest m' size s) ∨
       ∃ m', t = bootFault .protocolViolation (some m') s) := by
  have hue : ∀ m' : Message, ∃ t, unexpectedMessage m' s = .next t ∧
      ((s.fsm = .waitHello ∧
          t = enter .sendHello (setTx (helloAckMsg s.config (msgLow32 m)) { s with helloVer := msgLow32 m })) ∨
       (s.fsm = .waitEpmap ∧ s.epmapCount.toNat < epMaxBlocks ∧
          t = acceptMap (msgLow32 m) (msgBlock m) (msgLast s.config m) s) ∨
       (s.fsm = .waitPwrok ∧ t = enter .sendPwrack (setTx (pwrackMsg (msgLow32 m)) s)) ∨
       (s.fsm = .waitPwrok ∧ ∃ m' size, t = serveBufferRequest m' size s) ∨
       ∃ m', t = bootFault .protocolViolation (some m') s) :=
    fun m' => ⟨_, unexpectedMessage_eq hw, .inr (.inr (.inr (.inr ⟨m', rfl⟩)))⟩
  unfold onMessage decodeInbound
  split
  · next i hd =>
    split at hd
    · obtain rfl := Except.ok.inj hd
      simp only [exec, execBufreqMgmt]
      split
      · next hf => exact ⟨_, rfl, .inr (.inr (.inr (.inl ⟨hf, _, _, rfl⟩)))⟩
      · exact hue _
    split at hd
    · obtain rfl := Except.ok.inj hd
      simp only [exec, execBufreqStor]
      split
      · next hf => exact ⟨_, rfl, .inr (.inr (.inr (.inl ⟨hf, _, _, rfl⟩)))⟩
      · exact hue _
    split at hd
    · cases hd
    split at hd
    · obtain rfl := Except.ok.inj hd
      simp only [exec, execHello]
      split
      · next hf => exact ⟨_, rfl, .inl ⟨hf, rfl⟩⟩
      · exact hue _
    split at hd
    · obtain rfl := Except.ok.inj hd
      simp only [exec, execEpmap]
      split
      · next hf => exact ⟨_, rfl, .inr (.inl ⟨hf.1, hf.2, rfl⟩)⟩
      · exact hue _
    split at hd
    · obtain rfl := Except.ok.inj hd
      simp only [exec, execPwrok]
      split
      · next hf => exact ⟨_, rfl, .inr (.inr (.inl ⟨hf, rfl⟩))⟩
      · exact hue _
    · cases hd
  · exact hue _

/-- What a step in a WAIT_* state does (41_bootstrap.md R153). -/
theorem waitStep_cases (s : State) :
    (∃ m rest, s.inq = m :: rest ∧ waitStep s = onMessage m (setInq rest (spendPoll s))) ∨
    (s.inq = [] ∧ s.pollCtr - 1 = 0 ∧ waitStep s = .next (bootFault .timeoutRecv none (spendPoll s))) ∨
    (s.inq = [] ∧ s.pollCtr - 1 ≠ 0 ∧ waitStep s = .next (spendPoll s)) := by
  unfold waitStep
  rcases recvIter_cases .any s with ⟨m, rest, hi, -, e⟩ | ⟨m, rest, -, ha, -⟩ | ⟨hi, e⟩
  · exact .inl ⟨m, rest, hi, by rw [e]⟩
  · simp [accepts] at ha
  · rcases recvWait_cases (spendPoll s) with ⟨h0, e'⟩ | ⟨h0, e'⟩
    · exact .inr (.inl ⟨hi, h0, by rw [e, e']⟩)
    · exact .inr (.inr ⟨hi, h0, by rw [e, e']⟩)

/-- What executing a host command does (44_host_interface.md R231 to R239). -/
theorem exec_hostPort_cases {i : Instr} {s t : State} (hi : i.source = .hostPort) (h : exec i s = .next t) :
    (∃ status r0 r1, t = complete status r0 r1 s) ∨
    (s.resvValid = false ∧ ∃ base limit, base.toNat + limit.toNat < paLimit ∧
      t = complete .ok base limit (createReservation base limit s)) ∨
    (s.fsm = .idle ∧ s.resvValid = true ∧ t = idleAction { s with curCmd := .boot }) ∨
    (s.fsm = .done ∧ ∃ m, t = startCommand .send (setTx m s)) ∨
    (s.fsm = .done ∧ ∃ ch, t = startCommand .recv { s with curCh := ch }) := by
  cases i <;> cases hi
  case resvInit base limit =>
    obtain rfl := Host.Outcome.next.inj h
    split
    · exact .inl ⟨_, _, _, rfl⟩
    split
    · exact .inl ⟨_, _, _, rfl⟩
    · next hv hl =>
      exact .inr (.inl ⟨by simpa using hv, base, limit, Nat.not_le.mp hl, rfl⟩)
  case boot =>
    obtain rfl := Host.Outcome.next.inj h
    split
    · next hc => exact .inr (.inr (.inl ⟨hc.1, hc.2, rfl⟩))
    · exact .inl ⟨_, _, _, rfl⟩
  case send w0 w1 =>
    obtain rfl := Host.Outcome.next.inj h
    split
    · next hc => exact .inr (.inr (.inr (.inl ⟨hc, _, rfl⟩)))
    · exact .inl ⟨_, _, _, rfl⟩
  case recv ch =>
    obtain rfl := Host.Outcome.next.inj h
    split
    · next hc => exact .inr (.inr (.inr (.inr ⟨hc, _, rfl⟩)))
    · exact .inl ⟨_, _, _, rfl⟩
  case rdreg sel =>
    obtain rfl := Host.Outcome.next.inj h
    split
    · exact .inl ⟨_, _, _, rfl⟩
    · exact .inl ⟨_, _, _, rfl⟩
  case rdep idx =>
    obtain rfl := Host.Outcome.next.inj h
    split
    · split
      · exact .inl ⟨_, _, _, rfl⟩
      · exact .inl ⟨_, _, _, rfl⟩
    · exact .inl ⟨_, _, _, rfl⟩

/-- A command word decodes to a host command. -/
theorem source_of_decodeCommand {cmd a0 a1 : Word} {i : Instr} (h : decodeCommand cmd a0 a1 = .ok i) :
    i.source = .hostPort := by
  unfold decodeCommand at h
  repeat' split at h
  all_goals first | cases h; rfl | cases h

/-- A host command always completes or starts (44_host_interface.md R231). -/
theorem exec_hostPort_next {i : Instr} (s : State) (hi : i.source = .hostPort) : ∃ t, exec i s = .next t := by
  cases i <;> first | exact ⟨_, rfl⟩ | cases hi

/-- Where a BLOCK step comes from, by CUR_CMD and the FSM's state (10_state.md R23, 44_host_interface.md R230). -/
theorem blockStep_cases (s : State) :
    (s.curCmd = .send ∧ blockStep s = .next (sendCommandStep s)) ∨
    (s.curCmd = .recv ∧ blockStep s = .next (recvCommandStep s)) ∨
    (s.curCmd = .boot ∧ isWait s.fsm = true ∧ blockStep s = waitStep s) ∨
    (s.curCmd = .boot ∧ isSend s.fsm = true ∧ blockStep s = .next (sendStep (txMsg s) (afterSend s.fsm) s)) ∨
    (s.curCmd = .boot ∧ isWait s.fsm = false ∧ isSend s.fsm = false ∧ blockStep s = .next s) ∨
    (s.curCmd = .none ∧ s.request = none ∧ blockStep s = .next s) ∨
    (s.curCmd = .none ∧ s.request.isSome = true ∧
      blockStep s = .next (illegalOp { s with request := none })) ∨
    (s.curCmd = .none ∧ s.request.isSome = true ∧ ∃ i, i.source = .hostPort ∧
      blockStep s = exec i { s with request := none }) := by
  unfold blockStep
  split
  · next hc =>
    unfold bootStep
    split
    · next hw => exact .inr (.inr (.inl ⟨hc, hw, rfl⟩))
    split
    · next hw hs => exact .inr (.inr (.inr (.inl ⟨hc, hs, sendStateStep_eq hs⟩)))
    · next hw hs => exact .inr (.inr (.inr (.inr (.inl ⟨hc, by simpa using hw, by simpa using hs, rfl⟩))))
  · next hc => exact .inl ⟨hc, rfl⟩
  · next hc => exact .inr (.inl ⟨hc, rfl⟩)
  · next hc =>
    split
    · next r hr =>
      unfold acceptStep
      split
      · next i hd =>
        exact .inr (.inr (.inr (.inr (.inr (.inr (.inr
          ⟨hc, by rw [hr]; rfl, i, source_of_decodeCommand hd, rfl⟩))))))
      · exact .inr (.inr (.inr (.inr (.inr (.inr (.inl ⟨hc, by rw [hr]; rfl, rfl⟩))))))
    · next hr => exact .inr (.inr (.inr (.inr (.inr (.inl ⟨hc, hr, rfl⟩)))))

/-- What a block step of a SEND in progress does (44_host_interface.md R236). -/
theorem sendCommandStep_cases (s : State) :
    (s.outq.length ≠ s.config.outDepth ∧ sendCommandStep s = complete .ok 0 0 (push (txMsg s) (spendPoll s))) ∨
    (s.outq.length = s.config.outDepth ∧ s.pollCtr - 1 = 0 ∧
      sendCommandStep s = complete .timeoutSend 0 0 (spendPoll s)) ∨
    (s.outq.length = s.config.outDepth ∧ s.pollCtr - 1 ≠ 0 ∧ sendCommandStep s = spendPoll s) := by
  unfold sendCommandStep
  rcases sendIter_cases (txMsg s) s with ⟨h, e⟩ | ⟨h, h0, e⟩ | ⟨h, h0, e⟩
  · exact .inl ⟨h, by rw [e]⟩
  · exact .inr (.inl ⟨h, h0, by rw [e]⟩)
  · exact .inr (.inr ⟨h, h0, by rw [e]⟩)

/-- What a block step of a RECV in progress does (44_host_interface.md R237). -/
theorem recvCommandStep_cases (s : State) :
    (∃ m, s.inq.head? = some m ∧ msgEp m = s.curCh ∧
      recvCommandStep s = complete .ok m.w0 m.w1 (setInq s.inq.tail (spendPoll s))) ∨
    (s.pollCtr - 1 = 0 ∧ recvCommandStep s = complete .timeoutRecv 0 0 (setInq s.inq.tail (spendPoll s))) ∨
    (s.pollCtr - 1 ≠ 0 ∧ recvCommandStep s = setInq s.inq.tail (spendPoll s)) := by
  unfold recvCommandStep
  rcases recvIter_cases (.tag s.curCh) s with ⟨m, rest, hi, ha, e⟩ | ⟨m, rest, hi, ha, e⟩ | ⟨hi, e⟩
  · exact .inl ⟨m, by rw [hi]; rfl, by simpa [accepts] using ha, by rw [e, hi]; rfl⟩
  · rcases recvWait_cases (setInq rest (spendPoll s)) with ⟨h0, e'⟩ | ⟨h0, e'⟩
    · exact .inr (.inl ⟨h0, by rw [e, e', hi]; rfl⟩)
    · exact .inr (.inr ⟨h0, by rw [e, e', hi]; rfl⟩)
  · have hs : spendPoll s = setInq s.inq.tail (spendPoll s) := by
      rw [hi]
      show spendPoll s = { spendPoll s with inq := [] }
      rw [← hi]
      rfl
    rcases recvWait_cases (spendPoll s) with ⟨h0, e'⟩ | ⟨h0, e'⟩
    · exact .inr (.inl ⟨h0, by rw [e, e', ← hs]⟩)
    · exact .inr (.inr ⟨h0, by rw [e, e', ← hs]⟩)

/-- An agent other than BLOCK moved: no block register changed, memory kept its canonical form, the queues their depths,
and a command was presented only at a free port (10_state.md R21 to R23). -/
structure OutsideStep (s t : State) : Prop where
  rest : t = { s with
    request := t.request, outq := t.outq, inq := t.inq, cpuCtrl := t.cpuCtrl, mem := t.mem, seq := t.seq,
    call := t.call, callResult := t.callResult, exchange := t.exchange, windowData := t.windowData, freeCtr := t.freeCtr,
    agenda := t.agenda }
  mem : s.mem.wf = true → t.mem.wf = true
  outq : t.outq.length ≤ s.outq.length
  inq : s.inq.length ≤ s.config.inDepth → t.inq.length ≤ s.config.inDepth
  request : t.request.isSome = true → s.request.isSome = true ∨ s.curCmd = .none

/-- A window write moves no block register and keeps memory's canonical form (20_memory.md R60, R74). -/
theorem windowStore_outside {addr v : Nat} {s t : State} (h : windowStore addr v s = some t) : OutsideStep s t := by
  rcases windowStore_cases h with ⟨_, m', hm, rfl⟩ | ⟨_, m', hm, rfl⟩ <;>
    exact ⟨rfl, fun hw => memWrite_wf hw hm, le_refl _, id, .inl⟩

/-- A HOST step of a call in progress moves no block register (43_command_boundary.md R212 to R217). -/
theorem consumerStep_outside {c : Call} {s t : State} (hp : s.curCmd = .none) (h : consumerStep c s = .next t) :
    OutsideStep s t := by
  unfold consumerStep at h
  split at h
  · next addr rest hph =>
    unfold callWrite at h
    split at h
    · obtain rfl := Host.Outcome.next.inj h
      exact ⟨rfl, id, le_refl _, id, fun _ => .inr hp⟩
    · dsimp only at h
      split at h
      · cases h
      · next hs =>
        obtain rfl := Host.Outcome.next.inj h
        rcases windowStore_cases hs with ⟨_, m', hm, rfl⟩ | ⟨_, m', hm, rfl⟩ <;>
          exact ⟨rfl, fun hw => memWrite_wf hw hm, le_refl _, id, .inl⟩
  · obtain rfl := Host.Outcome.next.inj h
    unfold callAfterSend
    split
    · exact ⟨rfl, id, le_refl _, id, .inl⟩
    · split
      · exact ⟨rfl, id, le_refl _, id, fun _ => .inr hp⟩
      · exact ⟨rfl, id, le_refl _, id, .inl⟩
  · unfold callAfterRecv at h
    split at h
    · obtain rfl := Host.Outcome.next.inj h
      exact ⟨rfl, id, le_refl _, id, .inl⟩
    · split at h
      · dsimp only at h
        split at h
        · cases h
        split at h
        · obtain rfl := Host.Outcome.next.inj h
          exact ⟨rfl, id, le_refl _, id, .inl⟩
        split at h
        · obtain rfl := Host.Outcome.next.inj h
          exact ⟨rfl, id, le_refl _, id, .inl⟩
        · obtain rfl := Host.Outcome.next.inj h
          exact ⟨rfl, id, le_refl _, id, .inl⟩
      · obtain rfl := Host.Outcome.next.inj h
        exact ⟨rfl, id, le_refl _, id, .inl⟩
  · unfold callRead at h
    split at h
    · obtain rfl := Host.Outcome.next.inj h
      exact ⟨rfl, id, le_refl _, id, .inl⟩
    · dsimp only at h
      split at h
      · cases h
      · next hs =>
        obtain rfl := Host.Outcome.next.inj h
        rcases windowLoad_cases hs with ⟨_, _, rfl⟩ | ⟨_, _, rfl⟩ <;> exact ⟨rfl, id, le_refl _, id, .inl⟩

/-- A call that begins moves no block register (43_command_boundary.md R210 to R214). -/
theorem beginCall_outside {r : CallRequest} {s t : State} (h : beginCall r s = .next t) : OutsideStep s t := by
  unfold beginCall at h
  split at h
  · split at h
    · cases h
    split at h
    · cases h
    · obtain rfl := Host.Outcome.next.inj h
      exact ⟨rfl, id, le_refl _, id, .inl⟩
  · obtain rfl := Host.Outcome.next.inj h
    exact ⟨rfl, id, le_refl _, id, .inl⟩

/-- A window write of HOST moves no block register (20_memory.md R60, R74). -/
theorem windowWrite_outside {addr v : Nat} {s t : State} (h : windowWrite addr v s = .next t) : OutsideStep s t := by
  unfold windowWrite at h
  split at h
  · split at h
    · cases h
    · next hs => obtain rfl := Host.Outcome.next.inj h; exact windowStore_outside hs
  · obtain rfl := Host.Outcome.next.inj h
    exact ⟨rfl, id, le_refl _, id, .inl⟩

/-- A window read of HOST moves no block register and no byte of memory (20_memory.md R60, R74). -/
theorem windowRead_outside {addr : Nat} {s t : State} (h : windowRead addr s = .next t) : OutsideStep s t := by
  unfold windowRead at h
  split at h
  · split at h
    · cases h
    · next hs =>
      obtain rfl := Host.Outcome.next.inj h
      rcases windowLoad_cases hs with ⟨_, _, rfl⟩ | ⟨_, _, rfl⟩ <;> exact ⟨rfl, id, le_refl _, id, .inl⟩
  · obtain rfl := Host.Outcome.next.inj h
    exact ⟨rfl, id, le_refl _, id, .inl⟩

theorem portReady_iff (s : State) : portReady s = true ↔ s.curCmd = .none ∧ s.request = none := by
  unfold portReady
  cases s.request <;> simp

/-- An outside step over another agenda. -/
theorem OutsideStep.ofAgenda {s t : State} {a : List Event} (h : OutsideStep { s with agenda := a } t) :
    OutsideStep s t := ⟨h.rest, h.mem, h.outq, h.inq, h.request⟩

/-- What a step can be: a BLOCK step, another agent's, or the block's reset (10_state.md R20 to R23). -/
theorem step_cases {s t : State} (h : step s = .next t) :
    (∃ a, blockStep { s with agenda := a } = .next t ∧ resetNext s = false) ∨
    (OutsideStep s t ∧ resetNext s = false) ∨
    (∃ rest, s.agenda = .reset :: rest ∧ t = resetBlock { s with agenda := rest }) := by
  unfold step stepTurn at h
  split at h
  swap
  · cases h
  have host : ∀ (rest : List Event) (act : State → Host.Outcome State Fault Refusal),
      (∀ {u v : State}, u.curCmd = .none → act u = .next v → OutsideStep u v) → hostTurn rest act s = .next t →
      (∃ a, blockStep { s with agenda := a } = .next t) ∨ OutsideStep s t := by
    intro rest act hact h
    unfold hostTurn at h
    split at h
    · next hp =>
      rw [portReady_iff] at hp
      split at h
      · exact .inr (consumerStep_outside hp.1 h)
      · exact .inr (hact (u := { s with agenda := rest }) hp.1 h).ofAgenda
    · exact .inl ⟨s.agenda, h⟩
  unfold turn at h
  split at h
  · next ha => exact .inl ⟨s.agenda, h, by rw [resetNext, ha]⟩
  · next rest ha => exact .inl ⟨rest, h, by rw [resetNext, ha]⟩
  · next r rest ha =>
    have hr : resetNext s = false := by rw [resetNext, ha]
    rcases host rest _ (fun {u v} hc h => by
      obtain rfl := Host.Outcome.next.inj h
      exact ⟨rfl, id, le_refl _, id, fun _ => .inr hc⟩) h with ⟨a, h⟩ | h
    · exact .inl ⟨a, h, hr⟩
    · exact .inr (.inl ⟨h, hr⟩)
  · next r rest ha =>
    have hr : resetNext s = false := by rw [resetNext, ha]
    rcases host rest _ (fun {u v} _ h => beginCall_outside h) h with ⟨a, h⟩ | h
    · exact .inl ⟨a, h, hr⟩
    · exact .inr (.inl ⟨h, hr⟩)
  · next rest ha =>
    have hr : resetNext s = false := by rw [resetNext, ha]
    unfold continueTurn at h
    split at h
    · next hp =>
      rw [portReady_iff] at hp
      split at h
      · exact .inr (.inl ⟨(consumerStep_outside (s := { s with agenda := rest }) hp.1 h).ofAgenda, hr⟩)
      · obtain rfl := Host.Outcome.next.inj h
        exact .inr (.inl ⟨⟨rfl, id, le_refl _, id, .inl⟩, hr⟩)
    · exact .inl ⟨s.agenda, h, hr⟩
  · next rest ha =>
    exact .inr (.inl ⟨(windowWrite_outside h).ofAgenda, by rw [resetNext, ha]⟩)
  · next rest ha =>
    exact .inr (.inl ⟨(windowRead_outside h).ofAgenda, by rw [resetNext, ha]⟩)
  · next m rest ha =>
    have hr : resetNext s = false := by rw [resetNext, ha]
    obtain rfl := Host.Outcome.next.inj h
    refine .inr (.inl ⟨?_, hr⟩)
    unfold coprocAppend
    split
    · exact ⟨rfl, id, le_refl _, id, .inl⟩
    · next hf =>
      have hf : s.inq.length ≠ s.config.inDepth := by simpa [inFull] using hf
      refine ⟨rfl, id, le_refl _, fun hl => ?_, .inl⟩
      show (s.inq ++ [m]).length ≤ _
      rw [List.length_append, List.length_singleton]
      omega
  · next rest ha =>
    have hr : resetNext s = false := by rw [resetNext, ha]
    obtain rfl := Host.Outcome.next.inj h
    refine .inr (.inl ⟨⟨rfl, id, ?_, id, .inl⟩, hr⟩)
    show s.outq.tail.length ≤ s.outq.length
    rw [List.length_tail]
    omega
  · next a b rest ha =>
    have hr : resetNext s = false := by rw [resetNext, ha]
    obtain rfl := Host.Outcome.next.inj h
    exact .inr (.inl ⟨⟨rfl, fun hw => writeByte_wf a b hw, le_refl _, id, .inl⟩, hr⟩)
  · next v rest ha =>
    have hr : resetNext s = false := by rw [resetNext, ha]
    obtain rfl := Host.Outcome.next.inj h
    exact .inr (.inl ⟨⟨rfl, id, le_refl _, id, .inl⟩, hr⟩)
  · next rest ha => exact .inr (.inr ⟨rest, ha, (Host.Outcome.next.inj h).symm⟩)

end Sys2Proof.Machine
end

