-- ==== Sys2Proof/Tests/Slice0.lean ====
section
/-! SUPPORT. Tests: what WellFormed refuses, one word of every instruction decoded, single steps of the spec's vectors
(95_test_vectors.md), the host's interface, and for every statement with hypotheses a state that meets them. -/

namespace Sys2Proof.Tests

open Sys2Proof.Machine

/-! ### Helpers -/

/-- The state a next state holds. -/
def next? : Host.Outcome State Fault Refusal → Option State
  | .next s => some s
  | .fault _ => none
  | .refused _ => none

/-- The decoded instruction. -/
def ok? (r : Except DecodeError Instr) : Option Instr := r.toOption

/-- The rejection. -/
def err? : Except DecodeError Instr → Option DecodeError
  | .ok _ => none
  | .error e => some e

/-- A state of the FSM under RC, reserved, with a command in progress, as the vectors of 95_test_vectors.md start. -/
def at' (f : FsmState) (c : CurCmd) : State :=
  { State.reset with
    fsm := f, curCmd := c, pollCtr := 4, resvValid := true, resvBase := 0x800000000, resvLimit := 0x10000 }

/-- Four messages of the given tag. -/
def four (tag : Word) : List Message := [⟨0, tag⟩, ⟨0, tag⟩, ⟨0, tag⟩, ⟨0, tag⟩]

/-- A command at the port of a state with none in progress. -/
def presented (cmd arg0 arg1 : Word) (s : State) : State := { s with request := some ⟨cmd, arg0, arg1⟩ }

/-! ### WellFormed refuses what R293 and R91 refuse -/

theorem test_wf_rc : Config.rc.wf = true := by decide
theorem test_wf_pollBudget : ({ Config.rc with pollBudget := 0 } : Config).wf = false := by decide
theorem test_wf_inDepth : ({ Config.rc with inDepth := 0 } : Config).wf = false := by decide
theorem test_wf_outDepth : ({ Config.rc with outDepth := 0 } : Config).wf = false := by decide
theorem test_wf_lastBit_low : ({ Config.rc with epmapLastBit := 34 } : Config).wf = false := by decide
theorem test_wf_lastBit_high : ({ Config.rc with epmapLastBit := 56 } : Config).wf = false := by decide
theorem test_wf_mgmt_zero : ({ Config.rc with epMemMgmt := 0 } : Config).wf = false := by decide
theorem test_wf_stor_zero : ({ Config.rc with epMemStor := 0 } : Config).wf = false := by decide
theorem test_wf_equal_endpoints : ({ Config.rc with epMemStor := 1 } : Config).wf = false := by decide
theorem test_wf_epmap_last_clear : (Instr.epmap 0x29 0 true 0 0).wf Config.rc = true := by decide
theorem test_wf_epmap_last_set : (Instr.epmap 0x29 0 true 0x10000 0).wf Config.rc = false := by decide

/-! ### Decoding: words written from 30_encoding.md -/

theorem test_decode_resvInit : ok? (decodeCommand 0x0000000000000001 0x800000000 0x10000) =
    some (.resvInit 0x800000000 0x10000) := by decide
theorem test_decode_boot : ok? (decodeCommand 0x0000000000000002 0 0) = some .boot := by decide
theorem test_decode_send : ok? (decodeCommand 0x0000000000000003 0x1122334455667788 3) =
    some (.send 0x1122334455667788 3) := by decide
theorem test_decode_recv : ok? (decodeCommand 0x0000000000000304 0 0) = some (.recv 3) := by decide
theorem test_decode_rdreg : ok? (decodeCommand 0x0000000000000B05 0 0) = some (.rdreg 0x0B) := by decide
theorem test_decode_rdep : ok? (decodeCommand 0x0000000000000206 0 0) = some (.rdep 2) := by decide
theorem test_decode_reservedBits : err? (decodeCommand 0x0000000000010002 0 0) = some .reservedBits := by decide
theorem test_decode_bit48 : err? (decodeCommand 0x0001000000000304 0 0) = some .reservedBits := by decide
theorem test_decode_selector : err? (decodeCommand 0x0000000000000102 0 0) = some .nonzeroSelector := by decide
theorem test_decode_op0 : err? (decodeCommand 0 0 0) = some .unassignedOp := by decide
theorem test_decode_op7 : err? (decodeCommand 7 0 0) = some .unassignedOp := by decide
theorem test_decode_wordCount : err? (decode Config.rc .hostPort [2, 0]) = some .wordCount := by decide

theorem test_decode_hello : ok? (decodeInbound Config.rc ⟨0x01FFFFFF00000001, 0xFFFFFFFFFFFFFF00⟩) =
    some (.hello 1 0xFFFFFF 0xFFFFFFFFFFFFFF) := by decide
theorem test_decode_epmap : ok? (decodeInbound Config.rc ⟨0x0808000780000000, 0⟩) =
    some (.epmap 0x80000000 7 true 0 0) := by decide
theorem test_decode_pwrok : ok? (decodeInbound Config.rc ⟨0x0712345600000020, 0⟩) = some (.pwrok 0x20 0x123456 0) := by
  decide
theorem test_decode_bufreqMgmt : ok? (decodeInbound Config.rc ⟨0x0100200000000000, 1⟩) =
    some (.bufreqMgmt 1 0 2 0 0) := by decide
theorem test_decode_bufreqStor : ok? (decodeInbound Config.rc ⟨0x0700100000000000, 2⟩) =
    some (.bufreqStor 7 0 1 0 0) := by decide
theorem test_decode_unexpected_type : err? (decodeInbound Config.rc ⟨0x0200000000000000, 0⟩) =
    some .unexpectedMessage := by decide
theorem test_decode_unexpected_ep : err? (decodeInbound Config.rc ⟨0x0700000000000020, 3⟩) =
    some .unexpectedMessage := by decide

theorem test_decode_idleReq : ok? (decodeOutbound Config.rc .idleReq ⟨0x0600000000000000, 0⟩) = some .idleReq := by decide
theorem test_decode_helloAck : ok? (decodeOutbound Config.rc .helloAck ⟨0x02000000000C000B, 0⟩) =
    some (.helloAck 0x000C000B) := by decide
theorem test_decode_epack : ok? (decodeOutbound Config.rc .epack ⟨0x0808000700000000, 0⟩) = some (.epack true 7) := by decide
theorem test_decode_epstart : ok? (decodeOutbound Config.rc .epstart ⟨0x050000FF00000000, 0⟩) = some (.epstart 0xFF) := by
  decide
theorem test_decode_bufgrant : ok? (decodeOutbound Config.rc .bufgrant ⟨0x0700100800002000, 2⟩) =
    some (.bufgrant 0x07001 0x00800002000 2) := by decide
theorem test_decode_pwrack : ok? (decodeOutbound Config.rc .pwrack ⟨0xB000000000000020, 0⟩) = some (.pwrack 0x20) := by decide
theorem test_decode_pwrack_dirty : err? (decodeOutbound Config.rc .pwrack ⟨0xB012345600000020, 0⟩) =
    some .notThatKind := by decide

/-! ### The host's interface: a table word decoded, placed and stepped -/

theorem test_table_recv : decodeTableWord 64 0x304 = some (.recv 3) := by decide
theorem test_table_resvInit : decodeTableWord 192 (1 + 0x8 * 2 ^ 64 + 0x10 * 2 ^ 128) = some (.resvInit 8 0x10) := by decide
theorem test_table_bufreqStor : decodeTableWord 128 (2 * 2 ^ 64) = some (.bufreqStor 0 0 0 0 0) := by decide
theorem test_table_epstart : decodeTableWord 128 0x0500000000000000 = some (.epstart 0) := by decide
theorem test_table_bufgrant : decodeTableWord 128 0 = some (.bufgrant 0 0 0) := by decide
theorem test_fetch_rdreg :
    ((next? (step (State.reset.withFetchWord 64 0x805))).bind State.response) = some ⟨.ok, 0, 0⟩ := by decide
theorem test_fetch_hello :
    (next? (step (State.reset.withFetchWord 128 0x01000000000C000B))).map (fun t => (t.fsm, t.helloVer)) =
      some (.sendHello, 0x000C000B) := by decide
theorem test_fetch_epstart :
    (next? (step (State.reset.withFetchWord 128 0x0500002000000000))).map State.outq =
      some [⟨0x0500002000000000, 0⟩] := by decide

/-! ### Vectors of 95_test_vectors.md, one step each -/

/-- A-1. -/
theorem test_resvInit_first :
    (next? (exec (.resvInit 0x800000000 0x10000) State.reset)).map (fun t => (t.response, t.resvCursor)) =
      some (some ⟨.ok, 0x800000000, 0x10000⟩, 0) := by decide
/-- A-3. -/
theorem test_resvInit_reaches_limit :
    (next? (exec (.resvInit 0xFFFFFFF0000 0x10000) State.reset)).map (fun t => (t.response, t.resvValid)) =
      some (some ⟨.illegalOp, 0, 0⟩, false) := by decide
/-- B-1. -/
theorem test_boot_run_clear :
    (next? (exec .boot (at' .idle .none))).map (fun t => (t.cpuCtrl, t.fsm, t.outq)) = some (1, .waitHello, []) := by
  decide
/-- B-2. -/
theorem test_boot_run_set :
    (next? (exec .boot { at' .idle .none with cpuCtrl := 1 })).map (fun t => (t.txW0, t.fsm)) =
      some (0x0600000000000000, .sendIdlereq) := by decide
/-- H-13, its first iteration of four: the FIFO is full. -/
theorem test_send_full :
    (next? (step { at' .done .send with outq := four 0 })).map (fun t => (t.pollCtr, t.curCmd)) = some (3, .send) := by
  decide
/-- R236's example. -/
theorem test_send_ok :
    (next? (step { at' .done .send with txW0 := 0x1122334455667788, txW1 := 3 })).map (fun t => (t.outq, t.response)) =
      some ([⟨0x1122334455667788, 3⟩], some ⟨.ok, 0, 0⟩) := by decide
/-- T-8. -/
theorem test_recv_tag_only :
    (next? (step { at' .done .recv with curCh := 2, inq := [⟨1, 0xFFFFFFFFFFFFFF02⟩] })).map State.response =
      some (some ⟨.ok, 1, 0xFFFFFFFFFFFFFF02⟩) := by decide
/-- T-10: the last iteration discards a message and times out. -/
theorem test_recv_discards :
    (next? (step { at' .done .recv with curCh := 2, pollCtr := 1, inq := [⟨0, 5⟩, ⟨0, 2⟩] })).map
      (fun t => (t.inq, t.response)) = some ([⟨0, 2⟩], some ⟨.timeoutRecv, 0, 0⟩) := by decide
/-- H-12. -/
theorem test_rdreg_state :
    (next? (exec (.rdreg 0) (at' .failed .none))).bind State.response = some ⟨.ok, 9, 0⟩ := by decide
/-- H-7. -/
theorem test_rdreg_unreserved :
    (next? (exec (.rdreg 9) State.reset)).bind State.response = some ⟨.illegalOp, 0, 0⟩ := by decide
/-- P1: RDEP 2. -/
theorem test_rdep_last :
    (next? (exec (.rdep 2) { at' .done .none with epList := [0, 3, 5] })).bind State.response = some ⟨.ok, 5, 0⟩ := by
  decide
/-- P1: RDEP 3. -/
theorem test_rdep_past :
    (next? (exec (.rdep 3) { at' .done .none with epList := [0, 3, 5] })).bind State.response =
      some ⟨.illegalOp, 0, 0⟩ := by decide
/-- B-4. -/
theorem test_hello :
    (next? (step { at' .waitHello .boot with inq := [⟨0x01FFFFFF00000001, 0xFFFFFFFFFFFFFF00⟩] })).map
      (fun t => (t.helloVer, t.txW0)) = some (1, 0x0200000000000001) := by decide
/-- B-6: the fault records the message. -/
theorem test_hello_wrong_endpoint :
    (next? (step { at' .waitHello .boot with inq := [⟨0x0100000000000000, 1⟩] })).map
      (fun t => (t.faultCode, t.faultState, t.faultW0, t.faultW1)) =
        some (.protocolViolation, .waitHello, 0x0100000000000000, 1) := by decide
/-- B-9. -/
theorem test_epmap :
    (next? (step { at' .waitEpmap .boot with inq := [⟨0x0808000000000029, 0⟩] })).map (fun t => (t.epList, t.txW0)) =
      some ([0, 3, 5], 0x0808000000000000) := by decide
/-- B-11. -/
theorem test_epmap_ninth :
    (next? (step { at' .waitEpmap .boot with epmapCount := 8, inq := [⟨0x0808000000000001, 0⟩] })).map
      (fun t => (t.faultCode, t.epList, t.faultW0)) = some (.protocolViolation, [], 0x0808000000000001) := by decide
/-- B-24. -/
theorem test_pwrok :
    (next? (step { at' .waitPwrok .boot with inq := [⟨0x0712345600000020, 0⟩] })).map (fun t => (t.txW0, t.fsm)) =
      some (0xB000000000000020, .sendPwrack) := by decide
/-- B-19. -/
theorem test_bufreqMgmt :
    (next? (step { at' .waitPwrok .boot with inq := [⟨0x0100200000000000, 1⟩] })).map
      (fun t => (t.resvCursor, t.txW0)) = some (0x2000, 0x0100200800000000) := by decide
/-- B-22. -/
theorem test_bufreqMgmt_outOfMemory :
    (next? (step { at' .waitPwrok .boot with resvCursor := 0x2000, inq := [⟨0x0100F00000000000, 1⟩] })).map
      (fun t => (t.faultCode, t.resvCursor, t.faultW0)) = some (.outOfMemory, 0x2000, 0x0100F00000000000) := by decide
/-- B-20. -/
theorem test_bufreqStor :
    (next? (step { at' .waitPwrok .boot with resvCursor := 0x2000, inq := [⟨0x0700100000000000, 2⟩] })).map
      (fun t => (t.resvCursor, t.txW0, t.txW1)) = some (0x3000, 0x0700100800002000, 2) := by decide
/-- B-2, its next step. -/
theorem test_idleReq :
    (next? (step { at' .sendIdlereq .boot with txW0 := 0x0600000000000000 })).map (fun t => (t.outq, t.fsm)) =
      some ([⟨0x0600000000000000, 0⟩], .waitHello) := by decide
/-- P1: s2. -/
theorem test_helloAck :
    (next? (step { at' .sendHello .boot with txW0 := 0x02000000000C000B })).map (fun t => (t.outq, t.fsm)) =
      some ([⟨0x02000000000C000B, 0⟩], .waitEpmap) := by decide
/-- B-8, its last iteration. -/
theorem test_helloAck_timeout :
    (next? (step { at' .sendHello .boot with txW0 := 0x0200000000000000, pollCtr := 1, outq := four 0 })).map
      (fun t => (t.faultCode, t.faultState, t.faultW0)) = some (.timeoutSend, .sendHello, 0) := by decide
/-- B-15. -/
theorem test_epack :
    (next? (step { at' .sendEpack .boot with txW0 := 0x0808000000000000, epmapLast := true, epList := [0, 3, 5] })).map
      (fun t => (t.epIdx, t.txW0, t.fsm)) = some (1, 0x0500000300000000, .sendEpstart) := by decide
/-- B-17. -/
theorem test_epack_no_start :
    (next? (step { at' .sendEpack .boot with txW0 := 0x0808000000000000, epmapLast := true, epList := [0] })).map
      (fun t => (t.epIdx, t.fsm)) = some (1, .waitPwrok) := by decide
/-- B-18. -/
theorem test_epstart :
    (next? (step { at' .sendEpstart .boot with txW0 := 0x0500002000000000, epList := [0x20, 0xFF] })).map
      (fun t => (t.outq, t.txW0)) = some ([⟨0x0500002000000000, 0⟩], 0x050000FF00000000) := by decide
/-- P2: s12. -/
theorem test_bufgrant :
    (next? (step { at' .sendGrant .boot with txW0 := 0x0300200800000000, txW1 := 1 })).map (fun t => (t.outq, t.fsm)) =
      some ([⟨0x0300200800000000, 1⟩], .waitPwrok) := by decide
/-- B-27. -/
theorem test_pwrack :
    (next? (step { at' .sendPwrack .boot with txW0 := 0xB000000000000020 })).map (fun t => (t.fsm, t.response)) =
      some (.done, some ⟨.ok, 0, 0⟩) := by decide

/-- C-1: SEQ wraps. -/
theorem test_call_seq_wraps :
    (next? (step { at' .done .none with seq := 15, epList := [3], agenda := [.beginCall ⟨3, 0, 0, [], 0⟩] })).map
      State.seq = some 0 := by decide
/-- C-2: a call in IDLE ends with ILLEGAL_OP when its SEND has been refused. -/
theorem test_call_in_idle :
    (next? (step { at' .idle .none with
      call := some ⟨⟨3, 0, 0, [], 0⟩, 0, .awaitSend⟩, response := some ⟨.illegalOp, 0, 0⟩,
      agenda := [.continueCall] })).map State.callResult = some (some ⟨.illegalOp, []⟩) := by decide
/-- R211: a call on channel 0 is refused. -/
theorem test_call_channel_zero :
    next? (step { at' .done .none with epList := [0, 3], agenda := [.beginCall ⟨0, 0, 0, [], 0⟩] }) = none := by decide

/-- R74: a window write before the SEND stands as written. -/
theorem test_window_write_in_order :
    (next? (step { at' .done .none with agenda := [.windowWrite 0x800000000 0xAA] })).map
      (fun t => (t.mem, t.freeCtr)) = some ([(0x800000000, 0xAA)], 0) := by decide
/-- R298, K-17: a window write after the SEND is presented draws a free value. -/
theorem test_window_write_after_send :
    (next? (step { presented 3 0 3 (at' .done .none) with
      exchange := ⟨some (.send 3), [], none, false⟩, agenda := [.windowWrite 0x800000000 0xAA] })).map State.freeCtr =
      some 1 := rfl
/-- R74 orders a window write by the SEND: with no SEND out a RECV in progress leaves it in order. -/
theorem test_window_write_during_recv_alone :
    (next? (step { at' .done .recv with
      exchange := ⟨some (.recv 3), [], none, false⟩, agenda := [.windowWrite 0x800000000 0xAA] })).map
      (fun t => (t.mem, t.freeCtr)) = some ([(0x800000000, 0xAA)], 0) := by decide
/-- R74: a window read after the RECV has completed reads the window. -/
theorem test_window_read_after_recv :
    (next? (step { at' .done .none with
      exchange := ⟨some (.recv 3), [3], some 3, false⟩, response := some ⟨.ok, 0, 3⟩, mem := [(0x800000001, 0x55)],
      agenda := [.windowRead 0x800000000] })).map (fun t => (t.windowData, t.freeCtr)) = some ([0, 0x55, 0, 0], 0) := by
  decide
/-- R298, K-17: a window read before the RECV completes draws a free value. -/
theorem test_window_read_before_recv :
    (next? (step { at' .done .recv with
      exchange := ⟨some (.recv 3), [3], some 3, false⟩, response := some ⟨.ok, 0, 0⟩,
      agenda := [.windowRead 0x800000000] })).map State.freeCtr = some 1 := rfl
/-- R74, R215: a RECV on another tag does not return the reply, so a window read after it draws a free value. -/
theorem test_window_read_after_other_recv :
    (next? (step { at' .done .none with
      exchange := ⟨some (.recv 5), [3], some 3, false⟩, response := some ⟨.ok, 0, 5⟩,
      agenda := [.windowRead 0x800000000] })).map State.freeCtr = some 1 := rfl
/-- R296, R298 (log 36): a call's window write while another SEND of HOST awaits its reply draws a free value. -/
theorem test_call_write_during_other_exchange :
    (next? (step { at' .done .none with
      exchange := ⟨some (.send 5), [], none, false⟩, response := some ⟨.ok, 0, 0⟩,
      call := some ⟨⟨3, 0, 0, [0xAA], 0⟩, 0, .writing 0x800000000 [0xAA]⟩,
      agenda := [.continueCall] })).map State.freeCtr = some 1 := rfl

/-! ### Witnesses: for every statement with hypotheses, a state and operands that meet them, each clause at a boundary -/

theorem wit_DecodeOfEncodeGivesInstruction :
    ({ Config.rc with epmapLastBit := 35 } : Config).wf = true ∧
    (Instr.epmap 0 7 true 0 0).wf { Config.rc with epmapLastBit := 35 } = true ∧
    ({ Config.rc with epmapLastBit := 55 } : Config).wf = true ∧
    (Instr.epmap 0 7 true 0xFFFFF 0).wf { Config.rc with epmapLastBit := 55 } = true := by decide

theorem wit_InboundDecodeKeepsEveryBit :
    Config.rc.wf = true ∧ decodeInbound Config.rc ⟨0x0808000780000000, 0⟩ = .ok (.epmap 0x80000000 7 true 0 0) ∧
    decodeInbound Config.rc ⟨0xFFFFFFFFFFFFFFFF, 1⟩ = .ok (.bufreqMgmt 0xFF 0xF 0xFF 0xFFFFFFFFFFF 0) := by decide

theorem wit_InboundKindIsByEndpointAndType :
    ({ Config.rc with epmapLastBit := 55 } : Config).wf = true ∧
    decodeInbound Config.rc ⟨0xFFFFFFFFFFFFFFFF, 0xFFFFFFFFFFFFFF01⟩ =
      .ok (.bufreqMgmt 0xFF 0xF 0xFF 0xFFFFFFFFFFF 0xFFFFFFFFFFFFFF) ∧
    decodeInbound Config.rc ⟨0xFF0FF00000000000, 2⟩ = .ok (.bufreqStor 0xFF 0 0xFF 0 0) ∧
    decodeInbound Config.rc ⟨0x01FFFFFF00000000, 0⟩ = .ok (.hello 0 0xFFFFFF 0) ∧
    decodeInbound Config.rc ⟨0x07000000FFFFFFFF, 0x100⟩ = .ok (.pwrok 0xFFFFFFFF 0 1) ∧
    decodeInbound { Config.rc with epmapLastBit := 55 } ⟨0x0880000F00000001, 0⟩ = .ok (.epmap 1 7 true 1 0) := by decide

theorem wit_SampleWordsDecode :
    (0x01 : Word).toNat = 0x01 ∧ (0x02 : Word).toNat = 0x02 ∧ (0x03 : Word).toNat = 0x03 ∧
    (0xFF04 : Word).toNat = 0x04 + (0xFF : Byte).toNat * 256 ∧ (0x05 : Word).toNat = 0x05 + (0 : Byte).toNat * 256 ∧
    (0xFF06 : Word).toNat = 0x06 + (0xFF : Byte).toNat * 256 := by decide

theorem wit_ReservedCommandCompletesIllegalOp :
    ∀ cmd : Word, blockNext (presented cmd 0 0 (at' .idle .none)) = true ∧ (at' .idle .none).curCmd = .none ∧
      (presented cmd 0 0 (at' .idle .none)).request = some ⟨cmd, 0, 0⟩ :=
  fun _ => ⟨rfl, rfl, rfl⟩

theorem wit_ReservedCommandCompletesIllegalOp_words :
    (0x0 : Word).toNat % 256 = 0 ∧ 7 ≤ (0x7 : Word).toNat % 256 ∧ 7 ≤ (0xFF : Word).toNat % 256 ∧
    (0x10002 : Word).toNat / 2 ^ 16 ≠ 0 ∧ (0x8000000000000002 : Word).toNat / 2 ^ 16 ≠ 0 ∧
    (1 ≤ (0x101 : Word).toNat % 256 ∧ (0x101 : Word).toNat % 256 ≤ 3 ∧ (0x101 : Word).toNat / 2 ^ 8 % 256 ≠ 0) ∧
    (1 ≤ (0xFF03 : Word).toNat % 256 ∧ (0xFF03 : Word).toNat % 256 ≤ 3 ∧
      (0xFF03 : Word).toNat / 2 ^ 8 % 256 ≠ 0) := by decide

theorem wit_StepRunsDecodedInstruction_port :
    ∃ (s : State) (i : Instr) (r : HostRequest), s.config.wf = true ∧ s.agenda = [] ∧ s.curCmd = .none ∧
      s.request = some r ∧ decodeCommand r.cmd r.arg0 r.arg1 = .ok i :=
  ⟨presented 0x304 0 0 (at' .done .none), .recv 3, ⟨0x304, 0, 0⟩, by decide⟩

theorem wit_StepRunsDecodedInstruction_inbound :
    ∃ (s : State) (i : Instr) (m : Message) (rest : List Message) (more : List Event), s.config.wf = true ∧
      s.agenda = .block :: more ∧ s.curCmd = .boot ∧ isWait s.fsm = true ∧ s.inq = m :: rest ∧
      decodeInbound s.config m = .ok i :=
  ⟨{ at' .waitHello .boot with agenda := [.block], inq := [⟨0x0100000000000001, 0⟩] }, .hello 1 0 0,
    ⟨0x0100000000000001, 0⟩, [], [], by decide⟩

theorem wit_StepRunsDecodedInstruction_outbound :
    ∃ (s : State) (i : Instr), s.config.wf = true ∧ s.agenda = [] ∧ s.curCmd = .boot ∧ isSend s.fsm = true ∧
      decodeOutbound s.config (outKind s.fsm) (txMsg s) = .ok i :=
  ⟨{ at' .sendEpack .boot with txW0 := 0x0808000700000000 }, .epack true 7, by decide⟩

theorem wit_OtherAgentsTurns_append :
    ∃ (s : State) (m : Message), s.config.wf = true ∧ s.agenda = .coprocAppend m :: [] ∧
      s.inq.length ≠ s.config.inDepth :=
  ⟨{ at' .idle .none with agenda := [.coprocAppend ⟨0, 5⟩], inq := [⟨0, 5⟩, ⟨0, 5⟩, ⟨0, 5⟩] }, ⟨0, 5⟩, by decide⟩

theorem wit_OtherAgentsTurns_append_full :
    ∃ (s : State) (m : Message), s.config.wf = true ∧ s.agenda = .coprocAppend m :: [] ∧
      s.inq.length = s.config.inDepth :=
  ⟨{ at' .idle .none with agenda := [.coprocAppend ⟨0, 5⟩], inq := four 5 }, ⟨0, 5⟩, by decide⟩

theorem wit_OtherAgentsTurns_others :
    (∃ s : State, s.config.wf = true ∧ s.agenda = [.coprocDrain]) ∧
    (∃ s : State, s.config.wf = true ∧ s.agenda = [.coprocWrite 0 0xFF]) ∧
    (∃ s : State, s.config.wf = true ∧ s.agenda = [.ctrlWrite 0]) :=
  ⟨⟨{ at' .idle .none with agenda := [.coprocDrain] }, by decide⟩,
    ⟨{ at' .idle .none with agenda := [.coprocWrite 0 0xFF] }, by decide⟩,
    ⟨{ at' .idle .none with agenda := [.ctrlWrite 0] }, by decide⟩⟩

/-- A state in DONE with one event listed and HOST's exchange at a point. -/
def atWindow (n : Nat) (x : Exchange) (e : Event) : State :=
  { at' .done .none with
    config := { Config.rc with windowAccessBytes := n }, exchange := x, agenda := [e] }

/-- Records of HOST's exchange, with whether a window write and a window read then keep R74's order: nothing sent, a
RECV with nothing sent, a SEND presented, a SEND sent, its RECV presented, its reply returned, a further RECV. -/
def exchanges : List (Exchange × Bool × Bool) :=
  [(⟨none, [], none, false⟩, true, false), (⟨some (.recv 3), [], none, false⟩, true, false),
    (⟨some (.send 3), [], none, false⟩, false, false), (⟨none, [3], some 3, false⟩, false, false),
    (⟨some (.recv 3), [3], some 3, false⟩, false, false), (⟨none, [], some 3, true⟩, true, true),
    (⟨some (.recv 3), [], some 3, true⟩, true, true)]

theorem wit_OtherAgentsTurns_window :
    ∀ e ∈ [Event.windowWrite 0x800000000 0xAA, Event.windowRead 0x800000000], ∀ x ∈ exchanges,
      (atWindow 4 x.1 e).config.wf = true ∧ (atWindow 4 x.1 e).agenda = e :: [] ∧ (atWindow 4 x.1 e).fsm = .done ∧
      0 < (atWindow 4 x.1 e).config.windowAccessBytes ∧
      0x800000000 % (atWindow 4 x.1 e).config.windowAccessBytes = 0 ∧
      (atWindow 4 x.1 e).response = none ∧ exchangeNow (atWindow 4 x.1 e) = x.1 ∧
      writeOrdered (atWindow 4 x.1 e) = x.2.1 ∧ readOrdered (atWindow 4 x.1 e) = x.2.2 := by decide

/-- HOST's exchange at a free port, its command completed with a status. -/
def completed (x : Exchange) (st : Status) : State :=
  { at' .done .none with exchange := x, response := some ⟨st, 0, 0⟩ }

theorem wit_OtherAgentsTurns_exchange :
    (∀ st ∈ [Status.ok, .timeoutSend], ∀ x ∈ exchanges, (completed x.1 st).curCmd = .none ∧
      (completed x.1 st).request = none ∧ (completed x.1 st).response = some ⟨st, 0, 0⟩ ∧
      (completed x.1 st).exchange = x.1) ∧
    (at' .done .recv).curCmd ≠ .none ∧ (presented 3 0 0 (at' .done .none)).request ≠ none ∧
    State.reset.response = none := by decide

theorem wit_OtherAgentsTurns_window_refused :
    ∀ e ∈ [Event.windowWrite 0x800000001 0xAA, Event.windowRead 0x800000001],
      ((atWindow 4 ⟨none, [], none, false⟩ e).config.wf = true ∧
        (atWindow 4 ⟨none, [], none, false⟩ e).agenda = e :: [] ∧
        (atWindow 4 ⟨none, [], none, false⟩ e).fsm = .done ∧
        0x800000001 % (atWindow 4 ⟨none, [], none, false⟩ e).config.windowAccessBytes ≠ 0) ∧
      ((atWindow 0 ⟨none, [], none, false⟩ e).config.wf = true ∧
        (atWindow 0 ⟨none, [], none, false⟩ e).config.windowAccessBytes = 0) ∧
      ({ atWindow 4 ⟨none, [], none, false⟩ e with fsm := .failed } : State).fsm ≠ .done := by decide

theorem wit_HostPresentsOnlyAtFreePort_commands :
    decodeCommand 0x03 1 2 = .ok (.send 1 2) ∧ decodeCommand 0xFF04 0 0 = .ok (.recv 0xFF) ∧
    (∀ w0 w1, decodeCommand 0x103 1 2 ≠ .ok (.send w0 w1)) ∧ (∀ ch, decodeCommand 0x103 1 2 ≠ .ok (.recv ch)) :=
  ⟨by decide, by decide, fun _ _ h => (by cases h), fun _ h => (by cases h)⟩

theorem wit_HostPresentsOnlyAtFreePort :
    (∃ s : State, s.config.wf = true ∧ s.agenda = [.present ⟨2, 0, 0⟩] ∧ s.curCmd = .none ∧ s.request = none ∧
      s.call = none) ∧
    (∃ s : State, s.config.wf = true ∧ s.agenda = [.present ⟨2, 0, 0⟩] ∧ s.curCmd ≠ .none) ∧
    (∃ s : State, s.config.wf = true ∧ s.agenda = [.present ⟨2, 0, 0⟩] ∧ s.request ≠ none) :=
  ⟨⟨{ at' .done .none with agenda := [.present ⟨2, 0, 0⟩] }, by decide⟩,
    ⟨{ at' .done .recv with agenda := [.present ⟨2, 0, 0⟩] }, by decide⟩,
    ⟨presented 3 0 0 { at' .done .none with agenda := [.present ⟨2, 0, 0⟩] }, by decide⟩⟩

theorem wit_PortMovesWholeMessages :
    ({ State.reset with inq := four 5 } : State).inq = ⟨0, 5⟩ :: [⟨0, 5⟩, ⟨0, 5⟩, ⟨0, 5⟩] ∧
    State.reset.config.outFullBit < 64 ∧ State.reset.config.inEmptyBit < 64 := by decide

theorem wit_HostSendIteration :
    ∃ s u v : State,
      (blockNext s = true ∧ s.curCmd = .send ∧ 1 ≤ s.pollCtr ∧ s.outq.length ≠ s.config.outDepth) ∧
      (blockNext u = true ∧ u.curCmd = .send ∧ 1 ≤ u.pollCtr ∧ u.outq.length = u.config.outDepth ∧ u.pollCtr = 1) ∧
      (blockNext v = true ∧ v.curCmd = .send ∧ 1 ≤ v.pollCtr ∧ v.outq.length = v.config.outDepth ∧ v.pollCtr ≠ 1) :=
  ⟨{ at' .done .send with outq := [⟨0, 0⟩, ⟨0, 0⟩, ⟨0, 0⟩] }, { at' .done .send with outq := four 0, pollCtr := 1 },
    { at' .done .send with outq := four 0, pollCtr := 2 }, by decide⟩

theorem wit_HostRecvIteration_match :
    ∃ (s : State) (m : Message), blockNext s = true ∧ s.curCmd = .recv ∧ 1 ≤ s.pollCtr ∧ s.inq = m :: [] ∧
      m.w1.toNat % 256 = s.curCh.toNat :=
  ⟨{ at' .done .recv with curCh := 0xFF, inq := [⟨0, 0xFFFFFFFFFFFFFFFF⟩] }, ⟨0, 0xFFFFFFFFFFFFFFFF⟩, by decide⟩

theorem wit_HostRecvIteration_mismatch :
    ∃ (s : State) (m : Message), blockNext s = true ∧ s.curCmd = .recv ∧ s.pollCtr = 1 ∧ s.inq = m :: [] ∧
      m.w1.toNat % 256 ≠ s.curCh.toNat :=
  ⟨{ at' .done .recv with pollCtr := 1, inq := [⟨0, 1⟩] }, ⟨0, 1⟩, by decide⟩

theorem wit_HostRecvIteration_empty :
    ∃ s : State, blockNext s = true ∧ s.curCmd = .recv ∧ 1 ≤ s.pollCtr ∧ s.inq = [] ∧ s.pollCtr ≠ 1 :=
  ⟨{ at' .done .recv with pollCtr := 2 }, by decide⟩

theorem wit_HostSendEndsWithinBudget :
    ∃ s u : State, (blockNext s = true ∧ s.curCmd = .send ∧ 1 ≤ s.pollCtr ∧ s.outq.length = s.config.outDepth) ∧
      (blockNext u = true ∧ u.curCmd = .send ∧ 1 ≤ u.pollCtr ∧ u.outq.length ≠ u.config.outDepth) :=
  ⟨{ at' .done .send with outq := four 0, pollCtr := 1 }, at' .done .send, by decide⟩

theorem wit_AddressedReceiveReturnsFirstMatch :
    ∃ (s : State) (before : List Message) (m : Message) (after : List Message), blockNext s = true ∧
      s.curCmd = .recv ∧ s.inq = before ++ m :: after ∧ (∀ x ∈ before, x.w1.toNat % 256 ≠ s.curCh.toNat) ∧
      m.w1.toNat % 256 = s.curCh.toNat ∧ before.length < s.pollCtr :=
  ⟨{ at' .done .recv with curCh := 2, inq := [⟨0, 5⟩, ⟨0, 5⟩, ⟨0, 5⟩, ⟨0, 2⟩] }, [⟨0, 5⟩, ⟨0, 5⟩, ⟨0, 5⟩], ⟨0, 2⟩, [],
    by decide⟩

theorem wit_AddressedReceiveTimesOut :
    ∃ s : State, blockNext s = true ∧ s.curCmd = .recv ∧ 1 ≤ s.pollCtr ∧
      ∀ x ∈ s.inq.take s.pollCtr, x.w1.toNat % 256 ≠ s.curCh.toNat :=
  ⟨{ at' .done .recv with curCh := 2, inq := [⟨0, 5⟩, ⟨0, 2⟩], pollCtr := 1 }, by decide⟩

theorem wit_FirstResvInitCreatesReservation :
    State.reset.resvValid = false ∧ (0xFFFFFFF0000 : Word).toNat + (0xFFFF : Word).toNat < 2 ^ 44 ∧
    2 ^ 44 ≤ (0xFFFFFFF0000 : Word).toNat + (0x10000 : Word).toNat := by decide

theorem wit_SecondResvInitChangesNothing :
    (at' .done .none).resvValid = true ∧ (at' .done .none).curCmd = .none := by decide

theorem wit_BootPerformsIdleAction :
    (at' .idle .none).fsm = .idle ∧ (at' .idle .none).resvValid = true ∧
    ({ at' .idle .none with cpuCtrl := 1 } : State).cpuCtrl.testBit Config.rc.runBit = true ∧
    (at' .idle .none).cpuCtrl.testBit Config.rc.runBit = false := by decide

theorem wit_BootRefusedOutsideIdleOrUnreserved :
    (at' .failed .none).fsm ≠ .idle ∧ (at' .failed .none).curCmd = .none ∧ State.reset.resvValid = false ∧
    State.reset.curCmd = .none := by decide

theorem wit_SendAndRecvAcceptedInDone : (at' .done .none).fsm = .done := by decide

theorem wit_SendRecvRdepRefusedOutsideDone :
    (at' .failed .none).fsm ≠ .done ∧ (at' .failed .none).curCmd = .none ∧ State.reset.fsm ≠ .done := by decide

theorem wit_RdregFollowsTheRegisterMap :
    ∃ s : State, s.curCmd = .none ∧ s.epList.length ≤ 256 ∧ s.resvValid = true ∧ s.epList.length = 256 :=
  ⟨{ at' .done .none with epList := List.replicate 256 0 }, rfl, le_of_eq List.length_replicate, rfl,
    List.length_replicate⟩

theorem wit_RdregFollowsTheRegisterMap_refused :
    ∃ s : State, s.curCmd = .none ∧ s.epList.length ≤ 256 ∧ (0x0C : Byte).toNat = 0x0C ∧
      0x0E ≤ (0x0E : Byte).toNat ∧ 0x0E ≤ (0xFF : Byte).toNat ∧ 0x09 ≤ (0x09 : Byte).toNat ∧
      (0x0B : Byte).toNat ≤ 0x0B ∧ s.resvValid = false :=
  ⟨State.reset, by decide⟩

theorem wit_RdepReadsTheEndpointList :
    ∃ (s u : State) (i j : Byte), s.fsm = .done ∧ s.curCmd = .none ∧ i.toNat < s.epList.length ∧
      s.epList.length ≤ j.toNat ∧ u.curCmd = .none ∧ u.fsm ≠ .done :=
  ⟨{ at' .done .none with epList := [0, 3, 5] }, State.reset, 2, 3, by decide⟩

theorem wit_IllegalOpChangesNothing :
    blockNext (presented 7 0 0 (at' .idle .none)) = true ∧ (at' .idle .none).curCmd = .none ∧
    (next? (step (presented 7 0 0 (at' .idle .none)))).map (fun t => (t.curCmd, t.response)) =
      some (.none, some ⟨.illegalOp, 0, 0⟩) := by decide

theorem wit_HelloRecordsVersionAndComposesAck : (at' .waitHello .boot).fsm = .waitHello := by decide

theorem wit_MessageKindsOutsideTheirStates :
    (∃ (i : Instr) (s : State), i.source = .inbound ∧ isWait s.fsm = true ∧ s.fsm ≠ acceptingState i ∧
      encode s.config i = [0x0700000000000020, 0]) ∧
    (∃ (i : Instr) (s : State), i.source = .inbound ∧ isWait s.fsm = false) ∧
    (∃ (i : Instr) (s : State), i.source = .outbound .pwrack ∧ s.fsm ≠ kindState .pwrack) :=
  ⟨⟨.pwrok 0x20 0 0, at' .waitHello .boot, by decide⟩, ⟨.hello 0 0 0, at' .sendHello .boot, by decide⟩,
    ⟨.pwrack 0, at' .sendHello .boot, by decide⟩⟩

theorem wit_UnexpectedMessageEndsBootstrap_hello :
    ∃ (s u : State) (m n : Message),
      (blockNext s = true ∧ s.curCmd = .boot ∧ s.inq = m :: [] ∧ s.fsm = .waitHello ∧ m.w0.toNat / 2 ^ 56 ≠ 0x01) ∧
      (blockNext u = true ∧ u.curCmd = .boot ∧ u.inq = n :: [] ∧ u.fsm = .waitHello ∧ n.w1.toNat % 256 ≠ 0) :=
  ⟨{ at' .waitHello .boot with inq := [⟨0x0200000000000000, 0⟩] }, { at' .waitHello .boot with inq := [⟨0x0100000000000000, 1⟩] },
    ⟨0x0200000000000000, 0⟩, ⟨0x0100000000000000, 1⟩, by decide⟩

theorem wit_UnexpectedMessageEndsBootstrap_epmap :
    ∃ (s u : State) (m n : Message),
      (blockNext s = true ∧ s.curCmd = .boot ∧ s.inq = m :: [] ∧ s.fsm = .waitEpmap ∧ m.w0.toNat / 2 ^ 56 ≠ 0x08) ∧
      (blockNext u = true ∧ u.curCmd = .boot ∧ u.inq = n :: [] ∧ u.fsm = .waitEpmap ∧ n.w1.toNat % 256 ≠ 0) :=
  ⟨{ at' .waitEpmap .boot with inq := [⟨0x0900000000000000, 0⟩] }, { at' .waitEpmap .boot with inq := [⟨0x0808000000000029, 1⟩] },
    ⟨0x0900000000000000, 0⟩, ⟨0x0808000000000029, 1⟩, by decide⟩

theorem wit_UnexpectedMessageEndsBootstrap_pwrok :
    ∃ (s u : State) (m n : Message),
      (blockNext s = true ∧ s.curCmd = .boot ∧ s.inq = m :: [] ∧ s.fsm = .waitPwrok ∧
        m.w1.toNat % 256 ≠ s.config.epMemMgmt.toNat ∧ m.w1.toNat % 256 ≠ s.config.epMemStor.toNat ∧
        m.w0.toNat / 2 ^ 56 ≠ 0x07) ∧
      (blockNext u = true ∧ u.curCmd = .boot ∧ u.inq = n :: [] ∧ u.fsm = .waitPwrok ∧
        n.w1.toNat % 256 ≠ u.config.epMemMgmt.toNat ∧ n.w1.toNat % 256 ≠ u.config.epMemStor.toNat ∧
        n.w1.toNat % 256 ≠ 0) :=
  ⟨{ at' .waitPwrok .boot with inq := [⟨0x0800000000000000, 0⟩] },
    { at' .waitPwrok .boot with inq := [⟨0x0700000000000020, 3⟩] },
    ⟨0x0800000000000000, 0⟩, ⟨0x0700000000000020, 3⟩, by decide⟩

theorem wit_EpmapAppendsAndComposesEpack :
    (at' .waitEpmap .boot).config.wf = true ∧ ({ at' .waitEpmap .boot with epmapCount := 7 } : State).fsm = .waitEpmap ∧
    ({ at' .waitEpmap .boot with epmapCount := 7 } : State).epmapCount.toNat < 8 := by decide

theorem wit_NinthEndpointMapEndsBootstrap :
    ∃ (s : State) (m : Message), blockNext s = true ∧ s.curCmd = .boot ∧ s.fsm = .waitEpmap ∧ s.inq = m :: [] ∧
      m.w1.toNat % 256 = 0 ∧ m.w0.toNat / 2 ^ 56 = 0x08 ∧ s.epmapCount.toNat = 8 :=
  ⟨{ at' .waitEpmap .boot with epmapCount := 8, inq := [⟨0x0808000000000001, 0⟩] }, ⟨0x0808000000000001, 0⟩,
    by decide⟩

theorem wit_AscendingMapsGiveSortedEndpointList :
    [((0 : BitVec 3), (0x80000001 : BitVec 32)), (1, 1), (7, 0x80000000)].Pairwise
      (fun p q => p.1.toNat < q.1.toNat) := by decide

theorem wit_BufferRequestIsGranted :
    (at' .waitPwrok .boot).fsm = .waitPwrok ∧
    (at' .waitPwrok .boot).resvCursor.toNat + (16 : Byte).toNat * 4096 ≤ (at' .waitPwrok .boot).resvLimit.toNat ∧
    (at' .waitPwrok .boot).resvBase.toNat + (at' .waitPwrok .boot).resvLimit.toNat < 2 ^ 44 := by decide

theorem wit_BufferRequestOutOfMemory :
    (at' .waitPwrok .boot).fsm = .waitPwrok ∧
    (at' .waitPwrok .boot).resvLimit.toNat < (at' .waitPwrok .boot).resvCursor.toNat + (17 : Byte).toNat * 4096 := by
  decide

theorem wit_PwrokComposesPowerAck : (at' .waitPwrok .boot).fsm = .waitPwrok := by decide

theorem wit_IdleReqHelloAckAndGrantAreSent :
    ∀ f ∈ [FsmState.sendIdlereq, .sendHello, .sendGrant],
      ∃ s : State, s.outq.length ≠ s.config.outDepth ∧ s.fsm = f :=
  fun f _ => ⟨{ at' f .boot with outq := [⟨0, 0⟩, ⟨0, 0⟩, ⟨0, 0⟩] }, Nat.ne_of_lt (Nat.lt_succ_self 3), rfl⟩

theorem wit_EpackIsSentThenLoopsOrStarts :
    ∃ s u v : State,
      (s.config.wf = true ∧ s.fsm = .sendEpack ∧ s.outq.length ≠ s.config.outDepth ∧ s.epList.length ≤ 256 ∧
        s.epmapLast = false) ∧
      (u.config.wf = true ∧ u.fsm = .sendEpack ∧ u.outq.length ≠ u.config.outDepth ∧ u.epList.length ≤ 256 ∧
        u.epmapLast = true ∧ ∀ e ∈ u.epList, e = 0) ∧
      (v.config.wf = true ∧ v.fsm = .sendEpack ∧ v.outq.length ≠ v.config.outDepth ∧ v.epList.length ≤ 256 ∧
        v.epmapLast = true ∧ v.epList[2]? = some 5 ∧ ∀ k, k < 2 → v.epList[k]? = some 0) :=
  ⟨at' .sendEpack .boot, { at' .sendEpack .boot with epmapLast := true, epList := [0] },
    { at' .sendEpack .boot with epmapLast := true, epList := [0, 0, 5] }, by decide⟩

theorem wit_EpstartIsSentThenNextStartOrPowerLoop_next :
    ∃ s : State, s.fsm = .sendEpstart ∧ s.outq.length ≠ s.config.outDepth ∧ s.epList.length ≤ 256 ∧
      s.epIdx.toNat < 2 ∧ s.epList[2]? = some 5 ∧ (5 : Byte) ≠ 0 ∧
      ∀ k, k < 2 → s.epIdx.toNat < k → s.epList[k]? = some 0 :=
  ⟨{ at' .sendEpstart .boot with epList := [3, 0, 5] }, by decide⟩

theorem wit_EpstartIsSentThenNextStartOrPowerLoop_last :
    ∃ s : State, s.fsm = .sendEpstart ∧ s.outq.length ≠ s.config.outDepth ∧ s.epList.length ≤ 256 ∧
      ∀ k e, s.epIdx.toNat < k → s.epList[k]? = some e → e = 0 := by
  refine ⟨{ at' .sendEpstart .boot with epList := [3] }, by decide, by decide, by decide, ?_⟩
  intro k e hk h
  have hl : [(3 : Byte)].length ≤ k := hk
  have h' : [(3 : Byte)][k]? = some e := h
  rw [List.getElem?_eq_none hl] at h'
  cases h'

theorem wit_PwrackIsSentAndBootCompletes :
    (at' .sendPwrack .boot).fsm = .sendPwrack ∧
    (at' .sendPwrack .boot).outq.length ≠ (at' .sendPwrack .boot).config.outDepth := by decide

theorem wit_FullFifoWaitsOrEndsBootstrap :
    ∀ i ∈ [Instr.idleReq, .helloAck 0, .epack true 7, .epstart 0xFF, .bufgrant 0 0 0, .pwrack 0],
      ∃ k ∈ [OutKind.idleReq, .helloAck, .epack, .epstart, .bufgrant, .pwrack],
        i.source = .outbound k ∧ (at' (kindState k) .boot).fsm = kindState k ∧
        (four 0).length = (at' (kindState k) .boot).config.outDepth ∧ 1 ≤ (at' (kindState k) .boot).pollCtr ∧
        (at' (kindState k) .boot).pollCtr ≠ 1 := by decide

theorem wit_EmptyFifoWaitsOrEndsBootstrap :
    ∀ f ∈ [FsmState.waitHello, .waitEpmap, .waitPwrok],
      blockNext (at' f .boot) = true ∧ (at' f .boot).curCmd = .boot ∧ isWait (at' f .boot).fsm = true ∧
      (at' f .boot).inq = [] ∧ 1 ≤ (at' f .boot).pollCtr ∧ (at' f .boot).pollCtr ≠ 1 := by decide

theorem wit_EveryEntryToFailedIsRecorded :
    (at' .waitHello .boot).fsm ≠ .failed ∧
    (next? (step { at' .waitHello .boot with pollCtr := 1 })).map (fun t => (t.fsm, t.faultCode)) =
      some (.failed, .timeoutRecv) ∧
    (next? (step { at' .waitHello .boot with inq := [⟨0, 1⟩] })).map (fun t => (t.fsm, t.faultCode)) =
      some (.failed, .protocolViolation) := by decide

theorem wit_ResetLeavesTheOutsideAlone :
    ({ at' .failed .none with agenda := [.reset], inq := four 5 } : State).config.wf = true ∧
    ({ at' .failed .none with agenda := [.reset], inq := four 5 } : State).agenda = [.reset] := by decide

theorem wit_ResetSetsTheBlockRegisters :
    ({ at' .done .send with agenda := [.reset], seq := 15 } : State).config.wf = true ∧
    ({ at' .done .send with agenda := [.reset], seq := 15 } : State).agenda = [.reset] := by decide

theorem wit_LaunchMeetsInvariant :
    Config.rc.wf = true ∧ Memory.wf [(0, 1), (5, 2)] = true ∧ (four 0).length ≤ Config.rc.outDepth ∧
    (four 5).length ≤ Config.rc.inDepth := by decide

/-- A state of the invariant in the middle of the bootstrap. -/
theorem wit_inv_waitHello : (at' .waitHello .boot).Inv := by
  constructor <;> first | decide | (intro h; cases h)

/-- A state of the invariant with a message to start in the latch. -/
theorem wit_inv_sendEpstart :
    ({ at' .sendEpstart .boot with txW0 := 0x0500000300000000, epmapCount := 1, epList := [3] } : State).Inv := by
  constructor
  case latch => exact fun _ => ⟨.epstart 3, by decide⟩
  case starting => exact fun _ => ⟨3, by decide⟩
  all_goals decide

theorem wit_StepKeepsInvariant : (next? (step (at' .waitHello .boot))).isSome = true := by decide

theorem wit_FsmFollowsTransitionTable :
    (next? (step { at' .waitHello .boot with inq := [⟨0x0100000000000000, 0⟩] })).map State.fsm = some .sendHello ∧
    resetNext { at' .waitHello .boot with inq := [⟨0x0100000000000000, 0⟩] } = false := by decide

theorem wit_DoneAndFailedStayUntilReset :
    (next? (step (presented 2 0 0 (at' .failed .none)))).isSome = true ∧ resetNext (at' .failed .none) = false ∧
    (next? (step (presented 2 0 0 (at' .done .none)))).isSome = true ∧ resetNext (at' .done .none) = false := by decide

theorem wit_ReservationNeverMovesOrShrinks :
    (next? (step { at' .waitPwrok .boot with inq := [⟨0x0100200000000000, 1⟩] })).isSome = true ∧
    resetNext { at' .waitPwrok .boot with inq := [⟨0x0100200000000000, 1⟩] } = false ∧
    (at' .waitPwrok .boot).resvValid = true := by decide

theorem wit_EndpointListIsOnlyAppendedTo :
    (next? (step { at' .waitEpmap .boot with inq := [⟨0x0800000000000029, 0⟩] })).map State.epList = some [0, 3, 5] ∧
    resetNext { at' .waitEpmap .boot with inq := [⟨0x0800000000000029, 0⟩] } = false := by decide

theorem wit_BlockNeverClearsRunNorWritesMemory :
    (next? (blockStep (presented 2 0 0 (at' .idle .none)))).map State.cpuCtrl = some 1 := by decide

theorem wit_BlockNeverStops :
    ∃ (s : State) (r : Refusal), s.config.wf = true ∧ step s = .refused r :=
  ⟨{ at' .done .none with agenda := [.beginCall ⟨0, 0, 0, [], 0⟩] }, .channelNotDiscovered, by decide, rfl⟩

theorem wit_BootEndsWhenCoprocIsSilent :
    (at' .waitHello .boot).Inv ∧ (at' .waitHello .boot).agenda = [] ∧ (at' .waitHello .boot).curCmd = .boot :=
  ⟨wit_inv_waitHello, rfl, rfl⟩

theorem wit_GrantsAreConsecutiveAndInside :
    (at' .waitPwrok .boot).resvCursor.toNat ≤ (at' .waitPwrok .boot).resvLimit.toNat ∧
    (at' .waitPwrok .boot).resvBase.toNat + (at' .waitPwrok .boot).resvLimit.toNat < 2 ^ 44 ∧
    (grantAll [0x2000, 0, 0x1000, 0xD000] (at' .waitPwrok .boot)).map Prod.fst =
      some [0x800000000, 0x800002000, 0x800002000, 0x800003000] := by decide

theorem wit_WindowReadAfterWrite :
    Memory.wf [(0, 1), (5, 2)] = true ∧
    memWrite 4 4 0xFF000000 [(0, 1), (5, 2)] = some [(0, 1), (7, 0xFF)] ∧ 0xFF000000 < 256 ^ 4 := by decide

/-- A state of the FSM with channels 0 and 3 discovered, a window of four bytes, and a call to begin. -/
def beginning (f : FsmState) (channel : Byte) (input : List Byte) : State :=
  { at' f .none with
    agenda := [.beginCall ⟨channel, 0, 0, input, 4⟩], epList := [0, 3], seq := 15, resvLimit := 4 }

theorem wit_CallTakesTheSequenceTag :
    ∀ f ∈ [FsmState.done, FsmState.idle], ∀ ch ∈ [(0 : Byte), 3, 5], ∀ input ∈ [[1, 2, 3, 4], [1, 2, 3, 4, 5]],
      (beginning f ch input).config.wf = true ∧
      (beginning f ch input).agenda = .beginCall ⟨ch, 0, 0, input, 4⟩ :: [] ∧
      (beginning f ch input).curCmd = .none ∧ (beginning f ch input).request = none ∧
      (beginning f ch input).call = none ∧ (beginning f ch input).fsm = f := by decide

theorem wit_CallTakesTheSequenceTag_clauses :
    ((3 : Byte) ≠ 0 ∧ (3 : Byte) ∈ (beginning .done 3 []).epList) ∧
    (0 : Byte) ∈ (beginning .done 0 []).epList ∧ (5 : Byte) ∉ (beginning .done 5 []).epList ∧
    (beginning .done 3 []).config.callBufOffset + [1, 2, 3, 4].length ≤ (beginning .done 3 []).resvLimit.toNat ∧
    (beginning .done 3 []).resvLimit.toNat <
      (beginning .done 3 []).config.callBufOffset + [1, 2, 3, 4, 5].length := by decide

/-- A state whose next step goes on with a call in the given phase. -/
def inPhase (n : Nat) (ph : CallPhase) : State :=
  { at' .done .none with
    config := { Config.rc with windowAccessBytes := n }, agenda := [.continueCall],
    call := some ⟨⟨3, 0, 0, [0xAA], 4⟩, 0, ph⟩ }

theorem wit_windowAccess_refused :
    ∀ ph ∈ [CallPhase.writing 0x800000001 [0xAA], CallPhase.reading 0x800000001 1 []], ∀ n ∈ [0, 4],
      (inPhase n ph).config.wf = true ∧ (inPhase n ph).agenda = [.continueCall] ∧ (inPhase n ph).curCmd = .none ∧
      (inPhase n ph).request = none ∧ (inPhase n ph).call = some ⟨⟨3, 0, 0, [0xAA], 4⟩, 0, ph⟩ ∧
      (inPhase n ph).mem.wf = true ∧
      ((inPhase n ph).config.windowAccessBytes = 0 ∨ 0x800000001 % (inPhase n ph).config.windowAccessBytes ≠ 0) := by
  decide

/-- A call in a phase, with a window width and HOST's record of its exchanges as given. -/
def callAt (n : Nat) (x : Exchange) (phase : CallPhase) : State :=
  { atWindow n x .continueCall with call := some ⟨⟨3, 0, 0, [0xAA], 1⟩, 0, phase⟩ }

/-- Each record of `exchanges` orders a call's accesses as it orders HOST's own. -/
theorem callAt_ordered (n : Nat) (phase : CallPhase) :
    ∀ x ∈ exchanges, writeOrdered (callAt n x.1 phase) = x.2.1 ∧ readOrdered (callAt n x.1 phase) = x.2.2 := by
  simp only [exchanges, List.forall_mem_cons]
  exact ⟨⟨rfl, rfl⟩, ⟨rfl, rfl⟩, ⟨rfl, rfl⟩, ⟨rfl, rfl⟩, ⟨rfl, rfl⟩, ⟨rfl, rfl⟩, ⟨rfl, rfl⟩, by simp⟩

theorem wit_CallWritesOneWindowWord :
    ∀ x ∈ exchanges, ∀ addr ∈ [0x800000000, 0x800000001], ∀ n ∈ [0, 4], ∃ (s : State) (c : Call), s.config.wf = true ∧
      s.agenda = [.continueCall] ∧ s.curCmd = .none ∧ s.request = none ∧ s.call = some c ∧
      c.phase = .writing addr [0xAA] ∧ s.mem.wf = true ∧ s.config.windowAccessBytes = n ∧
      writeOrdered s = x.2.1 :=
  fun x hx addr _ n _ => ⟨callAt n x.1 (.writing addr [0xAA]), ⟨⟨3, 0, 0, [0xAA], 1⟩, 0, .writing addr [0xAA]⟩, rfl, rfl,
    rfl, rfl, rfl, rfl, rfl, rfl, (callAt_ordered n _ x hx).1⟩

theorem wit_CallPresentsItsRequest :
    ∃ (s : State) (c : Call) (addr : Nat), s.config.wf = true ∧ s.agenda = [.continueCall] ∧ s.curCmd = .none ∧
      s.request = none ∧ s.call = some c ∧ c.phase = .writing addr [] :=
  ⟨{ at' .done .none with agenda := [.continueCall], call := some ⟨⟨0xFF, 0, 0, [], 0⟩, 0, .writing 0 []⟩ },
    ⟨⟨0xFF, 0, 0, [], 0⟩, 0, .writing 0 []⟩, 0, by decide⟩

theorem wit_CallReadsOneWindowWord :
    ∀ x ∈ exchanges, ∀ addr ∈ [0x800000000, 0x800000001], ∀ n ∈ [0, 4], ∀ remaining ∈ [0, 1, 5],
      ∃ (s : State) (c : Call), s.config.wf = true ∧ s.agenda = [.continueCall] ∧ s.curCmd = .none ∧
        s.request = none ∧ s.call = some c ∧ c.phase = .reading addr remaining [] ∧ s.config.windowAccessBytes = n ∧
        readOrdered s = x.2.2 :=
  fun x hx addr _ n _ remaining _ => ⟨callAt n x.1 (.reading addr remaining []),
    ⟨⟨3, 0, 0, [0xAA], 1⟩, 0, .reading addr remaining []⟩, rfl, rfl, rfl, rfl, rfl, rfl, rfl,
    (callAt_ordered n _ x hx).2⟩

/-- A call in DONE that awaits the reply `w` with the tag `seq`. -/
def awaiting (seq : BitVec 4) (st : Status) : State :=
  { at' .done .none with
    agenda := [.continueCall], call := some ⟨⟨3, 0, 0, [], 4⟩, seq, .awaitRecv⟩, response := some ⟨st, 0, 3⟩ }

theorem wit_CallReplyOutcomes_send :
    ∀ st ∈ [Status.ok, Status.timeoutSend, Status.illegalOp],
      ({ inPhase 4 .awaitSend with response := some ⟨st, 0, 0⟩ } : State).config.wf = true ∧
      ({ inPhase 4 .awaitSend with response := some ⟨st, 0, 0⟩ } : State).agenda = [.continueCall] ∧
      ({ inPhase 4 .awaitSend with response := some ⟨st, 0, 0⟩ } : State).curCmd = .none ∧
      ({ inPhase 4 .awaitSend with response := some ⟨st, 0, 0⟩ } : State).request = none ∧
      ({ inPhase 4 .awaitSend with response := some ⟨st, 0, 0⟩ } : State).call =
        some ⟨⟨3, 0, 0, [0xAA], 4⟩, 0, .awaitSend⟩ := by decide

theorem wit_CallReplyOutcomes_timeout :
    ∃ (s : State) (c : Call) (r : Response), s.config.wf = true ∧ s.agenda = [.continueCall] ∧ s.curCmd = .none ∧
      s.request = none ∧ s.call = some c ∧ c.phase = .awaitRecv ∧ s.response = some r ∧ r.status ≠ .ok :=
  ⟨awaiting 0 .timeoutRecv, ⟨⟨3, 0, 0, [], 4⟩, 0, .awaitRecv⟩, ⟨.timeoutRecv, 0, 3⟩, by decide⟩

/-- What CALL_DECODE answers is open (log 27): the witness takes the tag it gives. -/
theorem wit_CallReplyOutcomes_same_tag :
    ∃ (s : State) (c : Call) (r : Response), s.config.wf = true ∧ s.agenda = [.continueCall] ∧ s.curCmd = .none ∧
      s.request = none ∧ s.call = some c ∧ c.phase = .awaitRecv ∧ s.response = some r ∧ r.status = .ok ∧
      (Config.callDecode ⟨r.res0, r.res1⟩).seq = c.seq :=
  ⟨awaiting (Config.callDecode ⟨0, 3⟩).seq .ok, ⟨⟨3, 0, 0, [], 4⟩, (Config.callDecode ⟨0, 3⟩).seq, .awaitRecv⟩,
    ⟨.ok, 0, 3⟩, by decide, rfl, rfl, rfl, rfl, rfl, rfl, rfl, rfl⟩

/-- What CALL_DECODE answers is open (log 27): the witness takes a tag it does not give. -/
theorem wit_CallReplyOutcomes_other_tag :
    ∃ (s : State) (c : Call) (r : Response), s.config.wf = true ∧ s.agenda = [.continueCall] ∧ s.curCmd = .none ∧
      s.request = none ∧ s.call = some c ∧ c.phase = .awaitRecv ∧ s.response = some r ∧ r.status = .ok ∧
      (Config.callDecode ⟨r.res0, r.res1⟩).seq ≠ c.seq := by
  refine ⟨awaiting ((Config.callDecode ⟨0, 3⟩).seq + 1) .ok,
    ⟨⟨3, 0, 0, [], 4⟩, (Config.callDecode ⟨0, 3⟩).seq + 1, .awaitRecv⟩, ⟨.ok, 0, 3⟩, by decide, rfl, rfl, rfl, rfl, rfl,
    rfl, rfl, ?_⟩
  show (Config.callDecode ⟨0, 3⟩).seq ≠ (Config.callDecode ⟨0, 3⟩).seq + 1
  generalize (Config.callDecode ⟨0, 3⟩).seq = q
  revert q
  decide

end Sys2Proof.Tests
end

section
/-! The invariant of every reachable state: kept by every step, met by every launch (O45, O44). -/

namespace Sys2Proof.Machine

/-! ### An outbound message reads back as its kind (30_encoding.md R100 to R105) -/

theorem ctl_w0_getLsbD (t : Byte) (p : BitVec 56) {i : Nat} (hi : i < 56) :
    (ctl t p).w0.getLsbD i = p.getLsbD i := by
  have h64 : i < 64 := by omega
  have hn : ¬ 56 ≤ i := by omega
  simp only [ctl, BitVec.getLsbD_or, fieldAt_getLsbD, BitVec.getLsbD_setWidth, h64, hn, decide_true, decide_false,
    Bool.and_false, Bool.false_and, Bool.true_and, Bool.false_or]

/-- A control message's fields below its TYPE are its payload's. -/
theorem ctl_w0_extractLsb' (t : Byte) (p : BitVec 56) {n k : Nat} (h : n + k ≤ 56) :
    (ctl t p).w0.extractLsb' n k = p.extractLsb' n k := by
  apply BitVec.eq_of_getLsbD_eq
  intro i hi
  simp [hi, ctl_w0_getLsbD t p (show n + i < 56 by omega)]

theorem msgLow32_helloAckMsg (c : Config) (v : BitVec 32) : msgLow32 (helloAckMsg c v) = v := by
  rw [msgLow32, helloAckMsg, ctl_w0_extractLsb' _ _ (by omega)]
  ext i hi
  simp [hi, show i < 56 by omega]

theorem msgLow32_pwrackMsg (v : BitVec 32) : msgLow32 (pwrackMsg v) = v := by
  rw [msgLow32, pwrackMsg, ctl_w0_extractLsb' _ _ (by omega)]
  ext i hi
  simp [hi, show i < 56 by omega]

theorem epid_epstartMsg (c : Config) (e : Byte) : (epstartMsg c e).w0.extractLsb' 32 8 = e := by
  rw [epstartMsg, ctl_w0_extractLsb' _ _ (by omega)]
  ext i hi
  simp [show 32 + i < 56 by omega, BitVec.getLsbD_eq_getElem hi]

theorem msgBlock_epackMsg {c : Config} (hc : c.wf = true) (l : Bool) (b : BitVec 3) :
    msgBlock (epackMsg c l b) = b := by
  simp only [Config.wf, Bool.and_eq_true, decide_eq_true_eq] at hc
  rw [msgBlock, epackMsg, ctl_w0_extractLsb' _ _ (by omega)]
  ext i hi
  simp [show 32 + i < 56 by omega, show 32 + i < c.epmapLastBit by omega, BitVec.getLsbD_eq_getElem hi]

theorem msgLast_epackMsg {c : Config} (hc : c.wf = true) (l : Bool) (b : BitVec 3) :
    msgLast c (epackMsg c l b) = l := by
  simp only [Config.wf, Bool.and_eq_true, decide_eq_true_eq] at hc
  rw [msgLast, epackMsg, ctl_w0_getLsbD _ _ (by omega)]
  have hb : b.getLsbD (c.epmapLastBit - 32) = false := BitVec.getLsbD_of_ge _ _ (by omega)
  simp [show c.epmapLastBit < 56 by omega, hb]

theorem decodeOutbound_helloAckMsg (c : Config) (v : BitVec 32) :
    decodeOutbound c .helloAck (helloAckMsg c v) = .ok (.helloAck v) := by
  simp [decodeOutbound, msgLow32_helloAckMsg]

theorem decodeOutbound_epackMsg {c : Config} (hc : c.wf = true) (l : Bool) (b : BitVec 3) :
    decodeOutbound c .epack (epackMsg c l b) = .ok (.epack l b) := by
  simp [decodeOutbound, msgLast_epackMsg hc, msgBlock_epackMsg hc]

theorem decodeOutbound_epstartMsg (c : Config) (e : Byte) :
    decodeOutbound c .epstart (epstartMsg c e) = .ok (.epstart e) := by
  simp [decodeOutbound, epid_epstartMsg]

theorem decodeOutbound_pwrackMsg (c : Config) (v : BitVec 32) :
    decodeOutbound c .pwrack (pwrackMsg v) = .ok (.pwrack v) := by
  simp [decodeOutbound, msgLow32_pwrackMsg]


/-! ### The parts of the invariant that hold also within a step -/

/-- The clauses of the invariant that name neither the command in progress nor the FSM's state: they hold also between
the parts of one step. -/
structure Kept (s : State) : Prop where
  config : s.config.wf = true
  memory : s.mem.wf = true
  outqDepth : s.outq.length ≤ s.config.outDepth
  inqDepth : s.inq.length ≤ s.config.inDepth
  pollBound : s.pollCtr ≤ s.config.pollBudget
  reservation : s.resvValid = true → s.resvCursor.toNat ≤ s.resvLimit.toNat ∧
    s.resvBase.toNat + s.resvLimit.toNat < paLimit
  endpoints : s.epList.length ≤ 32 * s.epmapCount.toNat ∧ s.epmapCount.toNat ≤ epMaxBlocks
  epIdx : s.epIdx.toNat ≤ s.epList.length

/-- A BOOT in progress that has no fault yet, whatever its FSM's state and its latch are: what each part of a bootstrap
step starts from. -/
structure Booting (s : State) : Prop where
  kept : Kept s
  curCmd : s.curCmd = .boot
  request : s.request = none
  reserved : s.resvValid = true
  noFault : s.faultCode = .ok

theorem State.Inv.kept {s : State} (h : s.Inv) : Kept s :=
  ⟨h.config, h.memory, h.outqDepth, h.inqDepth, h.pollBound, h.reservation, h.endpoints, h.epIdx⟩

theorem State.Inv.request_eq_none {s : State} (h : s.Inv) (hc : s.curCmd ≠ .none) : s.request = none := by
  cases hr : s.request with
  | none => rfl
  | some r => exact absurd (h.portFree (by rw [hr]; rfl)) hc

/-- BOOT in progress and the FSM in a SEND_* or WAIT_* state are one condition (44_host_interface.md R233, R235). -/
theorem State.Inv.booting {s : State} (h : s.Inv) (hc : s.curCmd = .boot) : Booting s := by
  have hb : inBootstrap s = true := h.boot.mp hc
  refine ⟨h.kept, hc, h.request_eq_none (by rw [hc]; decide), h.reserved ?_, ?_⟩
  · intro hf; rw [inBootstrap, hf] at hb; cases hb
  · by_contra hne
    rw [inBootstrap, h.fault.mp hne] at hb
    cases hb

theorem Kept.pollBudget_pos {s : State} (h : Kept s) : 1 ≤ s.config.pollBudget := by
  have hc := h.config
  simp only [Config.wf, Bool.and_eq_true, decide_eq_true_eq] at hc
  exact hc.1.1.1.1.1.1.1

/-! ### The parts of a step keep these clauses -/

theorem Kept.after_spendPoll {s : State} (h : Kept s) : Kept (spendPoll s) :=
  { h with pollBound := Nat.le_trans (Nat.sub_le _ _) h.pollBound }

theorem Kept.after_setInq {s : State} (h : Kept s) {q : List Message} (hq : q.length ≤ s.inq.length) :
    Kept (setInq q s) :=
  { h with inqDepth := Nat.le_trans hq h.inqDepth }

/-- A push into an OUTQ that is not full keeps its depth (20_memory.md R62, R132). -/
theorem Kept.after_push {s : State} (h : Kept s) (m : Message) (hroom : s.outq.length ≠ s.config.outDepth) :
    Kept (push m s) where
  __ := h
  outqDepth := by
    have := h.outqDepth
    simp only [push_outq, push_config, List.length_append, List.length_singleton]
    omega

theorem Booting.after_spendPoll {s : State} (h : Booting s) : Booting (spendPoll s) :=
  { h with kept := h.kept.after_spendPoll }

theorem Booting.after_setInq {s : State} (h : Booting s) {q : List Message} (hq : q.length ≤ s.inq.length) :
    Booting (setInq q s) := { h with kept := h.kept.after_setInq hq }

theorem Booting.after_push {s : State} (h : Booting s) (m : Message) (hroom : s.outq.length ≠ s.config.outDepth) :
    Booting (push m s) := { h with kept := h.kept.after_push m hroom }

theorem Booting.after_setTx {s : State} {m : Message} (h : Booting s) : Booting (setTx m s) :=
  { h with kept := { h.kept with } }

theorem Booting.after_runSet {s : State} (h : Booting s) : Booting (runSet s) := { h with kept := { h.kept with } }

/-! ### The ends of a step meet the invariant -/

/-- Completing a command in a state that is no SEND_* or WAIT_* state (44_host_interface.md R230). -/
theorem Kept.complete_inv {s : State} {status : Status} {r0 r1 : Word} (h : Kept s) (hb : inBootstrap s = false)
    (hres : s.fsm ≠ .idle → s.resvValid = true) (hfault : s.faultCode ≠ .ok ↔ s.fsm = .failed) :
    (complete status r0 r1 s).Inv := by
  have hs : isSend s.fsm = false := (Bool.or_eq_false_iff.mp hb).1
  exact {
    config := h.config
    memory := h.memory
    outqDepth := h.outqDepth
    inqDepth := h.inqDepth
    pollBound := h.pollBound
    pollLeft := fun hc => absurd rfl hc
    boot := ⟨(fun hc => by cases hc), fun hc => absurd hc (Bool.eq_false_iff.mp hb)⟩
    hostDone := fun hc => by rcases hc with hc | hc <;> cases hc
    portFree := fun _ => rfl
    reserved := hres
    reservation := h.reservation
    endpoints := h.endpoints
    epIdx := h.epIdx
    fault := hfault
    latch := fun hl => by rw [complete_fsm, hs] at hl; cases hl
    starting := fun hf => by rw [complete_fsm] at hf; rw [hf] at hs; cases hs }

/-- The fault entry ends in FAILED with the fault recorded (60_exceptions.md R264). -/
theorem Booting.bootFault_inv {s : State} (h : Booting s) {code : Status} (m : Option Message) (hcode : code ≠ .ok) :
    (bootFault code m s).Inv :=
  Kept.complete_inv { h.kept with } rfl (fun _ => h.reserved) ⟨fun _ => rfl, fun _ => hcode⟩

/-- The bootstrap ends in DONE (41_bootstrap.md R171). -/
theorem Booting.afterPwrack_inv {s : State} (h : Booting s) : (afterPwrack s).Inv :=
  Kept.complete_inv { h.kept with } rfl (fun _ => h.reserved)
    ⟨fun hf => absurd h.noFault hf, fun hf => by cases hf⟩

/-- Entering a WAIT_* state, or a SEND_* state with its message in the latch (41_bootstrap.md R151). -/
theorem Booting.enter_inv {s : State} {f : FsmState} (h : Booting s) (hf : (isSend f || isWait f) = true)
    (hlatch : isSend f = true → ∃ i, decodeOutbound s.config (outKind f) (txMsg s) = .ok i)
    (hstart : f = .sendEpstart →
      ∃ e, e ≠ 0 ∧ s.epList[s.epIdx.toNat]? = some e ∧ txMsg s = epstartMsg s.config e) : (enter f s).Inv := by
  have hpoll : (enter f s).pollCtr = s.config.pollBudget := by rw [enter_pollCtr, if_pos hf]
  exact {
    config := h.kept.config
    memory := h.kept.memory
    outqDepth := h.kept.outqDepth
    inqDepth := h.kept.inqDepth
    pollBound := Nat.le_of_eq hpoll
    pollLeft := fun _ => by rw [hpoll]; exact h.kept.pollBudget_pos
    boot := ⟨fun _ => hf, fun _ => h.curCmd⟩
    hostDone := fun hc => by rw [enter_curCmd, h.curCmd] at hc; rcases hc with hc | hc <;> cases hc
    portFree := fun hr => by rw [enter_request, h.request] at hr; cases hr
    reserved := fun _ => h.reserved
    reservation := h.kept.reservation
    endpoints := h.kept.endpoints
    epIdx := h.kept.epIdx
    fault := ⟨fun hc => absurd h.noFault hc, fun hc => by rw [enter_fsm] at hc; rw [hc] at hf; cases hf⟩
    latch := hlatch
    starting := hstart }

/-- Entering a WAIT_* state: the latch does not matter. -/
theorem Booting.enterWait_inv {s : State} {f : FsmState} (h : Booting s) (hf : isWait f = true) : (enter f s).Inv := by
  have hs : isSend f = false := by
    by_contra hs
    rw [isWait_eq_false_of_isSend (Bool.eq_true_of_not_eq_false hs)] at hf
    cases hf
  exact h.enter_inv (by rw [hf, Bool.or_true]) (fun hc => by rw [hs] at hc; cases hc)
    (fun hc => by subst hc; cases hs)

/-- Entering a SEND_* state but SEND_EPSTART with its message composed. -/
theorem Booting.enterSend_inv {s : State} {f : FsmState} {m : Message} {i : Instr} (h : Booting s)
    (hf : isSend f = true) (hne : f ≠ .sendEpstart) (hm : decodeOutbound s.config (outKind f) m = .ok i) :
    (enter f (setTx m s)).Inv :=
  h.after_setTx.enter_inv (by rw [hf, Bool.true_or]) (fun _ => ⟨i, hm⟩) (fun hc => absurd hc hne)

/-! ### The bootstrap's steps keep the invariant -/

theorem epCount_toNat_le (s : State) : (epCount s).toNat ≤ s.epList.length := by
  rw [epCount, BitVec.toNat_ofNat]
  exact Nat.mod_le _ _

theorem length_mapEndpoints_le (block : BitVec 3) (bitmap : BitVec 32) : (mapEndpoints block bitmap).length ≤ 32 := by
  rw [mapEndpoints, List.length_map]
  exact (List.length_filter_le _ _).trans_eq List.length_range

/-- `start_from` enters the power loop, or starts the entry EP_IDX then names (41_bootstrap.md R165). -/
theorem Booting.startFrom_inv {s : State} (h : Booting s) (i : Nat) : (startFrom i s).Inv := by
  rcases startFrom_cases i s with ⟨_, he⟩ | ⟨j, e, hn, he⟩ <;> rw [he]
  · exact Booting.enterWait_inv { h with kept := { h.kept with epIdx := epCount_toNat_le s } } rfl
  · obtain ⟨_, hj, he0⟩ := nextStart_some hn
    obtain ⟨hlt, _⟩ := List.getElem?_eq_some_iff.mp hj
    have hidx : (BitVec.ofNat 9 j).toNat = j := by
      have hlen := h.kept.endpoints
      simp only [epMaxBlocks] at hlen
      rw [BitVec.toNat_ofNat]
      omega
    refine Booting.enter_inv (Booting.after_setTx { h with kept := { h.kept with epIdx := ?_ } }) rfl
      (fun _ => ⟨_, decodeOutbound_epstartMsg s.config e⟩) (fun _ => ⟨e, he0, ?_, rfl⟩)
    · show (BitVec.ofNat 9 j).toNat ≤ s.epList.length
      omega
    · show s.epList[(BitVec.ofNat 9 j).toNat]? = some e
      rw [hidx]
      exact hj

/-- What follows a sent message (41_bootstrap.md R156, R159, R163, R166, R170, R171). -/
theorem Booting.afterSend_inv {s : State} {f : FsmState} (h : Booting s) (hf : isSend f = true) :
    (afterSend f s).Inv := by
  cases f
  case sendIdlereq => exact h.enterWait_inv rfl
  case sendHello => exact h.enterWait_inv rfl
  case sendEpack =>
    show (afterEpack s).Inv
    unfold afterEpack
    split
    · exact h.startFrom_inv 0
    · exact h.enterWait_inv rfl
  case sendEpstart => exact h.startFrom_inv _
  case sendGrant => exact h.enterWait_inv rfl
  case sendPwrack => exact h.afterPwrack_inv
  all_goals cases hf

/-- One poll iteration that does not end the operation in progress (40_transport.md R131). -/
theorem State.Inv.after_spendPoll {s : State} (h : s.Inv) (hleft : s.pollCtr - 1 ≠ 0) : (spendPoll s).Inv :=
  { h with
    pollBound := h.kept.after_spendPoll.pollBound
    pollLeft := fun _ => by rw [spendPoll_pollCtr]; omega }

/-- A SEND_* state's step (41_bootstrap.md R152). -/
theorem State.Inv.after_sendStep {s : State} (h : s.Inv) (hc : s.curCmd = .boot) (hf : isSend s.fsm = true)
    (m : Message) :
    (sendStep m (afterSend s.fsm) s).Inv := by
  have hb := h.booting hc
  rcases sendStep_cases m (afterSend s.fsm) s with ⟨hroom, he⟩ | ⟨_, _, he⟩ | ⟨_, hleft, he⟩ <;> rw [he]
  · exact (hb.after_spendPoll.after_push m hroom).afterSend_inv hf
  · exact hb.after_spendPoll.bootFault_inv none (by decide)
  · exact h.after_spendPoll hleft

/-- An accepted endpoint map, with fewer than 8 accepted before (41_bootstrap.md R160, R161). -/
theorem Booting.acceptMap_inv {s : State} (h : Booting s) (bitmap : BitVec 32) (block : BitVec 3) (last : Bool)
    (hcount : s.epmapCount.toNat < epMaxBlocks) : (acceptMap bitmap block last s).Inv := by
  have hsucc : (s.epmapCount + 1).toNat = s.epmapCount.toNat + 1 := by
    simp only [epMaxBlocks] at hcount
    rw [BitVec.toNat_add, show (1 : BitVec 4).toNat = 1 from rfl]
    omega
  have hlen := length_mapEndpoints_le block bitmap
  have hep := h.kept.endpoints
  have hidx := h.kept.epIdx
  refine Booting.enterSend_inv (i := .epack last block) (s := { s with
    epList := s.epList ++ mapEndpoints block bitmap, epmapCount := s.epmapCount + 1, epmapLast := last })
    { h with kept := { h.kept with endpoints := ?_, epIdx := ?_ } } rfl (by decide)
    (decodeOutbound_epackMsg h.kept.config last block)
  · simp only [List.length_append, hsucc]
    omega
  · simp only [List.length_append]
    omega

/-- A buffer request served: a grant within the reservation, or out of memory (41_bootstrap.md R167). -/
theorem Booting.serveBufferRequest_inv {s : State} (h : Booting s) (m : Message) (size : Nat) :
    (serveBufferRequest m size s).Inv := by
  unfold serveBufferRequest
  rcases allocate_cases size s with ⟨_, he⟩ | ⟨_, he⟩
  · rw [he]
    exact h.bootFault_inv (some m) (by decide)
  · have hcur := (allocate_cursor he).2
    rw [he]
    exact Booting.enterSend_inv
      { h with kept := { h.kept with reservation := fun hv => ⟨hcur, (h.kept.reservation hv).2⟩ } } rfl (by decide) rfl

/-- What BLOCK does with a message it received in a WAIT_* state (41_bootstrap.md R157 to R169). -/
theorem Booting.onMessage_inv {s t : State} (h : Booting s) (hw : isWait s.fsm = true) (m : Message)
    (ht : onMessage m s = .next t) : t.Inv := by
  obtain ⟨t', ht', hcases⟩ := onMessage_cases m hw
  obtain rfl : t' = t := Host.Outcome.next.inj (ht'.symm.trans ht)
  rcases hcases with ⟨_, rfl⟩ | ⟨_, hcount, rfl⟩ | ⟨_, rfl⟩ | ⟨_, m', size, rfl⟩ | ⟨m', rfl⟩
  · exact Booting.enterSend_inv { h with kept := { h.kept with } } rfl (by decide)
      (decodeOutbound_helloAckMsg s.config (msgLow32 m))
  · exact h.acceptMap_inv _ _ _ hcount
  · exact h.enterSend_inv rfl (by decide) (decodeOutbound_pwrackMsg s.config (msgLow32 m))
  · exact h.serveBufferRequest_inv m' size
  · exact h.bootFault_inv (some m') (by decide)

/-- A WAIT_* state's step (41_bootstrap.md R153). -/
theorem State.Inv.after_waitStep {s t : State} (h : s.Inv) (hc : s.curCmd = .boot) (hw : isWait s.fsm = true)
    (ht : waitStep s = .next t) : t.Inv := by
  have hb := h.booting hc
  rcases waitStep_cases s with ⟨m, rest, hq, he⟩ | ⟨_, _, he⟩ | ⟨_, hleft, he⟩ <;> rw [he] at ht
  · exact (hb.after_spendPoll.after_setInq (by rw [spendPoll_inq, hq, List.length_cons]; omega)).onMessage_inv hw m ht
  · obtain rfl := Host.Outcome.next.inj ht
    exact hb.after_spendPoll.bootFault_inv none (by decide)
  · obtain rfl := Host.Outcome.next.inj ht
    exact h.after_spendPoll hleft

/-! ### The host commands' steps keep the invariant -/

/-- A host command other than BOOT completes; `u` is the state after the step's poll iteration or acceptance. -/
theorem State.Inv.complete_of_kept {s u : State} {status : Status} {r0 r1 : Word} (h : s.Inv)
    (hc : s.curCmd ≠ .boot) (hu : Kept u) (hfsm : u.fsm = s.fsm) (hresv : u.resvValid = s.resvValid)
    (hfault : u.faultCode = s.faultCode) : (complete status r0 r1 u).Inv := by
  refine hu.complete_inv ?_ (by rw [hfsm, hresv]; exact h.reserved) (by rw [hfsm, hfault]; exact h.fault)
  rw [inBootstrap, hfsm, ← inBootstrap, Bool.eq_false_iff]
  exact fun hb => hc (h.boot.mpr hb)

/-- A block step of a SEND in progress (44_host_interface.md R236). -/
theorem State.Inv.after_sendCommandStep {s : State} (h : s.Inv) (hc : s.curCmd = .send) : (sendCommandStep s).Inv := by
  have hne : s.curCmd ≠ .boot := by rw [hc]; decide
  rcases sendCommandStep_cases s with ⟨hroom, he⟩ | ⟨_, _, he⟩ | ⟨_, hleft, he⟩ <;> rw [he]
  · exact h.complete_of_kept hne (h.kept.after_spendPoll.after_push _ hroom) rfl rfl rfl
  · exact h.complete_of_kept hne h.kept.after_spendPoll rfl rfl rfl
  · exact h.after_spendPoll hleft

/-- A block step of a RECV in progress (44_host_interface.md R237). -/
theorem State.Inv.after_recvCommandStep {s : State} (h : s.Inv) (hc : s.curCmd = .recv) : (recvCommandStep s).Inv := by
  have hne : s.curCmd ≠ .boot := by rw [hc]; decide
  have hk : Kept (setInq s.inq.tail (spendPoll s)) :=
    h.kept.after_spendPoll.after_setInq (by rw [spendPoll_inq, List.length_tail]; omega)
  rcases recvCommandStep_cases s with ⟨m, _, _, he⟩ | ⟨_, he⟩ | ⟨hleft, he⟩ <;> rw [he]
  · exact h.complete_of_kept hne hk rfl rfl rfl
  · exact h.complete_of_kept hne hk rfl rfl rfl
  · exact { h.after_spendPoll hleft with inqDepth := hk.inqDepth }

/-- BOOT's accepting step (41_bootstrap.md R155). -/
theorem Booting.idleAction_inv {s : State} (h : Booting s) : (idleAction s).Inv := by
  unfold idleAction
  split
  · exact h.enterSend_inv (i := .idleReq) rfl (by decide) (if_pos rfl)
  · exact h.after_runSet.enterWait_inv rfl

/-- The first RESV_INIT's reservation meets R37 (42_arbiter.md R191). -/
theorem Kept.after_createReservation {s : State} (h : Kept s) {base limit : Word}
    (hfit : base.toNat + limit.toNat < paLimit) : Kept (createReservation base limit s) where
  __ := h
  reservation := fun _ => by
    simp only [createReservation_resvCursor, createReservation_resvLimit, createReservation_resvBase,
      BitVec.toNat_setWidth]
    simp only [paLimit] at hfit ⊢
    constructor
    · exact Nat.zero_le _
    · omega

/-- SEND and RECV start in DONE with a full poll budget (44_host_interface.md R236, R237). -/
theorem State.Inv.after_startCommand {s : State} (h : s.Inv) (hf : s.fsm = .done) (hr : s.request = none)
    {c : CurCmd} (hc : c = .send ∨ c = .recv) : (startCommand c s).Inv := by
  have hboot : ¬ inBootstrap s = true := by rw [inBootstrap, hf]; decide
  exact { h with
    pollBound := Nat.le_refl _
    pollLeft := fun _ => h.kept.pollBudget_pos
    boot := ⟨(fun hb => by rcases hc with rfl | rfl <;> cases hb), fun hb => absurd hb hboot⟩
    hostDone := fun _ => hf
    portFree := fun hp => by rw [startCommand_request, hr] at hp; cases hp }

/-- In DONE the latch and CUR_CH are free (44_host_interface.md R236, R237). -/
theorem State.Inv.after_setTx_of_done {s : State} (h : s.Inv) (hf : s.fsm = .done) (m : Message) : (setTx m s).Inv :=
  { h with
    latch := fun hs => by rw [setTx_fsm, hf] at hs; cases hs
    starting := fun hs => by rw [setTx_fsm, hf] at hs; cases hs }

/-- The accepting step of a host command (44_host_interface.md R231 to R239). -/
theorem State.Inv.after_exec_hostPort {s t : State} (h : s.Inv) (hc : s.curCmd = .none) (hr : s.request = none)
    {i : Instr} (hi : i.source = .hostPort) (ht : exec i s = .next t) : t.Inv := by
  have hne : s.curCmd ≠ .boot := by rw [hc]; decide
  rcases exec_hostPort_cases hi ht with ⟨_, _, _, rfl⟩ | ⟨_, base, limit, hfit, rfl⟩ | ⟨hidle, hres, rfl⟩ |
    ⟨hf, m, rfl⟩ | ⟨hf, ch, rfl⟩
  · exact h.complete_of_kept hne h.kept rfl rfl rfl
  · refine (h.kept.after_createReservation hfit).complete_inv ?_ (fun _ => rfl) h.fault
    exact Bool.eq_false_iff.mpr fun hb => hne (h.boot.mpr hb)
  · refine Booting.idleAction_inv ⟨{ h.kept with }, rfl, hr, hres, ?_⟩
    by_contra hf
    rw [h.fault.mp hf] at hidle
    cases hidle
  · exact (h.after_setTx_of_done hf m).after_startCommand hf hr (.inl rfl)
  · exact State.Inv.after_startCommand (s := { s with curCh := ch }) { h with } hf hr (.inr rfl)

/-! ### Every step keeps the invariant -/

theorem State.Inv.after_clearRequest {s : State} (h : s.Inv) : ({ s with request := none } : State).Inv :=
  { h with portFree := fun hr => by cases hr }

/-- Every BLOCK step (10_state.md R23). -/
theorem State.Inv.after_blockStep {s t : State} (h : s.Inv) (ht : blockStep s = .next t) : t.Inv := by
  rcases blockStep_cases s with ⟨hc, he⟩ | ⟨hc, he⟩ | ⟨hc, hw, he⟩ | ⟨hc, hs, he⟩ | ⟨_, _, _, he⟩ | ⟨_, _, he⟩ |
    ⟨hc, _, he⟩ | ⟨hc, _, i, hi, he⟩ <;> rw [he] at ht
  · obtain rfl := Host.Outcome.next.inj ht
    exact h.after_sendCommandStep hc
  · obtain rfl := Host.Outcome.next.inj ht
    exact h.after_recvCommandStep hc
  · exact h.after_waitStep hc hw ht
  · obtain rfl := Host.Outcome.next.inj ht
    exact h.after_sendStep hc hs _
  · obtain rfl := Host.Outcome.next.inj ht
    exact h
  · obtain rfl := Host.Outcome.next.inj ht
    exact h
  · obtain rfl := Host.Outcome.next.inj ht
    exact h.after_clearRequest.complete_of_kept (by rw [hc]; decide) h.after_clearRequest.kept rfl rfl rfl
  · exact h.after_clearRequest.after_exec_hostPort hc rfl hi ht

/-- Every step of another agent: it changes no block register (10_state.md R21, R22). -/
theorem State.Inv.after_outsideStep {s t : State} (h : s.Inv) (ht : OutsideStep s t) : t.Inv := by
  obtain ⟨hrest, hmem, houtq, hinq, hrequest⟩ := ht
  rw [hrest]
  exact { h with
    memory := hmem h.memory
    outqDepth := Nat.le_trans houtq h.outqDepth
    inqDepth := hinq h.inqDepth
    portFree := fun hr => (hrequest hr).elim h.portFree id }

/-- Every launch under a legal configuration (10_state.md R42, R43). -/
theorem launch_inv {c : Config} {outq inq : List Message} {mem : Memory} (hc : c.wf = true) (hm : mem.wf = true)
    (ho : outq.length ≤ c.outDepth) (hi : inq.length ≤ c.inDepth) (ctrl : Nat) (w : Word) (free : Nat)
    (agenda : List Event) : (State.launch c ctrl w outq inq mem free agenda).Inv where
  config := hc
  memory := hm
  outqDepth := ho
  inqDepth := hi
  pollBound := Nat.zero_le _
  pollLeft := fun h => absurd rfl h
  boot := by constructor <;> intro h <;> cases h
  hostDone := by rintro (h | h) <;> cases h
  portFree := fun _ => rfl
  reserved := fun h => absurd rfl h
  reservation := fun h => by cases h
  endpoints := ⟨Nat.zero_le _, Nat.zero_le _⟩
  epIdx := Nat.zero_le _
  fault := ⟨fun h => absurd rfl h, fun h => by cases h⟩
  latch := fun h => by cases h
  starting := fun h => by cases h

/-- The reset event is a launch with what reset leaves alone (70_reset_and_hazards.md R290, R291). -/
theorem State.Inv.after_resetBlock {s : State} (h : s.Inv) : (resetBlock s).Inv :=
  launch_inv h.config h.memory h.outqDepth h.inqDepth _ _ _ _

/-- Settles O45: each kind of step (`step_cases`) keeps the invariant. -/
theorem stepKeepsInvariant : Obligations.StepKeepsInvariant := by
  intro s t h ht
  rcases step_cases ht with ⟨a, hb, _⟩ | ⟨ho, _⟩ | ⟨rest, _, rfl⟩
  · exact State.Inv.after_blockStep (s := { s with agenda := a }) { h with } hb
  · exact h.after_outsideStep ho
  · exact State.Inv.after_resetBlock (s := { s with agenda := rest }) { h with }

/-- Settles O44: the launch's registers are at their reset values, and its arguments meet the bounds. -/
theorem launchMeetsInvariant : Obligations.LaunchMeetsInvariant :=
  ⟨launch_inv (by decide) rfl (Nat.zero_le _) (Nat.zero_le _) _ _ _ _,
    fun _ ctrl w _ _ _ free agenda hc hm ho hi => launch_inv hc hm ho hi ctrl w free agenda⟩

end Sys2Proof.Machine
end

section
/-! Whose turn it is and what a turn does (O43, O6, O8, O7), and what a BLOCK step leaves alone (O50, O49). -/

namespace Sys2Proof.Machine

/-! ### A turn of each agent -/

theorem step_eq_turn {s : State} (hc : s.config.wf = true) : step s = turn s := if_pos hc

/-- When it is BLOCK's turn the step is a BLOCK step with the event taken off the agenda (10_state.md R23). -/
theorem step_of_blockTurn {s : State} (hc : s.config.wf = true)
    (ha : s.agenda = [] ∨ ∃ rest, s.agenda = .block :: rest) :
    step s = blockStep { s with agenda := s.agenda.tail } := by
  rw [step_eq_turn hc, turn]
  rcases ha with ha | ⟨rest, ha⟩
  · have hs : ({ s with agenda := s.agenda.tail } : State) = s := by rw [ha, List.tail_nil, ← ha]
    rw [hs, ha]
  · rw [ha, List.tail_cons]

/-- Settles O43: the reset event's next state is a launch, whose registers are R42's. -/
theorem resetSetsTheBlockRegisters : Obligations.ResetSetsTheBlockRegisters := by
  intro s rest hc ha
  refine ⟨resetBlock { s with agenda := rest }, by rw [step_eq_turn hc, turn, ha], ?_⟩
  exact ⟨rfl, rfl, rfl, rfl, rfl, rfl, rfl, rfl, rfl, rfl, rfl, rfl, rfl, rfl, rfl, rfl⟩

/-! ### What a BLOCK step fetches -/

/-- The command at the port is accepted (44_host_interface.md R231). -/
theorem blockStep_of_request {s : State} {r : HostRequest} {i : Instr} (hc : s.curCmd = .none)
    (hr : s.request = some r) (hd : decodeCommand r.cmd r.arg0 r.arg1 = .ok i) :
    blockStep s = exec i { s with request := none } := by
  simp only [blockStep, hc, hr, acceptStep, hd]

/-- The head of INQ is received in a WAIT_* state (41_bootstrap.md R153). -/
theorem blockStep_of_inbound {s : State} {m : Message} {rest : List Message} {i : Instr} (hc : s.curCmd = .boot)
    (hw : isWait s.fsm = true) (hq : s.inq = m :: rest) (hd : decodeInbound s.config m = .ok i) :
    blockStep s = exec i (setInq rest (spendPoll s)) := by
  have hwait : waitStep s = onMessage m (setInq rest (spendPoll s)) := by
    rcases waitStep_cases s with ⟨m', rest', hq', he⟩ | ⟨hq', _, _⟩ | ⟨hq', _, _⟩
    · obtain ⟨rfl, rfl⟩ := List.cons.inj (hq.symm.trans hq')
      exact he
    · rw [hq] at hq'
      cases hq'
    · rw [hq] at hq'
      cases hq'
  simp only [blockStep, hc, bootStep, hw, if_true, hwait, onMessage, setInq_config, spendPoll_config, hd]

/-- The latch is sent in a SEND_* state (41_bootstrap.md R152). -/
theorem blockStep_of_outbound {s : State} {i : Instr} (hc : s.curCmd = .boot) (hs : isSend s.fsm = true)
    (hd : decodeOutbound s.config (outKind s.fsm) (txMsg s) = .ok i) : blockStep s = exec i s := by
  simp [blockStep, hc, bootStep, isWait_eq_false_of_isSend hs, hs, sendStateStep, hd]

/-- Settles O6: one case for each place BLOCK fetches from. -/
theorem stepRunsDecodedInstruction : Obligations.StepRunsDecodedInstruction := by
  intro s i hc ha
  rw [step_of_blockTurn hc ha]
  refine ⟨fun r hcmd hr hd => ?_, fun m rest hcmd hw hq hd => ?_, fun hcmd hs hd => ?_⟩
  · exact blockStep_of_request (s := { s with agenda := s.agenda.tail }) hcmd hr hd
  · exact blockStep_of_inbound (s := { s with agenda := s.agenda.tail }) hcmd hw hq hd
  · exact blockStep_of_outbound (s := { s with agenda := s.agenda.tail }) hcmd hs hd

/-! ### HOST's record of its exchanges -/

/-- While the port is not free, or with no result, the record stands. -/
theorem exchangeNow_eq_exchange {s : State} (h : s.curCmd ≠ .none ∨ s.request ≠ none ∨ s.response = none) :
    exchangeNow s = s.exchange := by
  unfold exchangeNow
  split
  · next hp =>
    obtain ⟨hcmd, hreq⟩ := (portReady_iff s).mp hp
    rcases h with h | h | h
    · exact absurd hcmd h
    · exact absurd hreq h
    · rw [h]
  · rfl

/-- At a free port the last result is that of the command in the record. -/
theorem exchangeNow_eq_afterCompletion {s : State} {r : Response} (hc : s.curCmd = .none) (hr : s.request = none)
    (hresp : s.response = some r) : exchangeNow s = afterCompletion s.exchange r.status := by
  rw [exchangeNow, if_pos ((portReady_iff s).mpr ⟨hc, hr⟩), hresp]

theorem afterCompletion_of_none {e : Exchange} (h : e.command = none) (st : Status) : afterCompletion e st = e := by
  rw [afterCompletion, h]

theorem afterCompletion_of_send {e : Exchange} {tag : Byte} (h : e.command = some (.send tag)) (st : Status) :
    afterCompletion e st =
      if st = .ok then ⟨none, tag :: e.awaited, some tag, false⟩ else { e with command := none } := by
  rw [afterCompletion, h]

theorem afterCompletion_of_recv {e : Exchange} {ch : Byte} (h : e.command = some (.recv ch)) (st : Status) :
    afterCompletion e st = { e with
      command := none, awaited := e.awaited.erase ch,
      replied := e.replied || (decide (st = .ok) && decide (e.last = some ch)) } := by
  rw [afterCompletion, h]

theorem issueCommand_of_send {r : HostRequest} {w0 w1 : Word} (e : Exchange)
    (h : decodeCommand r.cmd r.arg0 r.arg1 = .ok (.send w0 w1)) :
    issueCommand r e = { e with command := some (.send (msgEp ⟨w0, w1⟩)) } := by
  rw [issueCommand, h]

theorem issueCommand_of_recv {r : HostRequest} {ch : Byte} (e : Exchange)
    (h : decodeCommand r.cmd r.arg0 r.arg1 = .ok (.recv ch)) :
    issueCommand r e = { e with command := some (.recv ch) } := by
  rw [issueCommand, h]

/-- Any other command is no part of an exchange (20_memory.md R74). -/
theorem issueCommand_of_other {r : HostRequest} (e : Exchange)
    (hsend : ∀ w0 w1, decodeCommand r.cmd r.arg0 r.arg1 ≠ .ok (.send w0 w1))
    (hrecv : ∀ ch, decodeCommand r.cmd r.arg0 r.arg1 ≠ .ok (.recv ch)) : issueCommand r e = e := by
  unfold issueCommand
  split
  · next w0 w1 h => exact absurd h (hsend w0 w1)
  · next ch h => exact absurd h (hrecv ch)
  · rfl
  · rfl

/-- Settles O8: HOST's turn at a free port, and at one that is not. -/
theorem hostPresentsOnlyAtFreePort : Obligations.HostPresentsOnlyAtFreePort := by
  intro s r rest hc ha
  have hturn : step s = hostTurn rest (fun s' => .next (presentRequest r s')) s := by rw [step_eq_turn hc, turn, ha]
  rw [hturn, hostTurn]
  refine ⟨fun hcmd hreq hcall => ?_, fun hbusy => ?_⟩
  · rw [if_pos ((portReady_iff s).mpr ⟨hcmd, hreq⟩), hcall]
    refine ⟨issueCommand r (exchangeNow s), rfl, fun w0 w1 hd => ?_, fun ch hd => ?_, fun hsend hrecv => ?_⟩
    · exact ⟨msgEp ⟨w0, w1⟩, msgEp_toNat _, issueCommand_of_send _ hd⟩
    · exact issueCommand_of_recv _ hd
    · exact issueCommand_of_other _ hsend hrecv
  · have hp : ¬ portReady s = true := by
      rw [portReady_iff]
      rintro ⟨hcmd, hreq⟩
      exact hbusy.elim (absurd hcmd) (absurd hreq)
    rw [if_neg hp]

/-! ### The window accesses of HOST -/

theorem windowAligned_iff (a n : Nat) : windowAligned a n = true ↔ 0 < n ∧ a % n = 0 := by
  simp [windowAligned]

theorem windowAligned_eq_false_iff (a n : Nat) : windowAligned a n = false ↔ n = 0 ∨ a % n ≠ 0 := by
  rw [← Bool.not_eq_true, windowAligned_iff]
  omega

theorem length_readBytes (m : Memory) (a n : Nat) : (readBytes m a n).length = n := by
  induction n generalizing a with
  | zero => rfl
  | succ n ih => rw [readBytes, List.length_cons, ih]

theorem length_unpackLE (n v : Nat) : (unpackLE n v).length = n := by
  induction n generalizing v with
  | zero => rfl
  | succ n ih => rw [unpackLE, List.length_cons, ih]

/-- The bytes of a packed value are the bytes packed (20_memory.md R70). -/
theorem unpackLE_packLE (bs : List Byte) : unpackLE bs.length (packLE bs) = bs := by
  induction bs with
  | nil => rfl
  | cons b bs ih =>
    have hb := b.isLt
    have hlow : BitVec.ofNat 8 (b.toNat + 256 * packLE bs) = b := by
      apply BitVec.eq_of_toNat_eq
      rw [BitVec.toNat_ofNat]
      omega
    have hhigh : (b.toNat + 256 * packLE bs) / 256 = packLE bs := by omega
    rw [List.length_cons, packLE, unpackLE, hlow, hhigh, ih]

/-- Before DONE a window write of HOST changes nothing (44_host_interface.md R242; log 38). -/
theorem windowWrite_of_not_done {s : State} (hf : s.fsm ≠ .done) (a v : Nat) : windowWrite a v s = .next s :=
  if_neg hf

theorem windowRead_of_not_done {s : State} (hf : s.fsm ≠ .done) (a : Nat) : windowRead a s = .next s :=
  if_neg hf

/-- A misaligned window write of HOST is refused (20_memory.md R71). -/
theorem windowWrite_of_misaligned {s : State} {a : Nat} (hf : s.fsm = .done)
    (ha : windowAligned a s.config.windowAccessBytes = false) (v : Nat) :
    windowWrite a v s = .refused .misalignedWindow := by
  rw [windowWrite, if_pos hf, (windowStore_eq_none_iff a v s).mpr ha]

theorem windowRead_of_misaligned {s : State} {a : Nat} (hf : s.fsm = .done)
    (ha : windowAligned a s.config.windowAccessBytes = false) : windowRead a s = .refused .misalignedWindow := by
  rw [windowRead, if_pos hf, (windowLoad_eq_none_iff a s).mpr ha]

/-- An aligned window write in R74's order stores the value given. -/
theorem windowWrite_of_ordered {s : State} {a : Nat} (hf : s.fsm = .done)
    (ha : windowAligned a s.config.windowAccessBytes = true) (ho : writeOrdered s = true) (v : Nat) :
    ∃ m', memWrite a s.config.windowAccessBytes v s.mem = some m' ∧ windowWrite a v s = .next { s with mem := m' } := by
  refine ⟨_, if_pos ha, ?_⟩
  rw [windowWrite, if_pos hf, windowStore, if_pos ho, memWrite, if_pos ha]

/-- An aligned window write against R74's order stores a free value (93_implementation_defined.md K-17). -/
theorem windowWrite_of_unordered {s : State} {a : Nat} (hf : s.fsm = .done)
    (ha : windowAligned a s.config.windowAccessBytes = true) (ho : writeOrdered s = false) (v : Nat) :
    ∃ x m', memWrite a s.config.windowAccessBytes x s.mem = some m' ∧
      windowWrite a v s = .next { s with mem := m', freeCtr := s.freeCtr + 1 } := by
  refine ⟨Config.freeWindowData s.freeCtr, _, if_pos ha, ?_⟩
  rw [windowWrite, if_pos hf, windowStore, ho, if_neg Bool.false_ne_true, memWrite, if_pos ha]
  rfl

/-- An aligned window read in R74's order returns memory's bytes. -/
theorem windowRead_of_ordered {s : State} {a : Nat} (hf : s.fsm = .done)
    (ha : windowAligned a s.config.windowAccessBytes = true) (ho : readOrdered s = true) :
    windowRead a s = .next { s with windowData := readBytes s.mem a s.config.windowAccessBytes } := by
  have hbytes := unpackLE_packLE (readBytes s.mem a s.config.windowAccessBytes)
  rw [length_readBytes] at hbytes
  simp only [windowRead, if_pos hf, windowLoad, memRead, if_pos ha, if_pos ho, hbytes]

/-- An aligned window read against R74's order returns free bytes (93_implementation_defined.md K-17). -/
theorem windowRead_of_unordered {s : State} {a : Nat} (hf : s.fsm = .done)
    (ha : windowAligned a s.config.windowAccessBytes = true) (ho : readOrdered s = false) :
    ∃ d : List Byte, d.length = s.config.windowAccessBytes ∧
      windowRead a s = .next { s with windowData := d, freeCtr := s.freeCtr + 1 } := by
  refine ⟨_, length_unpackLE _ (Config.freeWindowData s.freeCtr), ?_⟩
  simp only [windowRead, if_pos hf, windowLoad, memRead, if_pos ha, ho]
  rfl

/-! ### COPROC's turn and the other agents' -/

/-- COPROC's append (10_state.md R21; log 4). -/
theorem coprocAppend_eq (m : Message) (s : State) :
    coprocAppend m s = if s.inq.length = s.config.inDepth then s else { s with inq := s.inq ++ [m] } := by
  simp only [coprocAppend, inFull, decide_eq_true_eq]

/-- Settles O7: HOST's record from what it holds, then each agent's turn. -/
theorem otherAgentsTurns : Obligations.OtherAgentsTurns := by
  refine ⟨fun s => ⟨writeOrdered_iff s, readOrdered_iff s, exchangeNow_eq_exchange, fun r hcmd hreq hresp => ?_⟩,
    fun s rest hc => ?_⟩
  · rw [exchangeNow_eq_afterCompletion hcmd hreq hresp]
    refine ⟨fun he => afterCompletion_of_none he _, fun tag he => ?_, fun ch he => ?_⟩
    · rw [afterCompletion_of_send he]
      exact ⟨fun hok => if_pos hok, fun hne => if_neg hne⟩
    · exact ⟨_, afterCompletion_of_recv he _, by simp⟩
  · rw [step_eq_turn hc, turn]
    refine ⟨fun m ha hroom => ?_, fun m ha hfull => ?_, fun ha => ?_, fun a b ha => ?_, fun v ha => ?_,
      fun a v ha => ?_, fun a ha => ?_⟩ <;> simp only [ha]
    · rw [coprocAppend_eq, if_neg hroom]
    · rw [coprocAppend_eq, if_pos hfull]
    · rfl
    · rfl
    · exact ⟨fun hf => windowWrite_of_not_done (s := { s with agenda := rest }) hf a v,
        fun hf hn hmod =>
          have hal := (windowAligned_iff _ _).mpr ⟨hn, hmod⟩
          ⟨fun ho => windowWrite_of_ordered (s := { s with agenda := rest }) hf hal ho v,
            fun ho => windowWrite_of_unordered (s := { s with agenda := rest }) hf hal ho v⟩,
        fun hf hmis =>
          windowWrite_of_misaligned (s := { s with agenda := rest }) hf ((windowAligned_eq_false_iff _ _).mpr hmis) v⟩
    · exact ⟨fun hf => windowRead_of_not_done (s := { s with agenda := rest }) hf a,
        fun hf hn hmod =>
          have hal := (windowAligned_iff _ _).mpr ⟨hn, hmod⟩
          ⟨fun ho => windowRead_of_ordered (s := { s with agenda := rest }) hf hal ho,
            fun ho => windowRead_of_unordered (s := { s with agenda := rest }) hf hal ho⟩,
        fun hf hmis =>
          windowRead_of_misaligned (s := { s with agenda := rest }) hf ((windowAligned_eq_false_iff _ _).mpr hmis)⟩

/-! ### What a BLOCK step leaves alone -/

/-- Memory, the parameters, the consumer's SEQ and call, CPU_CTRL and the endpoint list are as they were. -/
structure Quiet (s t : State) : Prop where
  mem : t.mem = s.mem
  config : t.config = s.config
  seq : t.seq = s.seq
  call : t.call = s.call
  cpuCtrl : t.cpuCtrl = s.cpuCtrl
  epList : t.epList = s.epList

theorem Quiet.refl (s : State) : Quiet s s := ⟨rfl, rfl, rfl, rfl, rfl, rfl⟩

/-- A quiet part of a step after a quiet part. -/
theorem Quiet.after {s t u : State} (h' : Quiet t u) (h : Quiet s t) : Quiet s u :=
  ⟨h'.mem.trans h.mem, h'.config.trans h.config, h'.seq.trans h.seq, h'.call.trans h.call,
    h'.cpuCtrl.trans h.cpuCtrl, h'.epList.trans h.epList⟩

theorem startFrom_quiet (i : Nat) (s : State) : Quiet s (startFrom i s) := by
  rcases startFrom_cases i s with ⟨_, he⟩ | ⟨j, e, _, he⟩ <;> rw [he] <;> exact ⟨rfl, rfl, rfl, rfl, rfl, rfl⟩

/-- What follows a sent message (41_bootstrap.md R156, R159, R163, R166, R170, R171). -/
theorem afterSend_quiet (f : FsmState) (s : State) : Quiet s (afterSend f s) := by
  cases f
  case sendEpack =>
    show Quiet s (afterEpack s)
    unfold afterEpack
    split
    · exact startFrom_quiet 0 s
    · exact ⟨rfl, rfl, rfl, rfl, rfl, rfl⟩
  case sendEpstart => exact startFrom_quiet _ s
  all_goals exact ⟨rfl, rfl, rfl, rfl, rfl, rfl⟩

theorem sendStep_quiet (m : Message) (f : FsmState) (s : State) : Quiet s (sendStep m (afterSend f) s) := by
  rcases sendStep_cases m (afterSend f) s with ⟨_, he⟩ | ⟨_, _, he⟩ | ⟨_, _, he⟩ <;> rw [he]
  · exact (afterSend_quiet f _).after ⟨rfl, rfl, rfl, rfl, rfl, rfl⟩
  · exact ⟨rfl, rfl, rfl, rfl, rfl, rfl⟩
  · exact ⟨rfl, rfl, rfl, rfl, rfl, rfl⟩

theorem sendCommandStep_quiet (s : State) : Quiet s (sendCommandStep s) := by
  rcases sendCommandStep_cases s with ⟨_, he⟩ | ⟨_, _, he⟩ | ⟨_, _, he⟩ <;> rw [he] <;>
    exact ⟨rfl, rfl, rfl, rfl, rfl, rfl⟩

theorem recvCommandStep_quiet (s : State) : Quiet s (recvCommandStep s) := by
  rcases recvCommandStep_cases s with ⟨_, _, _, he⟩ | ⟨_, he⟩ | ⟨_, he⟩ <;> rw [he] <;>
    exact ⟨rfl, rfl, rfl, rfl, rfl, rfl⟩

theorem serveBufferRequest_quiet (m : Message) (size : Nat) (s : State) : Quiet s (serveBufferRequest m size s) := by
  unfold serveBufferRequest
  rcases allocate_cases size s with ⟨_, he⟩ | ⟨_, he⟩ <;> rw [he] <;> exact ⟨rfl, rfl, rfl, rfl, rfl, rfl⟩

/-- The endpoint map `m` was accepted: from WAIT_EPMAP to SEND_EPACK, its endpoints appended (41_bootstrap.md R160). -/
def MapAccepted (m : Message) (s t : State) : Prop :=
  s.fsm = .waitEpmap ∧ t.fsm = .sendEpack ∧
    Quiet { s with epList := s.epList ++ mapEndpoints (msgBlock m) (msgLow32 m) } t

/-- A received message is an accepted map, or none of these fields changes (41_bootstrap.md R157 to R169). -/
theorem onMessage_quiet_or {m : Message} {s t : State} (hw : isWait s.fsm = true) (ht : onMessage m s = .next t) :
    Quiet s t ∨ MapAccepted m s t := by
  obtain ⟨t', ht', hcases⟩ := onMessage_cases m hw
  obtain rfl : t' = t := Host.Outcome.next.inj (ht'.symm.trans ht)
  rcases hcases with ⟨_, rfl⟩ | ⟨hf, _, rfl⟩ | ⟨_, rfl⟩ | ⟨_, m', size, rfl⟩ | ⟨m', rfl⟩
  · exact .inl ⟨rfl, rfl, rfl, rfl, rfl, rfl⟩
  · exact .inr ⟨hf, rfl, rfl, rfl, rfl, rfl, rfl, rfl⟩
  · exact .inl ⟨rfl, rfl, rfl, rfl, rfl, rfl⟩
  · exact .inl (serveBufferRequest_quiet m' size s)
  · exact .inl ⟨rfl, rfl, rfl, rfl, rfl, rfl⟩

theorem waitStep_quiet_or {s t : State} (hw : isWait s.fsm = true) (ht : waitStep s = .next t) :
    Quiet s t ∨ ∃ m ∈ s.inq.head?, MapAccepted m s t := by
  rcases waitStep_cases s with ⟨m, rest, hq, he⟩ | ⟨_, _, he⟩ | ⟨_, _, he⟩ <;> rw [he] at ht
  · rcases onMessage_quiet_or (s := setInq rest (spendPoll s)) hw ht with hquiet | ⟨hf, hf', hquiet⟩
    · exact .inl (hquiet.after ⟨rfl, rfl, rfl, rfl, rfl, rfl⟩)
    · exact .inr ⟨m, by rw [hq]; rfl, hf, hf', hquiet.after ⟨rfl, rfl, rfl, rfl, rfl, rfl⟩⟩
  · obtain rfl := Host.Outcome.next.inj ht
    exact .inl ⟨rfl, rfl, rfl, rfl, rfl, rfl⟩
  · obtain rfl := Host.Outcome.next.inj ht
    exact .inl ⟨rfl, rfl, rfl, rfl, rfl, rfl⟩

/-- The IDLE action changes at most CPU_CTRL, by RunSet (41_bootstrap.md R155). -/
theorem idleAction_quiet_or (s : State) : Quiet s (idleAction s) ∨ Quiet (runSet s) (idleAction s) := by
  unfold idleAction
  split
  · exact .inl ⟨rfl, rfl, rfl, rfl, rfl, rfl⟩
  · exact .inr ⟨rfl, rfl, rfl, rfl, rfl, rfl⟩

theorem exec_hostPort_quiet_or {i : Instr} {s t : State} (hi : i.source = .hostPort) (ht : exec i s = .next t) :
    Quiet s t ∨ Quiet (runSet s) t := by
  rcases exec_hostPort_cases hi ht with ⟨_, _, _, rfl⟩ | ⟨_, _, _, _, rfl⟩ | ⟨_, _, rfl⟩ | ⟨_, _, rfl⟩ | ⟨_, _, rfl⟩
  · exact .inl ⟨rfl, rfl, rfl, rfl, rfl, rfl⟩
  · exact .inl ⟨rfl, rfl, rfl, rfl, rfl, rfl⟩
  · exact (idleAction_quiet_or { s with curCmd := .boot }).imp (·.after ⟨rfl, rfl, rfl, rfl, rfl, rfl⟩)
      (·.after ⟨rfl, rfl, rfl, rfl, rfl, rfl⟩)
  · exact .inl ⟨rfl, rfl, rfl, rfl, rfl, rfl⟩
  · exact .inl ⟨rfl, rfl, rfl, rfl, rfl, rfl⟩

/-- A BLOCK step is quiet, but for RunSet (R155) and for an accepted endpoint map (R160). -/
theorem blockStep_quiet_or {s t : State} (ht : blockStep s = .next t) :
    Quiet s t ∨ Quiet (runSet s) t ∨ ∃ m ∈ s.inq.head?, MapAccepted m s t := by
  rcases blockStep_cases s with ⟨_, he⟩ | ⟨_, he⟩ | ⟨_, hw, he⟩ | ⟨_, _, he⟩ | ⟨_, _, _, he⟩ | ⟨_, _, he⟩ |
    ⟨_, _, he⟩ | ⟨_, _, i, hi, he⟩ <;> rw [he] at ht
  · obtain rfl := Host.Outcome.next.inj ht
    exact .inl (sendCommandStep_quiet s)
  · obtain rfl := Host.Outcome.next.inj ht
    exact .inl (recvCommandStep_quiet s)
  · exact (waitStep_quiet_or hw ht).imp id .inr
  · obtain rfl := Host.Outcome.next.inj ht
    exact .inl (sendStep_quiet _ _ s)
  · obtain rfl := Host.Outcome.next.inj ht
    exact .inl (Quiet.refl s)
  · obtain rfl := Host.Outcome.next.inj ht
    exact .inl (Quiet.refl s)
  · obtain rfl := Host.Outcome.next.inj ht
    exact .inl ⟨rfl, rfl, rfl, rfl, rfl, rfl⟩
  · rcases exec_hostPort_quiet_or hi ht with hq | hq
    · exact .inl (hq.after ⟨rfl, rfl, rfl, rfl, rfl, rfl⟩)
    · exact .inr (.inl (hq.after ⟨rfl, rfl, rfl, rfl, rfl, rfl⟩))

/-- RunSet sets the RUN bit and keeps the others (41_bootstrap.md R155). -/
theorem runSet_cpuCtrl_testBit (s : State) (n : Nat) :
    (runSet s).cpuCtrl.testBit n = (s.cpuCtrl.testBit n || decide (s.config.runBit = n)) := by
  rw [runSet_cpuCtrl, Nat.testBit_or, Nat.one_shiftLeft, Nat.testBit_two_pow]

/-- Settles O50: of the three kinds of BLOCK step only RunSet touches CPU_CTRL. -/
theorem blockNeverClearsRunNorWritesMemory : Obligations.BlockNeverClearsRunNorWritesMemory := by
  intro s t ht
  rcases blockStep_quiet_or ht with hq | hq | ⟨m, _, _, _, hq⟩
  · exact ⟨hq.mem, hq.config, hq.seq, hq.call, fun n => .inl (by rw [hq.cpuCtrl])⟩
  · refine ⟨hq.mem, hq.config, hq.seq, hq.call, fun n => ?_⟩
    rw [hq.cpuCtrl, runSet_cpuCtrl_testBit]
    by_cases hn : s.config.runBit = n
    · exact .inr ⟨hn.symm, by simp [hn]⟩
    · exact .inl (by simp [hn])
  · exact ⟨hq.mem, hq.config, hq.seq, hq.call, fun n => .inl (by rw [hq.cpuCtrl])⟩

/-- Settles O49: only a BLOCK step changes the list, and only when it accepts a map. -/
theorem endpointListIsOnlyAppendedTo : Obligations.EndpointListIsOnlyAppendedTo := by
  intro s t ht hreset
  rcases step_cases ht with ⟨a, hb, _⟩ | ⟨ho, _⟩ | ⟨rest, ha, _⟩
  · rcases blockStep_quiet_or hb with hq | hq | ⟨m, hm, hf, hf', hq⟩
    · exact .inl hq.epList
    · exact .inl hq.epList
    · exact .inr ⟨hf, hf', m, hm, hq.epList⟩
  · exact .inl (by rw [ho.rest])
  · rw [resetNext, ha] at hreset
    cases hreset

end Sys2Proof.Machine
end

section
/-! The port registers (O9), memory after a window write (O55), and one window access of a call (O57, O59). -/

namespace Sys2Proof.Machine

/-! ### The port registers -/

/-- Settles O9: the two port writes are a push, the two port reads a pop, and a status word's flag is the queue's. -/
theorem portMovesWholeMessages : Obligations.PortMovesWholeMessages := by
  refine ⟨fun m s => push_eq m s, fun m rest s hq => ⟨?_, ?_, ?_⟩, fun other s hfull hempty => ⟨?_, ?_⟩⟩
  · rw [readInW0, hq, List.head?_cons, Option.map_some]
  · rw [readInW1, hq]
    rfl
  · rw [pop_eq, hq]
    rfl
  · rw [readOutStatus, statusWord_flag _ _ _ hfull, outFull, decide_eq_true_eq]
  · rw [readInStatus, statusWord_flag _ _ _ hempty, inEmpty, List.isEmpty_iff_length_eq_zero]

/-! ### Bytes and little-endian values (20_memory.md R70) -/

theorem getElem?_unpackLE {n k : Nat} (v : Nat) (hk : k < n) :
    (unpackLE n v)[k]? = some (BitVec.ofNat 8 (v / 256 ^ k)) := by
  induction n generalizing v k with
  | zero => omega
  | succ n ih =>
    rw [unpackLE]
    cases k with
    | zero => simp
    | succ k => rw [List.getElem?_cons_succ, ih _ (by omega), Nat.div_div_eq_div_mul, ← Nat.pow_succ']

theorem getElem?_readBytes (m : Memory) (a : Nat) {n k : Nat} (hk : k < n) :
    (readBytes m a n)[k]? = some (readByte m (a + k)) := by
  induction n generalizing a k with
  | zero => omega
  | succ n ih =>
    rw [readBytes]
    cases k with
    | zero => rfl
    | succ k => rw [List.getElem?_cons_succ, ih _ (by omega), Nat.add_right_comm, Nat.add_assoc]

theorem eq_readByte_of_getElem?_readBytes {m : Memory} {a n k : Nat} {b : Byte}
    (h : (readBytes m a n)[k]? = some b) : b = readByte m (a + k) := by
  have hk : k < (readBytes m a n).length := (List.getElem?_eq_some_iff.mp h).1
  rw [length_readBytes] at hk
  rw [getElem?_readBytes m a hk] at h
  exact (Option.some.inj h).symm

/-- The value packed from a value's low `n` bytes. -/
theorem packLE_unpackLE (n v : Nat) : packLE (unpackLE n v) = v % 256 ^ n := by
  induction n generalizing v with
  | zero => rw [Nat.pow_zero, Nat.mod_one]; rfl
  | succ n ih => rw [unpackLE, packLE, ih, BitVec.toNat_ofNat, Nat.pow_succ' (m := 256), Nat.mod_mul]

/-- A packed value's byte `k` is the list's, and 0 past its end: the padding of a partial word (43_command_boundary.md
R212). -/
theorem ofNat_packLE_div (bs : List Byte) (k : Nat) : BitVec.ofNat 8 (packLE bs / 256 ^ k) = (bs[k]?).getD 0 := by
  induction bs generalizing k with
  | nil => simp [packLE]
  | cons b bs ih =>
    have hb := b.isLt
    rw [packLE]
    cases k with
    | zero =>
      apply BitVec.eq_of_toNat_eq
      rw [BitVec.toNat_ofNat, Nat.pow_zero, Nat.div_one]
      change _ = b.toNat
      omega
    | succ k =>
      have htail : (b.toNat + 256 * packLE bs) / 256 = packLE bs := by omega
      rw [Nat.pow_succ', ← Nat.div_div_eq_div_mul, htail, ih, List.getElem?_cons_succ]

/-! ### A byte read after a list of bytes written -/

theorem readByte_writeBytes_outside {a x : Nat} {bs : List Byte} {m : Memory} (h : m.wf = true)
    (hx : x < a ∨ a + bs.length ≤ x) : readByte (writeBytes a bs m) x = readByte m x := by
  induction bs generalizing a m with
  | nil => rfl
  | cons b bs ih =>
    rw [List.length_cons] at hx
    rw [writeBytes, ih (writeByte_wf a b h) (by omega), readByte_writeByte a b h, if_neg (by omega)]

theorem readByte_writeBytes_at {a k : Nat} {b : Byte} {bs : List Byte} {m : Memory} (h : m.wf = true)
    (hb : bs[k]? = some b) : readByte (writeBytes a bs m) (a + k) = b := by
  induction bs generalizing a k m with
  | nil => cases hb
  | cons b' bs ih =>
    have hwf := writeByte_wf a b' h
    rw [writeBytes]
    cases k with
    | zero =>
      obtain rfl := Option.some.inj hb
      rw [readByte_writeBytes_outside hwf (by omega), readByte_writeByte a b' h, if_pos (Nat.add_zero a)]
    | succ k => rw [← Nat.add_assoc, Nat.add_right_comm, ih hwf hb]

/-! ### A window write and a window read (20_memory.md R70, R71) -/

theorem memWrite_eq_some_iff {a n v : Nat} {m m' : Memory} :
    memWrite a n v m = some m' ↔ windowAligned a n = true ∧ writeBytes a (unpackLE n v) m = m' := by
  rw [memWrite, Option.ite_none_right_eq_some, Option.some.injEq]

/-- Byte `k` of the access is byte `k` of the value. -/
theorem readByte_memWrite_at {a n v k : Nat} {m m' : Memory} (h : m.wf = true) (hw : memWrite a n v m = some m')
    (hk : k < n) : readByte m' (a + k) = BitVec.ofNat 8 (v / 256 ^ k) := by
  obtain ⟨_, rfl⟩ := memWrite_eq_some_iff.mp hw
  exact readByte_writeBytes_at h (getElem?_unpackLE v hk)

theorem readByte_memWrite_outside {a n v x : Nat} {m m' : Memory} (h : m.wf = true)
    (hw : memWrite a n v m = some m') (hx : x < a ∨ a + n ≤ x) : readByte m' x = readByte m x := by
  obtain ⟨_, rfl⟩ := memWrite_eq_some_iff.mp hw
  exact readByte_writeBytes_outside h (by rwa [length_unpackLE])

theorem readBytes_memWrite {a n v : Nat} {m m' : Memory} (h : m.wf = true) (hw : memWrite a n v m = some m') :
    readBytes m' a n = unpackLE n v := by
  apply List.ext_getElem?
  intro k
  by_cases hk : k < n
  · rw [getElem?_readBytes m' a hk, getElem?_unpackLE v hk, readByte_memWrite_at h hw hk]
  · rw [List.getElem?_eq_none (by rw [length_readBytes]; omega),
      List.getElem?_eq_none (by rw [length_unpackLE]; omega)]

theorem memRead_memWrite {a n v : Nat} {m m' : Memory} (h : m.wf = true) (hw : memWrite a n v m = some m') :
    memRead a n m' = some (v % 256 ^ n) := by
  rw [memRead, if_pos (memWrite_eq_some_iff.mp hw).1, readBytes_memWrite h hw, packLE_unpackLE]

/-- Settles O55: each clause is one rule of `memWrite`. -/
theorem windowReadAfterWrite : Obligations.WindowReadAfterWrite := by
  intro a n v m m' h hw
  refine ⟨fun hv => ?_, memWrite_wf h hw, fun k hk => readByte_memWrite_at h hw hk,
    fun x hx => readByte_memWrite_outside h hw hx⟩
  rw [memRead_memWrite h hw, Nat.mod_eq_of_lt hv]

/-! ### A window access under R74's order and against it -/

/-- What an aligned window write stores and draws (20_memory.md R74; logs 36, 37). -/
theorem windowStore_of_aligned {a : Nat} {s : State} (ha : windowAligned a s.config.windowAccessBytes = true)
    (v : Nat) :
    ∃ (x : Nat) (m' : Memory) (n : Nat), windowStore a v s = some { s with mem := m', freeCtr := n } ∧
      memWrite a s.config.windowAccessBytes x s.mem = some m' ∧
      (writeOrdered s = true → x = v ∧ n = s.freeCtr) ∧ (writeOrdered s = false → n = s.freeCtr + 1) := by
  cases hst : windowStore a v s with
  | none =>
    rw [windowStore_eq_none_iff, ha] at hst
    cases hst
  | some t =>
    rcases windowStore_cases hst with ⟨ho, m', hm, rfl⟩ | ⟨ho, m', hm, rfl⟩
    · exact ⟨v, m', s.freeCtr, rfl, hm, fun _ => ⟨rfl, rfl⟩, by simp [ho]⟩
    · exact ⟨_, m', s.freeCtr + 1, rfl, hm, by simp [ho], fun _ => rfl⟩

/-- What an aligned window read returns and draws (20_memory.md R74; logs 36, 37). -/
theorem windowLoad_of_aligned {a : Nat} {s : State} (ha : windowAligned a s.config.windowAccessBytes = true) :
    ∃ d n : Nat, windowLoad a s = some (d, { s with freeCtr := n }) ∧
      (readOrdered s = true → n = s.freeCtr ∧
        unpackLE s.config.windowAccessBytes d = readBytes s.mem a s.config.windowAccessBytes) ∧
      (readOrdered s = false → n = s.freeCtr + 1) := by
  cases hld : windowLoad a s with
  | none =>
    rw [windowLoad_eq_none_iff, ha] at hld
    cases hld
  | some p =>
    obtain ⟨d, t⟩ := p
    rcases windowLoad_cases hld with ⟨ho, hd, rfl⟩ | ⟨ho, rfl, rfl⟩
    · rw [memRead, if_pos ha] at hd
      have hbytes := unpackLE_packLE (readBytes t.mem a t.config.windowAccessBytes)
      rw [length_readBytes, Option.some.inj hd] at hbytes
      exact ⟨d, t.freeCtr, rfl, fun _ => ⟨rfl, hbytes⟩, by simp [ho]⟩
    · exact ⟨_, s.freeCtr + 1, rfl, by simp [ho], fun _ => rfl⟩

/-! ### One HOST step of a call (43_command_boundary.md R212, R216) -/

/-- HOST goes on with its call at a free port (10_state.md R22). -/
theorem step_of_continueCall {s : State} {c : Call} {rest : List Event} (hc : s.config.wf = true)
    (ha : s.agenda = .continueCall :: rest) (hcmd : s.curCmd = .none) (hreq : s.request = none)
    (hcall : s.call = some c) : step s = consumerStep c { s with agenda := rest } := by
  have hturn : step s = continueTurn rest s := by rw [step_eq_turn hc, turn, ha]
  rw [hturn, continueTurn, if_pos ((portReady_iff s).mpr ⟨hcmd, hreq⟩), hcall]

theorem consumerStep_of_writing {c : Call} {addr : Nat} {rest : List Byte} (h : c.phase = .writing addr rest)
    (s : State) : consumerStep c s = callWrite c addr rest s := by
  rw [consumerStep, h]

theorem consumerStep_of_reading {c : Call} {addr remaining : Nat} {got : List Byte}
    (h : c.phase = .reading addr remaining got) (s : State) :
    consumerStep c s = callRead c addr remaining got s := by
  rw [consumerStep, h]

/-- A call's window write that is stored: the call goes on after the bytes written. -/
theorem callWrite_of_windowStore {c : Call} {addr : Nat} {rest : List Byte} {s t : State} (hrest : rest ≠ [])
    (h : windowStore addr (packLE (rest.take s.config.windowAccessBytes)) s = some t) :
    callWrite c addr rest s = .next (setPhase c
      (.writing (addr + s.config.windowAccessBytes) (rest.drop s.config.windowAccessBytes)) t) := by
  obtain ⟨b, bs, rfl⟩ := List.exists_cons_of_ne_nil hrest
  simp only [callWrite, h]

theorem callWrite_of_misaligned {c : Call} {addr : Nat} {rest : List Byte} {s : State} (hrest : rest ≠ [])
    (ha : windowAligned addr s.config.windowAccessBytes = false) :
    callWrite c addr rest s = .refused .misalignedWindow := by
  obtain ⟨b, bs, rfl⟩ := List.exists_cons_of_ne_nil hrest
  simp only [callWrite, (windowStore_eq_none_iff addr _ s).mpr ha]

/-- A call's window read that returned `d`: at most the bytes still wanted are taken. -/
theorem callRead_of_windowLoad {c : Call} {addr remaining d : Nat} {got : List Byte} {s t : State}
    (hpos : 0 < remaining) (h : windowLoad addr s = some (d, t)) :
    callRead c addr remaining got s = .next (setPhase c
      (.reading (addr + s.config.windowAccessBytes) (remaining - s.config.windowAccessBytes)
        (got ++ (unpackLE s.config.windowAccessBytes d).take remaining)) t) := by
  obtain ⟨k, rfl⟩ := Nat.exists_eq_add_one.mpr hpos
  simp only [callRead, h]

theorem callRead_of_misaligned {c : Call} {addr remaining : Nat} {got : List Byte} {s : State} (hpos : 0 < remaining)
    (ha : windowAligned addr s.config.windowAccessBytes = false) :
    callRead c addr remaining got s = .refused .misalignedWindow := by
  obtain ⟨k, rfl⟩ := Nat.exists_eq_add_one.mpr hpos
  simp only [callRead, (windowLoad_eq_none_iff addr s).mpr ha]

/-- Settles O57: the write is stored, its bytes those of the word packed from the input, or it is refused. -/
theorem callWritesOneWindowWord : Obligations.CallWritesOneWindowWord := by
  intro s c addr rest hc hag hcmd hreq hcall hph hrest hmem
  rw [step_of_continueCall hc hag hcmd hreq hcall, consumerStep_of_writing hph]
  refine ⟨fun hn hmod => ?_, fun hmis => ?_⟩
  · obtain ⟨x, m', n, hst, hm, hord, hunord⟩ := windowStore_of_aligned (s := { s with agenda := [] })
      ((windowAligned_iff _ _).mpr ⟨hn, hmod⟩) (packLE (rest.take s.config.windowAccessBytes))
    refine ⟨m', n, callWrite_of_windowStore hrest hst, fun ho => ?_, hunord,
      fun y hy => readByte_memWrite_outside hmem hm hy⟩
    obtain ⟨rfl, hfree⟩ := hord ho
    refine ⟨hfree, fun k hk => ?_⟩
    rw [readByte_memWrite_at hmem hm hk, ofNat_packLE_div, List.getElem?_take_of_lt hk]
  · exact callWrite_of_misaligned hrest ((windowAligned_eq_false_iff _ _).mpr hmis)

/-- Settles O59: the call ends, takes the bytes the read returns, or is refused. -/
theorem callReadsOneWindowWord : Obligations.CallReadsOneWindowWord := by
  intro s c addr remaining got hc hag hcmd hreq hcall hph
  rw [step_of_continueCall hc hag hcmd hreq hcall, consumerStep_of_reading hph]
  refine ⟨fun hzero => ?_, fun hpos hn hmod => ?_, fun hpos hmis => ?_⟩
  · subst hzero
    rfl
  · obtain ⟨d, n, hld, hord, hunord⟩ := windowLoad_of_aligned (s := { s with agenda := [] })
      ((windowAligned_iff addr _).mpr ⟨hn, hmod⟩)
    refine ⟨(unpackLE s.config.windowAccessBytes d).take remaining, n, ?_, fun ho => ?_, hunord,
      callRead_of_windowLoad hpos hld⟩
    · rw [List.length_take, length_unpackLE, min_comm]
    · obtain ⟨hfree, hbytes⟩ := hord ho
      refine ⟨hfree, fun k b hb => ?_⟩
      rw [List.getElem?_take, Option.ite_none_right_eq_some, hbytes] at hb
      obtain ⟨_, hread⟩ := hb
      exact eq_readByte_of_getElem?_readBytes hread
  · exact callRead_of_misaligned hpos ((windowAligned_eq_false_iff _ _).mpr hmis)

end Sys2Proof.Machine
end

section
/-! The fields of words taken apart and joined (30_encoding.md R91 to R94), and the decoder and the encoder as inverses
(O1, O2, O3, O4, O5). -/

namespace Sys2Proof.Machine

/-! ### One field of a word -/

/-- The bits a field was placed at hold it. -/
theorem extractLsb'_fieldAt_same {k : Nat} (n : Nat) (v : BitVec k) (h : n + k ≤ 64) :
    (fieldAt n v).extractLsb' n k = v := by
  apply BitVec.eq_of_getLsbD_eq
  intro i hi
  simp only [BitVec.getLsbD_extractLsb', fieldAt_getLsbD, hi, show n + i < 64 by omega, Nat.le_add_right,
    Nat.add_sub_cancel_left, decide_true, Bool.true_and]

/-- The bits beside a placed field are 0. -/
theorem extractLsb'_fieldAt_apart {j : Nat} (a n k : Nat) (v : BitVec j) (h : n + k ≤ a ∨ a + j ≤ n) :
    (fieldAt a v).extractLsb' n k = 0 := by
  apply BitVec.eq_of_getLsbD_eq
  intro i hi
  simp only [BitVec.getLsbD_extractLsb', hi, decide_true, Bool.true_and, fieldAt_getLsbD]
  rcases h with h | h
  · simp [show ¬ a ≤ n + i by omega]
  · simp [BitVec.getLsbD_of_ge v (n + i - a) (by omega)]

theorem fieldAt_zero {k : Nat} (n : Nat) : fieldAt n (0 : BitVec k) = 0 := by
  simp [fieldAt]

/-- Two neighbouring fields of a word, each put back in its place, are one field. -/
theorem fieldAt_extract_or (w : Word) {a n j k m : Nat} (ha : n + k = a) (hm : k + j = m) :
    fieldAt a (w.extractLsb' a j) ||| fieldAt n (w.extractLsb' n k) = fieldAt n (w.extractLsb' n m) := by
  subst ha hm
  apply BitVec.eq_of_getLsbD_eq
  intro i hi
  simp only [BitVec.getLsbD_or, fieldAt_getLsbD, BitVec.getLsbD_extractLsb', hi]
  rcases Nat.lt_or_ge i n with h | h
  · simp [show ¬ n ≤ i by omega, show ¬ n + k ≤ i by omega]
  rcases Nat.lt_or_ge i (n + k) with h' | h'
  · simp [h, show ¬ n + k ≤ i by omega, show i - n < k by omega, show i - n < k + j by omega]
  · rw [show n + k + (i - (n + k)) = i by omega, show n + (i - n) = i by omega]
    simp [h, h', show ¬ i - n < k by omega, show (i - (n + k) < j) ↔ (i - n < k + j) by omega]

theorem fieldAt_extract_all (w : Word) : fieldAt 0 (w.extractLsb' 0 64) = w := by
  simp [fieldAt]

/-! ### The fields of the messages and of a command word -/

theorem lastBit_bounds {c : Config} (hc : c.wf = true) : 35 ≤ c.epmapLastBit ∧ c.epmapLastBit ≤ 55 := by
  simp only [Config.wf, Bool.and_eq_true, decide_eq_true_eq] at hc
  omega

theorem memEndpoints_ne {c : Config} (hc : c.wf = true) :
    c.epMemMgmt ≠ 0 ∧ c.epMemStor ≠ 0 ∧ c.epMemMgmt ≠ c.epMemStor := by
  simp only [Config.wf, Bool.and_eq_true, decide_eq_true_eq] at hc
  obtain ⟨⟨⟨-, hmgmt⟩, hstor⟩, hne⟩ := hc
  exact ⟨hmgmt, hstor, hne⟩

theorem epmapMsg_fields {c : Config} (hc : c.wf = true) (bitmap : BitVec 32) (block : BitVec 3) (last : Bool)
    (ign0 : BitVec 21) (ign1 : BitVec 56) :
    msgEp (epmapMsg c bitmap block last ign0 ign1) = 0 ∧
    msgType (epmapMsg c bitmap block last ign0 ign1) = typeEpmap ∧
    msgLow32 (epmapMsg c bitmap block last ign0 ign1) = bitmap ∧
    msgBlock (epmapMsg c bitmap block last ign0 ign1) = block ∧
    (epmapMsg c bitmap block last ign0 ign1).w0.extractLsb' 35 21 =
      ign0 ||| (bitAt c.epmapLastBit last).extractLsb' 35 21 ∧
    ignoredW1 (epmapMsg c bitmap block last ign0 ign1) = ign1 := by
  obtain ⟨hlo, hhi⟩ := lastBit_bounds hc
  simp (disch := omega) [epmapMsg, bitAt, msgEp, msgType, msgLow32, msgBlock, ignoredW1, BitVec.extractLsb'_or,
    extractLsb'_fieldAt_same, extractLsb'_fieldAt_apart]

/-- Word 0 bit `35 + j` among the ignored bits of an endpoint map (30_encoding.md R91). -/
theorem ignoredMapBits_getLsbD {c : Config} (hc : c.wf = true) (m : Message) {j : Nat} (hj : j < 21) :
    (ignoredMapBits c m).getLsbD j = (m.w0.getLsbD (35 + j) && decide (35 + j ≠ c.epmapLastBit)) := by
  obtain ⟨hlo, hhi⟩ := lastBit_bounds hc
  have hbit : (1#21 <<< (c.epmapLastBit - 35)).getLsbD j = decide (35 + j = c.epmapLastBit) := by
    rw [BitVec.getLsbD_shiftLeft, BitVec.getLsbD_one]
    simp only [hj, decide_true, Bool.true_and, Nat.succ_pos]
    by_cases h : 35 + j = c.epmapLastBit <;> simp [h] <;> omega
  simp only [ignoredMapBits, BitVec.getLsbD_and, BitVec.getLsbD_not, BitVec.getLsbD_extractLsb', hj, hbit, decide_true,
    Bool.true_and, decide_not]

theorem bitAt_getLsbD (n : Nat) (v : Bool) {i : Nat} (hi : i < 64) : (bitAt n v).getLsbD i = (decide (i = n) && v) := by
  rw [bitAt, fieldAt_getLsbD, BitVec.getLsbD_ofBool]
  rcases Nat.lt_trichotomy i n with h | h | h
  · simp [hi, show ¬ n ≤ i by omega, show i ≠ n by omega]
  · simp [h, show n < 64 by omega]
  · simp [hi, show i - n ≠ 0 by omega, show i ≠ n by omega]

/-- A bit of word 0 bits 55:35 of an endpoint map is an ignored bit, or LAST at its position. -/
theorem epmapMsg_mapBit {c : Config} (hc : c.wf = true) (bitmap : BitVec 32) (block : BitVec 3) (last : Bool)
    (ign0 : BitVec 21) (ign1 : BitVec 56) {j : Nat} (hj : j < 21) :
    (epmapMsg c bitmap block last ign0 ign1).w0.getLsbD (35 + j) =
      (ign0.getLsbD j || (decide (35 + j = c.epmapLastBit) && last)) := by
  obtain ⟨-, -, -, -, hbits, -⟩ := epmapMsg_fields hc bitmap block last ign0 ign1
  have hbit := congrArg (fun b => BitVec.getLsbD b j) hbits
  simpa only [BitVec.getLsbD_or, BitVec.getLsbD_extractLsb', hj, decide_true, Bool.true_and,
    bitAt_getLsbD _ _ (show 35 + j < 64 by omega)] using hbit

/-- LAST stands at its position when the ignored bits leave the position clear (30_encoding.md R91). -/
theorem msgLast_epmapMsg {c : Config} (hc : c.wf = true) (bitmap : BitVec 32) (block : BitVec 3) (last : Bool)
    {ign0 : BitVec 21} (hclear : ign0.getLsbD (c.epmapLastBit - 35) = false) (ign1 : BitVec 56) :
    msgLast c (epmapMsg c bitmap block last ign0 ign1) = last := by
  obtain ⟨hlo, hhi⟩ := lastBit_bounds hc
  have hpos : 35 + (c.epmapLastBit - 35) = c.epmapLastBit := by omega
  have hbit := epmapMsg_mapBit hc bitmap block last ign0 ign1 (j := c.epmapLastBit - 35) (by omega)
  rw [hpos, hclear] at hbit
  simpa [msgLast] using hbit

theorem ignoredMapBits_epmapMsg {c : Config} (hc : c.wf = true) (bitmap : BitVec 32) (block : BitVec 3) (last : Bool)
    {ign0 : BitVec 21} (hclear : ign0.getLsbD (c.epmapLastBit - 35) = false) (ign1 : BitVec 56) :
    ignoredMapBits c (epmapMsg c bitmap block last ign0 ign1) = ign0 := by
  apply BitVec.eq_of_getLsbD_eq
  intro j hj
  rw [ignoredMapBits_getLsbD hc _ hj, epmapMsg_mapBit hc _ _ _ _ _ hj]
  by_cases h : 35 + j = c.epmapLastBit
  · rw [← h, Nat.add_sub_cancel_left] at hclear
    simp [h, hclear]
  · simp [h]

/-! ### The kinds of an inbound message (30_encoding.md R95) -/

/-- The message has the endpoint and the type of the instruction's kind, and the instruction's operands are the
message's fields (30_encoding.md R95 to R99): what `decodeInbound_eq_ok_iff` says the decoder decides. -/
def InboundFields (c : Config) (m : Message) : Instr → Prop
  | .bufreqMgmt type ign52 count ign0 ign1 =>
    msgEp m = c.epMemMgmt ∧ msgType m = type ∧ m.w0.extractLsb' 52 4 = ign52 ∧ msgCount m = count ∧
      m.w0.extractLsb' 0 44 = ign0 ∧ ignoredW1 m = ign1
  | .bufreqStor type ign52 count ign0 ign1 =>
    msgEp m = c.epMemStor ∧ msgType m = type ∧ m.w0.extractLsb' 52 4 = ign52 ∧ msgCount m = count ∧
      m.w0.extractLsb' 0 44 = ign0 ∧ ignoredW1 m = ign1
  | .hello ver ign0 ign1 =>
    msgEp m = 0 ∧ msgType m = typeHello ∧ msgLow32 m = ver ∧ m.w0.extractLsb' 32 24 = ign0 ∧ ignoredW1 m = ign1
  | .epmap bitmap block last ign0 ign1 =>
    msgEp m = 0 ∧ msgType m = typeEpmap ∧ msgLow32 m = bitmap ∧ msgBlock m = block ∧ msgLast c m = last ∧
      ignoredMapBits c m = ign0 ∧ ignoredW1 m = ign1
  | .pwrok low32 ign0 ign1 =>
    msgEp m = 0 ∧ msgType m = typePwrok ∧ msgLow32 m = low32 ∧ m.w0.extractLsb' 32 24 = ign0 ∧ ignoredW1 m = ign1
  | _ => False

/-- A message of endpoint 0 is of none of the memory endpoints, which R293 keeps apart from 0. -/
theorem decodeInbound_of_endpoint_zero {c : Config} (hc : c.wf = true) {m : Message} (hep : msgEp m = 0) :
    decodeInbound c m =
      if msgType m = typeHello then .ok (.hello (msgLow32 m) (m.w0.extractLsb' 32 24) (ignoredW1 m))
      else if msgType m = typeEpmap then
        .ok (.epmap (msgLow32 m) (msgBlock m) (msgLast c m) (ignoredMapBits c m) (ignoredW1 m))
      else if msgType m = typePwrok then .ok (.pwrok (msgLow32 m) (m.w0.extractLsb' 32 24) (ignoredW1 m))
      else .error .unexpectedMessage := by
  obtain ⟨hmgmt, hstor, -⟩ := memEndpoints_ne hc
  rw [decodeInbound, hep, if_neg hmgmt.symm, if_neg hstor.symm, if_neg (not_not_intro rfl)]

/-- The decoder gives an instruction exactly when the message has its kind and its operands: under a configuration R293
admits the conditions of R95 exclude each other. -/
theorem decodeInbound_eq_ok_iff {c : Config} (hc : c.wf = true) {m : Message} {i : Instr} :
    decodeInbound c m = .ok i ↔ InboundFields c m i := by
  constructor
  · intro h
    unfold decodeInbound at h
    split at h
    · next hep =>
      obtain rfl := Except.ok.inj h
      exact ⟨hep, rfl, rfl, rfl, rfl, rfl⟩
    split at h
    · next hep =>
      obtain rfl := Except.ok.inj h
      exact ⟨hep, rfl, rfl, rfl, rfl, rfl⟩
    split at h
    · cases h
    next hep =>
    have hep : msgEp m = 0 := not_not.mp hep
    split at h
    · next htype =>
      obtain rfl := Except.ok.inj h
      exact ⟨hep, htype, rfl, rfl, rfl⟩
    split at h
    · next htype =>
      obtain rfl := Except.ok.inj h
      exact ⟨hep, htype, rfl, rfl, rfl, rfl, rfl⟩
    split at h
    · next htype =>
      obtain rfl := Except.ok.inj h
      exact ⟨hep, htype, rfl, rfl, rfl⟩
    · cases h
  · intro h
    cases i
    case bufreqMgmt =>
      obtain ⟨hep, rfl, rfl, rfl, rfl, rfl⟩ := h
      exact if_pos hep
    case bufreqStor =>
      obtain ⟨hep, rfl, rfl, rfl, rfl, rfl⟩ := h
      obtain ⟨-, -, hne⟩ := memEndpoints_ne hc
      rw [decodeInbound, if_neg (hep.trans_ne hne.symm), if_pos hep]
    case hello =>
      obtain ⟨hep, htype, rfl, rfl, rfl⟩ := h
      rw [decodeInbound_of_endpoint_zero hc hep, if_pos htype]
    case epmap =>
      obtain ⟨hep, htype, rfl, rfl, rfl, rfl, rfl⟩ := h
      rw [decodeInbound_of_endpoint_zero hc hep, htype, if_neg (by decide), if_pos rfl]
    case pwrok =>
      obtain ⟨hep, htype, rfl, rfl, rfl⟩ := h
      rw [decodeInbound_of_endpoint_zero hc hep, htype, if_neg (by decide), if_neg (by decide), if_pos rfl]
    all_goals exact h.elim

theorem helloMsg_inboundFields (c : Config) (ver : BitVec 32) (ign0 : BitVec 24) (ign1 : BitVec 56) :
    InboundFields c (helloMsg ver ign0 ign1) (.hello ver ign0 ign1) := by
  simp (disch := omega) [InboundFields, helloMsg, msgEp, msgType, msgLow32, ignoredW1, BitVec.extractLsb'_or,
    extractLsb'_fieldAt_same, extractLsb'_fieldAt_apart]

theorem pwrokMsg_inboundFields (c : Config) (low32 : BitVec 32) (ign0 : BitVec 24) (ign1 : BitVec 56) :
    InboundFields c (pwrokMsg low32 ign0 ign1) (.pwrok low32 ign0 ign1) := by
  simp (disch := omega) [InboundFields, pwrokMsg, msgEp, msgType, msgLow32, ignoredW1, BitVec.extractLsb'_or,
    extractLsb'_fieldAt_same, extractLsb'_fieldAt_apart]

theorem bufreqMsg_fields (ep type : Byte) (ign52 : BitVec 4) (count : Byte) (ign0 : BitVec 44) (ign1 : BitVec 56) :
    msgEp (bufreqMsg ep type ign52 count ign0 ign1) = ep ∧
    msgType (bufreqMsg ep type ign52 count ign0 ign1) = type ∧
    (bufreqMsg ep type ign52 count ign0 ign1).w0.extractLsb' 52 4 = ign52 ∧
    msgCount (bufreqMsg ep type ign52 count ign0 ign1) = count ∧
    (bufreqMsg ep type ign52 count ign0 ign1).w0.extractLsb' 0 44 = ign0 ∧
    ignoredW1 (bufreqMsg ep type ign52 count ign0 ign1) = ign1 := by
  simp (disch := omega) [bufreqMsg, msgEp, msgType, msgCount, ignoredW1, BitVec.extractLsb'_or,
    extractLsb'_fieldAt_same, extractLsb'_fieldAt_apart]

theorem epmapMsg_inboundFields {c : Config} (hc : c.wf = true) (bitmap : BitVec 32) (block : BitVec 3) (last : Bool)
    {ign0 : BitVec 21} (hclear : ign0.getLsbD (c.epmapLastBit - 35) = false) (ign1 : BitVec 56) :
    InboundFields c (epmapMsg c bitmap block last ign0 ign1) (.epmap bitmap block last ign0 ign1) := by
  obtain ⟨hep, htype, hlow, hblock, -, hw1⟩ := epmapMsg_fields hc bitmap block last ign0 ign1
  exact ⟨hep, htype, hlow, hblock, msgLast_epmapMsg hc bitmap block last hclear ign1,
    ignoredMapBits_epmapMsg hc bitmap block last hclear ign1, hw1⟩

/-! ### A message put together again from its fields (30_encoding.md R91, R92) -/

section
variable (m : Message)

/-- Word 1 is its endpoint and the bits no field names. -/
theorem w1_of_fields : fieldAt 8 (ignoredW1 m) ||| fieldAt 0 (msgEp m) = m.w1 := by
  rw [ignoredW1, msgEp, fieldAt_extract_or _ (rfl : 0 + 8 = 8) (rfl : 8 + 56 = 64), fieldAt_extract_all]

theorem w1_of_endpoint_zero (hep : msgEp m = 0) : fieldAt 8 (ignoredW1 m) = m.w1 := by
  rw [← w1_of_fields m, hep, fieldAt_zero]
  exact BitVec.or_zero.symm

/-- Word 0 is its type, bits 55:32 and bits 31:0. -/
theorem w0_of_fields :
    fieldAt 56 (msgType m) ||| fieldAt 32 (m.w0.extractLsb' 32 24) ||| fieldAt 0 (msgLow32 m) = m.w0 := by
  rw [msgType, msgLow32, fieldAt_extract_or _ (rfl : 32 + 24 = 56) (rfl : 24 + 8 = 32),
    fieldAt_extract_or _ (rfl : 0 + 32 = 32) (rfl : 32 + 32 = 64), fieldAt_extract_all]

/-- Word 0 of a buffer request is its type, bits 55:52, its count and bits 43:0. -/
theorem w0_of_requestFields :
    fieldAt 56 (msgType m) ||| fieldAt 52 (m.w0.extractLsb' 52 4) ||| fieldAt 44 (msgCount m) |||
      fieldAt 0 (m.w0.extractLsb' 0 44) = m.w0 := by
  rw [msgType, msgCount, fieldAt_extract_or _ (rfl : 52 + 4 = 56) (rfl : 4 + 8 = 12),
    fieldAt_extract_or _ (rfl : 44 + 8 = 52) (rfl : 8 + 12 = 20),
    fieldAt_extract_or _ (rfl : 0 + 44 = 44) (rfl : 44 + 20 = 64), fieldAt_extract_all]

/-- Bits 55:35 of word 0 are the ignored bits of an endpoint map and its LAST marker. -/
theorem mapBits_of_fields {c : Config} (hc : c.wf = true) :
    fieldAt 35 (ignoredMapBits c m) ||| bitAt c.epmapLastBit (msgLast c m) = fieldAt 35 (m.w0.extractLsb' 35 21) := by
  obtain ⟨hlo, hhi⟩ := lastBit_bounds hc
  apply BitVec.eq_of_getLsbD_eq
  intro i hi
  rw [BitVec.getLsbD_or, bitAt_getLsbD _ _ hi, fieldAt_getLsbD, fieldAt_getLsbD, msgLast]
  by_cases hfield : 35 ≤ i ∧ i - 35 < 21
  · rw [ignoredMapBits_getLsbD hc m hfield.2, BitVec.getLsbD_extractLsb', show 35 + (i - 35) = i by omega]
    by_cases hlast : i = c.epmapLastBit
    · simp [hlast, hlo, show c.epmapLastBit < 64 by omega, show c.epmapLastBit - 35 < 21 by omega]
    · simp [hlast, hi, hfield]
  · have hlast : i ≠ c.epmapLastBit := by omega
    rcases Nat.lt_or_ge i 35 with h | h
    · simp [hlast, show ¬ 35 ≤ i by omega]
    · have hge : 21 ≤ i - 35 := by omega
      rw [BitVec.getLsbD_of_ge _ _ hge, BitVec.getLsbD_of_ge _ _ hge]
      simp [hlast]

/-- Word 0 of an endpoint map is its type, bits 55:35, its block and its bitmap. -/
theorem w0_of_mapFields {c : Config} (hc : c.wf = true) :
    fieldAt 56 (msgType m) ||| fieldAt 35 (ignoredMapBits c m) ||| bitAt c.epmapLastBit (msgLast c m) |||
      fieldAt 32 (msgBlock m) ||| fieldAt 0 (msgLow32 m) = m.w0 := by
  rw [BitVec.or_assoc (fieldAt 56 _), mapBits_of_fields m hc, msgType, msgBlock, msgLow32,
    fieldAt_extract_or _ (rfl : 35 + 21 = 56) (rfl : 21 + 8 = 29),
    fieldAt_extract_or _ (rfl : 32 + 3 = 35) (rfl : 3 + 29 = 32),
    fieldAt_extract_or _ (rfl : 0 + 32 = 32) (rfl : 32 + 32 = 64), fieldAt_extract_all]

end

/-- The encoder puts a decoded message together again, bit for bit. -/
theorem encode_of_inboundFields {c : Config} (hc : c.wf = true) {m : Message} {i : Instr} (h : InboundFields c m i) :
    encode c i = messageWords m := by
  cases i
  case bufreqMgmt =>
    obtain ⟨hep, rfl, rfl, rfl, rfl, rfl⟩ := h
    rw [encode, bufreqMsg, ← hep, w0_of_requestFields, w1_of_fields]
  case bufreqStor =>
    obtain ⟨hep, rfl, rfl, rfl, rfl, rfl⟩ := h
    rw [encode, bufreqMsg, ← hep, w0_of_requestFields, w1_of_fields]
  case hello =>
    obtain ⟨hep, htype, rfl, rfl, rfl⟩ := h
    rw [encode, helloMsg, ← htype, w0_of_fields, w1_of_endpoint_zero m hep]
  case epmap =>
    obtain ⟨hep, htype, rfl, rfl, rfl, rfl, rfl⟩ := h
    rw [encode, epmapMsg, ← htype, w0_of_mapFields m hc, w1_of_endpoint_zero m hep]
  case pwrok =>
    obtain ⟨hep, htype, rfl, rfl, rfl⟩ := h
    rw [encode, pwrokMsg, ← htype, w0_of_fields, w1_of_endpoint_zero m hep]
  all_goals exact h.elim

/-- The decoder leaves the LAST position clear in the ignored bits, and gives inbound kinds only. -/
theorem wf_of_inboundFields {c : Config} (hc : c.wf = true) {m : Message} {i : Instr} (h : InboundFields c m i) :
    i.source = .inbound ∧ i.wf c = true := by
  obtain ⟨hlo, hhi⟩ := lastBit_bounds hc
  cases i
  case epmap =>
    obtain ⟨-, -, -, -, -, rfl, -⟩ := h
    refine ⟨rfl, ?_⟩
    rw [Instr.wf, ignoredMapBits_getLsbD hc m (by omega)]
    simp [hlo]
  case bufreqMgmt | bufreqStor | hello | pwrok => exact ⟨rfl, rfl⟩
  all_goals exact h.elim

/-- Settles O2: the instruction's operands are the message's fields, and the fields joined are the message. -/
theorem inboundDecodeKeepsEveryBit : Obligations.InboundDecodeKeepsEveryBit := by
  intro c m i hc h
  have hfields := (decodeInbound_eq_ok_iff hc).mp h
  obtain ⟨hsource, hwf⟩ := wf_of_inboundFields hc hfields
  exact ⟨hsource, hwf, encode_of_inboundFields hc hfields⟩

/-! ### A command word (30_encoding.md R109, R110) -/

theorem cmdWord_fields (op sel : Byte) :
    cmdReserved (cmdWord op sel) = 0 ∧ cmdOp (cmdWord op sel) = op ∧ cmdSel (cmdWord op sel) = sel := by
  simp (disch := omega) [cmdWord, cmdReserved, cmdOp, cmdSel, BitVec.extractLsb'_or, extractLsb'_fieldAt_same,
    extractLsb'_fieldAt_apart]

theorem cmdWord_toNat (op sel : Byte) : (cmdWord op sel).toNat = op.toNat + sel.toNat * 256 := by
  have hop : (fieldAt 0 op).toNat = op.toNat := by rw [fieldAt_toNat 0 op (by omega), Nat.pow_zero, Nat.mul_one]
  rw [cmdWord, or_toNat_add sel.toNat 8 _ _ (fieldAt_toNat 8 sel (by omega)) (hop ▸ op.isLt), hop, Nat.add_comm,
    show 2 ^ 8 = 256 from rfl]

/-- A number OP + SEL * 256 is the command word of OP and SEL. -/
theorem eq_cmdWord {cmd : Word} {op sel : Byte} (h : cmd.toNat = op.toNat + sel.toNat * 256) : cmd = cmdWord op sel :=
  BitVec.eq_of_toNat_eq (h.trans (cmdWord_toNat op sel).symm)

theorem decodeCommand_resvInit (base limit : Word) :
    decodeCommand (cmdWord 0x01 0) base limit = .ok (.resvInit base limit) := rfl

theorem decodeCommand_boot (a0 a1 : Word) : decodeCommand (cmdWord 0x02 0) a0 a1 = .ok .boot := rfl

theorem decodeCommand_rdreg (sel : Byte) (a0 a1 : Word) :
    decodeCommand (cmdWord 0x05 sel) a0 a1 = .ok (.rdreg sel) := by
  obtain ⟨hres, hop, hsel⟩ := cmdWord_fields 0x05 sel
  simp only [decodeCommand, hres, hop, hsel]
  rfl

theorem decodeCommand_rdep (idx : Byte) (a0 a1 : Word) :
    decodeCommand (cmdWord 0x06 idx) a0 a1 = .ok (.rdep idx) := by
  obtain ⟨hres, hop, hsel⟩ := cmdWord_fields 0x06 idx
  simp only [decodeCommand, hres, hop, hsel]
  rfl

theorem decodeOutbound_bufgrantMsg (c : Config) (upper : BitVec 20) (addr : BitVec 44) (w1 : Word) :
    decodeOutbound c .bufgrant (bufgrantMsg upper addr w1) = .ok (.bufgrant upper addr w1) := by
  simp (disch := omega) [decodeOutbound, bufgrantMsg, BitVec.extractLsb'_or, extractLsb'_fieldAt_same,
    extractLsb'_fieldAt_apart]

/-- Settles O1: one case for each constructor, by what its words' fields are. -/
theorem decodeOfEncodeGivesInstruction : Obligations.DecodeOfEncodeGivesInstruction := by
  intro c i hc hi
  have inbound {m : Message} (h : InboundFields c m i) : decodeInbound c m = .ok i := (decodeInbound_eq_ok_iff hc).mpr h
  cases i
  case resvInit base limit => exact decodeCommand_resvInit base limit
  case boot => exact decodeCommand_boot 0 0
  case send w0 w1 => exact decodeCommand_send w0 w1
  case recv ch => exact decodeCommand_recv ch 0 0
  case rdreg sel => exact decodeCommand_rdreg sel 0 0
  case rdep idx => exact decodeCommand_rdep idx 0 0
  case hello ver ign0 ign1 => exact inbound (helloMsg_inboundFields c ver ign0 ign1)
  case epmap bitmap block last ign0 ign1 =>
    exact inbound (epmapMsg_inboundFields hc bitmap block last (by simpa [Instr.wf] using hi) ign1)
  case pwrok low32 ign0 ign1 => exact inbound (pwrokMsg_inboundFields c low32 ign0 ign1)
  case bufreqMgmt type ign52 count ign0 ign1 => exact inbound (bufreqMsg_fields c.epMemMgmt type ign52 count ign0 ign1)
  case bufreqStor type ign52 count ign0 ign1 => exact inbound (bufreqMsg_fields c.epMemStor type ign52 count ign0 ign1)
  case idleReq => exact if_pos rfl
  case helloAck ver => exact decodeOutbound_helloAckMsg c ver
  case epack last block => exact decodeOutbound_epackMsg hc last block
  case epstart epid => exact decodeOutbound_epstartMsg c epid
  case bufgrant upper addr w1 => exact decodeOutbound_bufgrantMsg c upper addr w1
  case pwrack low32 => exact decodeOutbound_pwrackMsg c low32

/-- Settles O4: each legal command word is the `cmdWord` of its OP and SEL; the samples are evaluated. -/
theorem sampleWordsDecode : Obligations.SampleWordsDecode := by
  refine ⟨fun cmd a0 a1 sel => ?_, by decide, by decide, by decide, by decide, by decide⟩
  refine ⟨fun h => ?_, fun h => ?_, fun h => ?_, fun h => ?_, fun h => ?_, fun h => ?_⟩
  · rw [eq_cmdWord (op := 0x01) (sel := 0) h, decodeCommand_resvInit]
  · rw [eq_cmdWord (op := 0x02) (sel := 0) h, decodeCommand_boot]
  · rw [eq_cmdWord (op := 0x03) (sel := 0) h, decodeCommand_send]
  · rw [eq_cmdWord (op := 0x04) h, decodeCommand_recv]
  · rw [eq_cmdWord (op := 0x05) h, decodeCommand_rdreg]
  · rw [eq_cmdWord (op := 0x06) h, decodeCommand_rdep]

/-! ### The fields as numbers (30_encoding.md R93) -/

theorem field_toNat (w : Word) (n k : Nat) : (w.extractLsb' n k).toNat = w.toNat / 2 ^ n % 2 ^ k := by
  rw [BitVec.extractLsb'_toNat, Nat.shiftRight_eq_div_pow]

theorem msgLow32_toNat (m : Message) : (msgLow32 m).toNat = m.w0.toNat % 2 ^ 32 := by
  rw [msgLow32, field_toNat, Nat.pow_zero, Nat.div_one]

theorem ignoredW1_toNat (m : Message) : (ignoredW1 m).toNat = m.w1.toNat / 2 ^ 8 := by
  have := m.w1.isLt
  rw [ignoredW1, field_toNat]
  omega

theorem requestFields_toNat (m : Message) :
    (msgType m).toNat = m.w0.toNat / 2 ^ 56 ∧ (m.w0.extractLsb' 52 4).toNat = m.w0.toNat / 2 ^ 52 % 16 ∧
    (msgCount m).toNat = m.w0.toNat / 2 ^ 44 % 256 ∧ (m.w0.extractLsb' 0 44).toNat = m.w0.toNat % 2 ^ 44 ∧
    (ignoredW1 m).toNat = m.w1.toNat / 2 ^ 8 := by
  refine ⟨msgType_toNat m, field_toNat _ 52 4, field_toNat _ 44 8, ?_, ignoredW1_toNat m⟩
  rw [field_toNat, Nat.pow_zero, Nat.div_one]

theorem controlFields_toNat (m : Message) :
    (msgLow32 m).toNat = m.w0.toNat % 2 ^ 32 ∧ (m.w0.extractLsb' 32 24).toNat = m.w0.toNat / 2 ^ 32 % 2 ^ 24 ∧
    (ignoredW1 m).toNat = m.w1.toNat / 2 ^ 8 :=
  ⟨msgLow32_toNat m, field_toNat _ 32 24, ignoredW1_toNat m⟩

/-- Settles O3: the decoder's kinds are `InboundFields`, whose conditions and operands are read as numbers. -/
theorem inboundKindIsByEndpointAndType : Obligations.InboundKindIsByEndpointAndType := by
  intro c m hc
  have zero_iff : msgEp m = 0 ↔ m.w1.toNat % 256 = 0 := msgEp_eq_iff m 0
  simp only [decodeInbound_eq_ok_iff hc, InboundFields, ← msgEp_eq_iff, ← zero_iff]
  refine ⟨?_, ?_, ?_, ?_, ?_, ?_, ?_, ?_⟩
  · simp
  · simp
  · simp [msgType_eq_iff]
  · simp [msgType_eq_iff]
  · simp [msgType_eq_iff]
  · rintro t x n a b (⟨-, rfl, rfl, rfl, rfl, rfl⟩ | ⟨-, rfl, rfl, rfl, rfl, rfl⟩) <;> exact requestFields_toNat m
  · rintro v a b (⟨-, -, rfl, rfl, rfl⟩ | ⟨-, -, rfl, rfl, rfl⟩) <;> exact controlFields_toNat m
  · rintro b k l x y ⟨-, -, rfl, rfl, rfl, rfl, rfl⟩
    exact ⟨msgLow32_toNat m, field_toNat _ 32 3, rfl, fun j hj => ignoredMapBits_getLsbD hc m hj, ignoredW1_toNat m⟩

/-! ### Reserved command encodings (30_encoding.md R111) -/

/-- A decoded command word has an assigned OP, the reserved bits clear, and no selector where the command has none. -/
theorem fields_of_decodeCommand {cmd a0 a1 : Word} {i : Instr} (h : decodeCommand cmd a0 a1 = .ok i) :
    cmdReserved cmd = 0 ∧ 1 ≤ (cmdOp cmd).toNat ∧ (cmdOp cmd).toNat ≤ 6 ∧
      ((cmdOp cmd).toNat ≤ 3 → cmdSel cmd = 0) := by
  unfold decodeCommand at h
  split at h
  · cases h
  split at h
  · cases h
  next hres hsel =>
  have hres : cmdReserved cmd = 0 := not_not.mp hres
  have hsel : cmdOp cmd = 1 ∨ cmdOp cmd = 2 ∨ cmdOp cmd = 3 → cmdSel cmd = 0 :=
    fun hop => not_not.mp fun hne => hsel ⟨hop, hne⟩
  split at h
  · next hop => exact ⟨hres, by simp [hop], by simp [hop], fun _ => hsel (.inl hop)⟩
  split at h
  · next hop => exact ⟨hres, by simp [hop], by simp [hop], fun _ => hsel (.inr (.inl hop))⟩
  split at h
  · next hop => exact ⟨hres, by simp [hop], by simp [hop], fun _ => hsel (.inr (.inr hop))⟩
  split at h
  · next hop => exact ⟨hres, by simp [hop], by simp [hop], by simp [hop]⟩
  split at h
  · next hop => exact ⟨hres, by simp [hop], by simp [hop], by simp [hop]⟩
  split at h
  · next hop => exact ⟨hres, by simp [hop], by simp [hop], by simp [hop]⟩
  · cases h

/-- The reserved encodings of R111 are no command. -/
theorem decodeCommand_ne_ok_of_reserved {cmd : Word} (h : cmd.toNat % 256 = 0 ∨ 7 ≤ cmd.toNat % 256 ∨
    cmd.toNat / 2 ^ 16 ≠ 0 ∨ (1 ≤ cmd.toNat % 256 ∧ cmd.toNat % 256 ≤ 3 ∧ cmd.toNat / 2 ^ 8 % 256 ≠ 0))
    (a0 a1 : Word) (i : Instr) : decodeCommand cmd a0 a1 ≠ .ok i := by
  intro hd
  obtain ⟨hres, hlo, hhi, hsel⟩ := fields_of_decodeCommand hd
  rw [cmdOp_toNat] at hlo hhi hsel
  rcases h with h | h | h | ⟨-, h, hne⟩
  · omega
  · omega
  · exact h ((cmdReserved_eq_iff cmd 0).mp hres)
  · exact hne ((cmdSel_eq_iff cmd 0).mp (hsel h))

/-- Settles O5: a reserved encoding is no command, and the block turns it away. -/
theorem reservedCommandCompletesIllegalOp : Obligations.ReservedCommandCompletesIllegalOp := by
  intro s r hnext hcmd hr hreserved
  refine ⟨?_, rfl⟩
  rw [step_of_blockNext hnext]
  simp only [blockStep, hcmd, hr, acceptStep]
  split
  · next i hd => exact absurd hd (decodeCommand_ne_ok_of_reserved hreserved _ _ i)
  · rfl

end Sys2Proof.Machine
end

section
/-! What the inbound kinds do in and outside their states (O25, O31, O33), and what sending each outbound kind does
(O34, O35, O36, O37). -/

namespace Sys2Proof.Machine

/-! ### A kind outside its state (30_encoding.md R95, R106) -/

theorem isWait_acceptingState {i : Instr} (hi : i.source = .inbound) : isWait (acceptingState i) = true := by
  cases i
  case hello | epmap | pwrok | bufreqMgmt | bufreqStor => rfl
  all_goals cases hi

/-- An inbound kind in a state that does not accept it is an unexpected message, with the words its encoder writes. -/
theorem exec_of_not_accepting {i : Instr} {s : State} (hi : i.source = .inbound) (hf : s.fsm ≠ acceptingState i) :
    ∃ m, encode s.config i = messageWords m ∧ exec i s = unexpectedMessage m s := by
  cases i
  case hello => exact ⟨_, rfl, if_neg hf⟩
  case epmap => exact ⟨_, rfl, if_neg fun h => hf h.1⟩
  case pwrok => exact ⟨_, rfl, if_neg hf⟩
  case bufreqMgmt => exact ⟨_, rfl, if_neg hf⟩
  case bufreqStor => exact ⟨_, rfl, if_neg hf⟩
  all_goals cases hi

/-- An outbound kind in a state that does not send it (log 16). -/
theorem exec_of_not_sending {i : Instr} {k : OutKind} {s : State} (hi : i.source = .outbound k)
    (hf : s.fsm ≠ kindState k) : exec i s = .refused .notSending := by
  cases i
  case idleReq | helloAck | epack | epstart | bufgrant | pwrack =>
    cases hi
    exact if_neg hf
  all_goals cases hi

/-- Settles O25: outside its state an inbound kind is an unexpected message, and an outbound kind is not sent. -/
theorem messageKindsOutsideTheirStates : Obligations.MessageKindsOutsideTheirStates := by
  intro i s
  refine ⟨fun w0 w1 hi hw hf henc => ?_, fun hi hw => ?_, fun k hi hf => exec_of_not_sending hi hf⟩
  · obtain ⟨m, hm, hexec⟩ := exec_of_not_accepting hi hf
    obtain ⟨rfl, rfl⟩ : m.w0 = w0 ∧ m.w1 = w1 := by simpa [messageWords] using hm.symm.trans henc
    rw [hexec, unexpectedMessage_eq hw]
    rfl
  · have hf : s.fsm ≠ acceptingState i := fun h => by rw [h, isWait_acceptingState hi] at hw; cases hw
    obtain ⟨m, -, hexec⟩ := exec_of_not_accepting hi hf
    rw [hexec, unexpectedMessage, hw, if_neg Bool.false_ne_true]

/-! ### The kinds WAIT_PWROK accepts (41_bootstrap.md R167, R168) -/

/-- Settles O33: the latch holds the power ack of the message's low 32 bits. -/
theorem pwrokComposesPowerAck : Obligations.PwrokComposesPowerAck :=
  fun low32 _ _ _ hf => ⟨(pwrackMsg low32).w0, pwrackMsg_w0_toNat low32, if_pos hf⟩

/-- A request that fits is granted the bytes from the cursor on (42_arbiter.md R194, 30_encoding.md R104). -/
theorem serveBufferRequest_of_fits {count : Byte} {s : State}
    (hfit : s.resvCursor.toNat + requestSize count ≤ s.resvLimit.toNat) (ep type : Byte) (ign52 : BitVec 4)
    (ign0 : BitVec 44) (ign1 : BitVec 56) :
    serveBufferRequest (bufreqMsg ep type ign52 count ign0 ign1) (requestSize count) s =
      enter .sendGrant (setTx (bufreqMsg ep type ign52 count (s.resvBase + s.resvCursor) ign1)
        { s with resvCursor := BitVec.ofNat 44 (s.resvCursor.toNat + requestSize count) }) := by
  rw [serveBufferRequest, allocate, if_neg (Nat.not_lt.mpr hfit)]
  simp only [grant_bufreq]

/-- Settles O31: both endpoints' requests are served alike, and the address and the cursor do not wrap. -/
theorem bufferRequestIsGranted : Obligations.BufferRequestIsGranted := by
  intro type ign52 count ign0 ign1 s hf hfit hbound
  have haddr : (s.resvBase + s.resvCursor).toNat = s.resvBase.toNat + s.resvCursor.toNat := by
    rw [BitVec.toNat_add]
    omega
  have hcursor : (BitVec.ofNat 44 (s.resvCursor.toNat + requestSize count)).toNat =
      s.resvCursor.toNat + count.toNat * 4096 := by
    rw [BitVec.toNat_ofNat, requestSize, pageSize]
    omega
  have hserve := fun ep => serveBufferRequest_of_fits hfit ep type ign52 ign0 ign1
  refine ⟨_, (bufreqMsg s.config.epMemMgmt type ign52 count (s.resvBase + s.resvCursor) ign1).w0, _, _, hcursor, ?_,
    bufreqMsg_w1_toNat _ type ign52 count (s.resvBase + s.resvCursor) ign1,
    bufreqMsg_w1_toNat _ type ign52 count (s.resvBase + s.resvCursor) ign1, ?_, ?_⟩
  · rw [bufreqMsg_w0_toNat, haddr]
  · exact (if_pos hf).trans (congrArg _ (hserve s.config.epMemMgmt))
  · exact (if_pos hf).trans (congrArg _ (hserve s.config.epMemStor))

/-! ### Sending the latch (41_bootstrap.md R152) -/

/-- A kind's SEND_* state with space in OUTQ pushes the message and goes on. -/
theorem sendFrom_of_room {f : FsmState} {s : State} (hf : s.fsm = f) (hroom : s.outq.length ≠ s.config.outDepth)
    (t : Message) (after : State → State) : sendFrom f t after s = .next (after (push t (spendPoll s))) := by
  rw [sendFrom, if_pos hf]
  rcases sendStep_cases t after s with ⟨-, he⟩ | ⟨hfull, -⟩ | ⟨hfull, -⟩
  · rw [he]
  · exact absurd hfull hroom
  · exact absurd hfull hroom

/-- Settles O34: in its state each kind is pushed, and its own next state is entered. -/
theorem idleReqHelloAckAndGrantAreSent : Obligations.IdleReqHelloAckAndGrantAreSent := by
  intro s hroom
  refine ⟨fun hf => ?_, fun ver hf => ?_, fun upper addr w1 hf => ?_⟩
  · exact ⟨_, idleReqMsg_w0_toNat s.config, sendFrom_of_room hf hroom (idleReqMsg s.config) afterIdleReq⟩
  · exact ⟨_, helloAckMsg_w0_toNat s.config ver, sendFrom_of_room hf hroom (helloAckMsg s.config ver) afterHelloAck⟩
  · exact ⟨_, bufgrantMsg_w0_toNat upper addr w1, sendFrom_of_room hf hroom (bufgrantMsg upper addr w1) afterGrant⟩

/-- Settles O37: what follows the pushed power ack is DONE and the completion. -/
theorem pwrackIsSentAndBootCompletes : Obligations.PwrackIsSentAndBootCompletes :=
  fun low32 _ hf hroom =>
    ⟨_, pwrackMsg_w0_toNat low32, sendFrom_of_room hf hroom (pwrackMsg low32) afterPwrack⟩

/-! ### The endpoint start loop (41_bootstrap.md R165) -/

theorem epCount_toNat {s : State} (h : s.epList.length ≤ 256) : (epCount s).toNat = s.epList.length := by
  rw [epCount, BitVec.toNat_ofNat]
  omega

/-- With no nonzero entry from `i` on the power loop is entered. -/
theorem startFrom_of_none {i : Nat} {s : State} (h : ∀ k e, i ≤ k → s.epList[k]? = some e → e = 0) :
    startFrom i s = enter .waitPwrok { s with epIdx := epCount s } := by
  rw [startFrom, nextStart_none_of h]

/-- The first nonzero entry from `i` on is started. -/
theorem startFrom_of_some {i j : Nat} {e : Byte} {s : State} (hij : i ≤ j) (hj : s.epList[j]? = some e) (he : e ≠ 0)
    (hzero : ∀ k, i ≤ k → k < j → s.epList[k]? = some 0) :
    startFrom i s = enter .sendEpstart (setTx (epstartMsg s.config e) { s with epIdx := BitVec.ofNat 9 j }) := by
  rw [startFrom, nextStart_of hij hj he hzero]

/-- An index of a list within EP_IDX's range. -/
theorem epIdx_toNat {l : List Byte} {j : Nat} {e : Byte} (hl : l.length ≤ 256) (hj : l[j]? = some e) :
    (BitVec.ofNat 9 j).toNat = j := by
  obtain ⟨hlt, -⟩ := List.getElem?_eq_some_iff.mp hj
  rw [BitVec.toNat_ofNat]
  omega

/-- After an epack whose map was not the last the next map is awaited (41_bootstrap.md R163). -/
theorem afterEpack_of_not_last {s : State} (h : s.epmapLast = false) : afterEpack s = enter .waitEpmap s := by
  rw [afterEpack, h, if_neg Bool.false_ne_true]

/-- After the last map's epack the endpoints are started from the first (41_bootstrap.md R163). -/
theorem afterEpack_of_last {s : State} (h : s.epmapLast = true) : afterEpack s = startFrom 0 s := if_pos h

/-- Settles O35: what follows the push, by EPMAP_LAST and by what `start_from(0)` finds. -/
theorem epackIsSentThenLoopsOrStarts : Obligations.EpackIsSentThenLoopsOrStarts := by
  intro last block s hc hf hroom hlen
  refine ⟨(epackMsg s.config last block).w0, _, epackMsg_w0_toNat s.config hc last block, rfl, ?_⟩
  have hexec : exec (.epack last block) s =
      .next (afterEpack (push (epackMsg s.config last block) (spendPoll s))) := sendFrom_of_room hf hroom _ _
  have hstart (hlast : s.epmapLast = true) : exec (.epack last block) s =
      .next (startFrom 0 (push (epackMsg s.config last block) (spendPoll s))) :=
    hexec.trans (congrArg Host.Outcome.next (afterEpack_of_last (s := push _ (spendPoll s)) hlast))
  refine ⟨fun hlast => hexec.trans (congrArg Host.Outcome.next (afterEpack_of_not_last hlast)), fun hlast hzero => ?_,
    fun j e hlast hj he hzero => ?_⟩
  · refine ⟨epCount s, epCount_toNat hlen, (hstart hlast).trans (congrArg Host.Outcome.next ?_)⟩
    exact startFrom_of_none fun k e _ hk => hzero e (List.mem_of_getElem? hk)
  · refine ⟨BitVec.ofNat 9 j, (epstartMsg s.config e).w0, epIdx_toNat hlen hj, epstartMsg_w0_toNat s.config e,
      (hstart hlast).trans (congrArg Host.Outcome.next ?_)⟩
    exact startFrom_of_some (Nat.zero_le j) hj he fun k _ => hzero k

/-- Entering the SEND_* or WAIT_* state the FSM is in only fills the poll budget (41_bootstrap.md R151). -/
theorem enter_same {s : State} {f : FsmState} (hs : s.fsm = f) (hf : (isSend f || isWait f) = true) :
    enter f s = { s with pollCtr := s.config.pollBudget } := by
  subst hs
  rw [enter, if_pos hf]

/-- Settles O36: what follows the push, by what `start_from(EP_IDX + 1)` finds. -/
theorem epstartIsSentThenNextStartOrPowerLoop : Obligations.EpstartIsSentThenNextStartOrPowerLoop := by
  intro epid s hf hroom hlen
  refine ⟨(epstartMsg s.config epid).w0, _, epstartMsg_w0_toNat s.config epid, rfl, ?_⟩
  have hexec : exec (.epstart epid) s =
      .next (startFrom (s.epIdx.toNat + 1) (push (epstartMsg s.config epid) (spendPoll s))) :=
    sendFrom_of_room hf hroom _ _
  rw [hexec]
  refine ⟨fun hzero => ?_, fun j e hlt hj he hzero => ?_⟩
  · exact ⟨epCount s, epCount_toNat hlen, congrArg Host.Outcome.next (startFrom_of_none hzero)⟩
  · refine ⟨BitVec.ofNat 9 j, (epstartMsg s.config e).w0, epIdx_toNat hlen hj, epstartMsg_w0_toNat s.config e,
      congrArg Host.Outcome.next ((startFrom_of_some (s := push _ (spendPoll s)) hlt hj he hzero).trans ?_)⟩
    exact enter_same hf rfl

end Sys2Proof.Machine
end

section
/-! One poll iteration of a host SEND and RECV and of the bootstrap's states (O10, O11, O38, O39), and the whole run
of a host SEND and RECV with no further event (O12, O13, O14). -/

namespace Sys2Proof.Machine

/-! ### A poll iteration's outcome, by its condition (40_transport.md R132, R134) -/

theorem spendPoll_of_last {s : State} (h : s.pollCtr = 1) : spendPoll s = { s with pollCtr := 0 } := by
  rw [spendPoll, h]

/-- Taking the tail of an empty INQ leaves the state as it was. -/
theorem setInq_tail_of_empty {s : State} (h : s.inq = []) : setInq s.inq.tail s = s := by
  rw [h, List.tail_nil, ← h]
  rfl

theorem sendIter_of_room {s : State} (h : s.outq.length ≠ s.config.outDepth) (t : Message) :
    sendIter t s = .sent (push t (spendPoll s)) :=
  if_pos (by simp [outFull, h])

theorem sendIter_of_full {s : State} (h : s.outq.length = s.config.outDepth) (t : Message) :
    sendIter t s = if s.pollCtr - 1 = 0 then .timeout (spendPoll s) else .again (spendPoll s) :=
  if_neg (by simp [outFull, h])

/-- A head of INQ that the filter accepts is taken (40_transport.md R134). -/
theorem recvIter_of_accepted {f : RecvFilter} {s : State} {m : Message} {rest : List Message} (hq : s.inq = m :: rest)
    (hm : accepts f m = true) : recvIter f s = .got m (setInq rest (spendPoll s)) := by
  simp only [recvIter, pop_eq, spendPoll_inq, hq, hm, if_true]

/-- A head of INQ that the filter rejects is lost, and with none there is none to lose (40_transport.md R134, R137). -/
theorem recvIter_of_notAccepted {f : RecvFilter} {s : State} (h : ∀ m ∈ s.inq.head?, accepts f m = false) :
    recvIter f s = if s.pollCtr - 1 = 0 then .timeout (setInq s.inq.tail (spendPoll s))
      else .again (setInq s.inq.tail (spendPoll s)) := by
  rcases recvIter_cases f s with ⟨m, rest, hq, hm, -⟩ | ⟨m, rest, hq, -, he⟩ | ⟨hq, he⟩
  · exact absurd (h m (by rw [hq]; rfl)) (by rw [hm]; decide)
  · rw [he, hq]
    rfl
  · have hs : setInq s.inq.tail (spendPoll s) = spendPoll s := setInq_tail_of_empty (s := spendPoll s) hq
    rw [he, hs]
    rfl

/-! ### A step of a host SEND or RECV in progress (44_host_interface.md R236, R237) -/

theorem sendCommandStep_of_room {s : State} (h : s.outq.length ≠ s.config.outDepth) :
    sendCommandStep s = complete .ok 0 0 (push (txMsg s) (spendPoll s)) := by
  rw [sendCommandStep, sendIter_of_room h]

theorem sendCommandStep_of_full {s : State} (h : s.outq.length = s.config.outDepth) :
    sendCommandStep s = if s.pollCtr - 1 = 0 then complete .timeoutSend 0 0 (spendPoll s) else spendPoll s := by
  rw [sendCommandStep, sendIter_of_full h]
  split_ifs <;> rfl

theorem recvCommandStep_of_tag {s : State} {m : Message} {rest : List Message} (hq : s.inq = m :: rest)
    (hm : msgEp m = s.curCh) : recvCommandStep s = complete .ok m.w0 m.w1 (setInq rest (spendPoll s)) := by
  rw [recvCommandStep, recvIter_of_accepted (f := .tag s.curCh) hq (decide_eq_true hm)]

theorem recvCommandStep_of_noTag {s : State} (h : ∀ m ∈ s.inq.head?, msgEp m ≠ s.curCh) :
    recvCommandStep s = if s.pollCtr - 1 = 0 then complete .timeoutRecv 0 0 (setInq s.inq.tail (spendPoll s))
      else setInq s.inq.tail (spendPoll s) := by
  rw [recvCommandStep, recvIter_of_notAccepted (f := .tag s.curCh) fun m hm => decide_eq_false (h m hm)]
  split_ifs <;> rfl

theorem step_of_send {s : State} (hb : blockNext s = true) (hc : s.curCmd = .send) :
    step s = .next (sendCommandStep s) := by
  rw [step_of_blockNext hb, blockStep, hc]

theorem step_of_recv {s : State} (hb : blockNext s = true) (hc : s.curCmd = .recv) :
    step s = .next (recvCommandStep s) := by
  rw [step_of_blockNext hb, blockStep, hc]

/-- Settles O10: the latch is pushed, or with OUTQ full the poll iteration is the last or is not. -/
theorem hostSendIteration : Obligations.HostSendIteration := by
  intro s hb hc hpoll
  rw [step_of_send hb hc]
  refine ⟨fun hroom => ?_, fun hfull hlast => ?_, fun hfull hmore => ?_⟩
  · rw [sendCommandStep_of_room hroom]
    rfl
  · rw [sendCommandStep_of_full hfull, if_pos (by omega), spendPoll_of_last hlast]
    rfl
  · rw [sendCommandStep_of_full hfull, if_neg (by omega)]
    rfl

/-- Settles O11: the head is of the tag, or it is lost and the poll iteration is the last or is not. -/
theorem hostRecvIteration : Obligations.HostRecvIteration := by
  intro s hb hc hpoll
  rw [step_of_recv hb hc]
  refine ⟨fun m rest hq hm => ?_, fun hnone => ?_⟩
  · rw [recvCommandStep_of_tag hq ((msgEp_eq_iff m s.curCh).mpr hm)]
    rfl
  · have hhead : ∀ m ∈ s.inq.head?, msgEp m ≠ s.curCh := by
      rcases hnone with ⟨m, rest, hq, hm⟩ | hq <;> rw [hq]
      · rintro _ ⟨⟩
        exact mt (msgEp_eq_iff m s.curCh).mp hm
      · rintro _ ⟨⟩
    rw [recvCommandStep_of_noTag hhead]
    refine ⟨fun hlast => ?_, fun hmore => ?_⟩
    · rw [if_pos (by omega), spendPoll_of_last hlast]
      rfl
    · rw [if_neg (by omega)]
      rfl

/-! ### A host SEND or RECV in progress, from its first poll iteration to its last (40_transport.md R131) -/

/-- A run goes on from where a shorter run ended. -/
theorem run_add {k : Nat} {s t : State} (h : run k s = .next t) (j : Nat) : run (k + j) s = run j t := by
  induction k generalizing s with
  | zero =>
    obtain rfl : s = t := Host.Outcome.next.inj h
    rw [Nat.zero_add]
  | succ k ih =>
    rw [Nat.add_right_comm]
    cases hs : step s with
    | next u => rw [run_succ hs, ih ((run_succ hs).symm.trans h)]
    | fault r => simp only [run, hs, reduceCtorEq] at h
    | refused r => simp only [run, hs, reduceCtorEq] at h

theorem run_one {s t : State} (h : step s = .next t) : run 1 s = .next t := run_succ h

/-- A SEND with OUTQ full spends a poll iteration a step, all but the last (40_transport.md R132). -/
theorem run_send_of_full {n : Nat} {s : State} (hb : blockNext s = true) (hc : s.curCmd = .send)
    (hfull : s.outq.length = s.config.outDepth) (hn : n < s.pollCtr) :
    run n s = .next { s with pollCtr := s.pollCtr - n } := by
  induction n with
  | zero => rfl
  | succ n ih =>
    have hleft : 1 ≤ s.pollCtr - n ∧ s.pollCtr - n ≠ 1 := by omega
    obtain ⟨-, -, hmore⟩ := hostSendIteration { s with pollCtr := s.pollCtr - n } hb hc hleft.1
    rw [run_add (ih (by omega)), run_one (hmore hfull hleft.2)]
    rfl

/-- Settles O12: with room the first step pushes the latch, with OUTQ full POLL_CTR steps end in the timeout. -/
theorem hostSendEndsWithinBudget : Obligations.HostSendEndsWithinBudget := by
  intro s hb hc hpoll
  by_cases hfull : s.outq.length = s.config.outDepth
  · have hwaits := run_send_of_full hb hc hfull (show s.pollCtr - 1 < s.pollCtr by omega)
    have hone : s.pollCtr - (s.pollCtr - 1) = 1 := by omega
    obtain ⟨-, hlast, -⟩ := hostSendIteration { s with pollCtr := s.pollCtr - (s.pollCtr - 1) } hb hc
      (Nat.le_of_eq hone.symm)
    have hrun := (run_add hwaits 1).trans (run_one (hlast hfull hone))
    rw [Nat.sub_add_cancel hpoll] at hrun
    exact ⟨s.pollCtr, _, hpoll, le_refl _, hrun, rfl, rfl, .inr ⟨rfl, rfl, rfl⟩⟩
  · obtain ⟨hsent, -, -⟩ := hostSendIteration s hb hc hpoll
    exact ⟨1, _, le_refl _, hpoll, run_one (hsent hfull), rfl, rfl, .inl ⟨rfl, rfl⟩⟩

/-- With no message of the tag among the first `n + 1`, INQ without its first `n` has none at its head. -/
theorem noTag_at_drop {q : List Message} {n : Nat} {ch : Byte}
    (h : ∀ x ∈ q.take (n + 1), x.w1.toNat % 256 ≠ ch.toNat) :
    (∃ m rest, q.drop n = m :: rest ∧ m.w1.toNat % 256 ≠ ch.toNat) ∨ q.drop n = [] := by
  cases hq : q.drop n with
  | nil => exact .inr rfl
  | cons m rest =>
    have hm : q[n]? = some m := by rw [← List.head?_drop, hq, List.head?_cons]
    refine .inl ⟨m, rest, rfl, h m (List.mem_of_getElem? (i := n) ?_)⟩
    rw [List.getElem?_take_of_lt n.lt_succ_self, hm]

/-- A RECV with no message of its tag next loses a message a step, all its poll iterations but the last
(40_transport.md R134, R137). -/
theorem run_recv_of_noTag {n : Nat} {s : State} (hb : blockNext s = true) (hc : s.curCmd = .recv) (hn : n < s.pollCtr)
    (hnone : ∀ x ∈ s.inq.take n, x.w1.toNat % 256 ≠ s.curCh.toNat) :
    run n s = .next { s with pollCtr := s.pollCtr - n, inq := s.inq.drop n } := by
  induction n with
  | zero => rfl
  | succ n ih =>
    have hleft : 1 ≤ s.pollCtr - n ∧ s.pollCtr - n ≠ 1 := by omega
    obtain ⟨-, hlost⟩ := hostRecvIteration { s with pollCtr := s.pollCtr - n, inq := s.inq.drop n } hb hc hleft.1
    obtain ⟨-, hmore⟩ := hlost (noTag_at_drop hnone)
    have hbefore : ∀ x ∈ s.inq.take n, x.w1.toNat % 256 ≠ s.curCh.toNat := fun x hx =>
      hnone x (List.take_subset_take_left s.inq n.le_succ hx)
    rw [run_add (ih (by omega) hbefore), run_one (hmore hleft.2), List.tail_drop]
    rfl

/-- Settles O13: the messages before the match are lost one a step, and the step after them returns it. -/
theorem addressedReceiveReturnsFirstMatch : Obligations.AddressedReceiveReturnsFirstMatch := by
  intro s before m after hb hc hq hbefore hm hbudget
  have hloses := run_recv_of_noTag (n := before.length) hb hc hbudget (by rwa [hq, List.take_left])
  obtain ⟨hgot, -⟩ := hostRecvIteration
    { s with pollCtr := s.pollCtr - before.length, inq := s.inq.drop before.length } hb hc
    (Nat.sub_pos_of_lt hbudget)
  rw [run_add hloses, run_one (hgot m after (by rw [hq, List.drop_left]) hm), Nat.sub_sub]

/-- Settles O14: all poll iterations but the last lose a message each, and the last times out. -/
theorem addressedReceiveTimesOut : Obligations.AddressedReceiveTimesOut := by
  intro s hb hc hpoll hnone
  obtain ⟨n, hn⟩ := Nat.exists_eq_add_of_le' hpoll
  rw [hn] at hnone ⊢
  have hbefore : ∀ x ∈ s.inq.take n, x.w1.toNat % 256 ≠ s.curCh.toNat := fun x hx =>
    hnone x (List.take_subset_take_left s.inq n.le_succ hx)
  have hone : s.pollCtr - n = 1 := by omega
  obtain ⟨-, hlost⟩ := hostRecvIteration { s with pollCtr := s.pollCtr - n, inq := s.inq.drop n } hb hc
    (Nat.le_of_eq hone.symm)
  obtain ⟨hlast, -⟩ := hlost (noTag_at_drop hnone)
  rw [run_add (run_recv_of_noTag hb hc (by omega) hbefore), run_one (hlast hone), List.tail_drop]

/-! ### A step in a SEND_* or a WAIT_* state (41_bootstrap.md R152, R153) -/

theorem sendStep_of_room {s : State} (h : s.outq.length ≠ s.config.outDepth) (t : Message) (after : State → State) :
    sendStep t after s = after (push t (spendPoll s)) := by
  rw [sendStep, sendIter_of_room h]

theorem sendStep_of_full {s : State} (h : s.outq.length = s.config.outDepth) (t : Message) (after : State → State) :
    sendStep t after s = if s.pollCtr - 1 = 0 then bootFault .timeoutSend none (spendPoll s) else spendPoll s := by
  rw [sendStep, sendIter_of_full h]
  split_ifs <;> rfl

theorem waitStep_of_message {s : State} {m : Message} {rest : List Message} (h : s.inq = m :: rest) :
    waitStep s = onMessage m (setInq rest (spendPoll s)) := by
  rw [waitStep, recvIter_of_accepted (f := .any) h rfl]

theorem waitStep_of_empty {s : State} (h : s.inq = []) :
    waitStep s = .next (if s.pollCtr - 1 = 0 then bootFault .timeoutRecv none (spendPoll s) else spendPoll s) := by
  rcases waitStep_cases s with ⟨m, rest, hq, -⟩ | ⟨-, hlast, he⟩ | ⟨-, hmore, he⟩
  · cases h.symm.trans hq
  · rw [he, if_pos hlast]
  · rw [he, if_neg hmore]

/-- Each outbound kind in its SEND_* state is one send step, of its message and with what follows it
(41_bootstrap.md R152). -/
theorem exec_of_sending {i : Instr} {k : OutKind} {s : State} (hi : i.source = .outbound k) (hf : s.fsm = kindState k) :
    ∃ t after, exec i s = .next (sendStep t after s) := by
  cases i
  case idleReq | helloAck | epack | epstart | bufgrant | pwrack =>
    cases hi
    exact ⟨_, _, if_pos hf⟩
  all_goals cases hi

/-- Settles O38: whatever the kind, its step is a send step, which a full OUTQ makes wait or time out. -/
theorem fullFifoWaitsOrEndsBootstrap : Obligations.FullFifoWaitsOrEndsBootstrap := by
  intro i k s hi hf hfull hpoll
  obtain ⟨t, after, hexec⟩ := exec_of_sending hi hf
  rw [hexec, sendStep_of_full hfull]
  refine ⟨fun hmore => ?_, fun hlast => ?_⟩
  · rw [if_neg (by omega)]
    rfl
  · rw [if_pos (by omega), spendPoll_of_last hlast]
    rfl

/-- Settles O39: a WAIT_* state's step with nothing to receive waits or times out. -/
theorem emptyFifoWaitsOrEndsBootstrap : Obligations.EmptyFifoWaitsOrEndsBootstrap := by
  intro s hb hc hw hq hpoll
  have hstep : step s = waitStep s := by rw [step_of_blockNext hb, blockStep, hc, bootStep, if_pos hw]
  rw [hstep, waitStep_of_empty hq]
  refine ⟨fun hmore => ?_, fun hlast => ?_⟩
  · rw [if_neg (by omega)]
    rfl
  · rw [if_pos (by omega), spendPoll_of_last hlast]
    rfl

end Sys2Proof.Machine
end

section
/-! With no further event a BOOT in progress ends (O52). -/

namespace Sys2Proof.Machine

/-! ### A BOOT step ends BOOT or enters another state (41_bootstrap.md R151 to R171) -/

/-- BOOT has completed, in DONE or FAILED (44_host_interface.md R235). -/
structure BootEnded (t : State) : Prop where
  curCmd : t.curCmd = .none
  fsm : t.fsm = .done ∨ t.fsm = .failed

/-- From `u`, the state after the iteration that sent or received, another state of the bootstrap is entered: with a
full poll budget, the queues as they were (41_bootstrap.md R151). -/
structure BootEnters (u t : State) : Prop where
  config : t.config = u.config
  curCmd : t.curCmd = u.curCmd
  agenda : t.agenda = u.agenda
  inq : t.inq = u.inq
  outq : t.outq = u.outq
  pollCtr : t.pollCtr = u.config.pollBudget

theorem bootFault_ended (code : Status) (m : Option Message) (s : State) : BootEnded (bootFault code m s) :=
  ⟨rfl, .inr rfl⟩

theorem startFrom_enters (i : Nat) (s : State) : BootEnters s (startFrom i s) := by
  rcases startFrom_cases i s with ⟨-, he⟩ | ⟨j, e, -, he⟩ <;> rw [he] <;> exact ⟨rfl, rfl, rfl, rfl, rfl, rfl⟩

/-- What follows a sent message (41_bootstrap.md R156, R159, R163, R166, R170, R171). -/
theorem afterSend_ended_or_enters {f : FsmState} (hf : isSend f = true) (s : State) :
    BootEnded (afterSend f s) ∨ BootEnters s (afterSend f s) := by
  cases f
  case sendIdlereq | sendHello | sendGrant => exact .inr ⟨rfl, rfl, rfl, rfl, rfl, rfl⟩
  case sendEpack =>
    refine .inr ?_
    cases hl : s.epmapLast with
    | true => rw [afterSend, afterEpack_of_last hl]; exact startFrom_enters 0 s
    | false => rw [afterSend, afterEpack_of_not_last hl]; exact ⟨rfl, rfl, rfl, rfl, rfl, rfl⟩
  case sendEpstart => exact .inr (startFrom_enters _ s)
  case sendPwrack => exact .inl ⟨rfl, .inl rfl⟩
  all_goals cases hf

theorem serveBufferRequest_ended_or_enters (m : Message) (size : Nat) (s : State) :
    BootEnded (serveBufferRequest m size s) ∨ BootEnters s (serveBufferRequest m size s) := by
  unfold serveBufferRequest
  rcases allocate_cases size s with ⟨-, he⟩ | ⟨-, he⟩ <;> rw [he]
  · exact .inl (bootFault_ended _ _ _)
  · exact .inr ⟨rfl, rfl, rfl, rfl, rfl, rfl⟩

/-- What follows a received message (41_bootstrap.md R157 to R169). -/
theorem onMessage_ended_or_enters (m : Message) {s : State} (hw : isWait s.fsm = true) :
    ∃ t, onMessage m s = .next t ∧ (BootEnded t ∨ BootEnters s t) := by
  obtain ⟨t, ht, hcases⟩ := onMessage_cases m hw
  refine ⟨t, ht, ?_⟩
  rcases hcases with ⟨-, rfl⟩ | ⟨-, -, rfl⟩ | ⟨-, rfl⟩ | ⟨-, m', size, rfl⟩ | ⟨m', rfl⟩
  · exact .inr ⟨rfl, rfl, rfl, rfl, rfl, rfl⟩
  · exact .inr ⟨rfl, rfl, rfl, rfl, rfl, rfl⟩
  · exact .inr ⟨rfl, rfl, rfl, rfl, rfl, rfl⟩
  · exact serveBufferRequest_ended_or_enters m' size s
  · exact .inl (bootFault_ended _ _ _)

/-! ### Each step that does not end BOOT lowers a bound -/

/-- The steps BOOT has left at most: a poll budget for each message still to receive or place still free in OUTQ, and
what is left of the budget now (40_transport.md R131). -/
def bootBound (s : State) : Nat :=
  (s.inq.length + (s.config.outDepth - s.outq.length)) * (s.config.pollBudget + 1) + s.pollCtr

/-- BOOT goes on with fewer steps left. -/
structure BootLowers (s t : State) : Prop where
  curCmd : t.curCmd = s.curCmd
  agenda : t.agenda = s.agenda
  bound : bootBound t < bootBound s

/-- An iteration spent, with nothing sent or received. -/
theorem spendPoll_lowers {s : State} (hpoll : 1 ≤ s.pollCtr) : BootLowers s (spendPoll s) := by
  refine ⟨rfl, rfl, Nat.add_lt_add_left ?_ _⟩
  rw [spendPoll_pollCtr]
  omega

/-- A message sent or received, after which `t` is entered: what the full budget adds, the message took. -/
theorem BootEnters.lowers {s u t : State} (h : BootEnters u t) (hconfig : u.config = s.config)
    (hcmd : u.curCmd = s.curCmd) (hagenda : u.agenda = s.agenda)
    (hspace : u.inq.length + (s.config.outDepth - u.outq.length) <
      s.inq.length + (s.config.outDepth - s.outq.length)) : BootLowers s t := by
  refine ⟨h.curCmd.trans hcmd, h.agenda.trans hagenda, ?_⟩
  rw [bootBound, bootBound, h.config, h.inq, h.outq, h.pollCtr, hconfig]
  calc _ < (u.inq.length + (s.config.outDepth - u.outq.length) + 1) * (s.config.pollBudget + 1) := by
        rw [Nat.succ_mul]
        omega
    _ ≤ (s.inq.length + (s.config.outDepth - s.outq.length)) * (s.config.pollBudget + 1) :=
        Nat.mul_le_mul_right _ hspace
    _ ≤ _ := Nat.le_add_right _ _

/-- A SEND_* state's step (41_bootstrap.md R152). -/
theorem sendStep_ended_or_lowers {s : State} (h : s.Inv) (hc : s.curCmd = .boot) (hs : isSend s.fsm = true)
    (m : Message) : BootEnded (sendStep m (afterSend s.fsm) s) ∨ BootLowers s (sendStep m (afterSend s.fsm) s) := by
  rcases sendStep_cases m (afterSend s.fsm) s with ⟨hroom, he⟩ | ⟨-, -, he⟩ | ⟨-, -, he⟩ <;> rw [he]
  · refine (afterSend_ended_or_enters hs _).imp_right fun hent => hent.lowers rfl rfl rfl ?_
    have hdepth := h.outqDepth
    simp only [push_inq, spendPoll_inq, push_outq, spendPoll_outq, List.length_append, List.length_singleton]
    omega
  · exact .inl (bootFault_ended _ _ _)
  · exact .inr (spendPoll_lowers (h.pollLeft (by rw [hc]; decide)))

/-- A WAIT_* state's step (41_bootstrap.md R153). -/
theorem waitStep_ended_or_lowers {s : State} (h : s.Inv) (hc : s.curCmd = .boot) (hw : isWait s.fsm = true) :
    ∃ t, waitStep s = .next t ∧ (BootEnded t ∨ BootLowers s t) := by
  rcases waitStep_cases s with ⟨m, rest, hq, he⟩ | ⟨-, -, he⟩ | ⟨-, -, he⟩ <;> rw [he]
  · obtain ⟨t, ht, hcases⟩ := onMessage_ended_or_enters m (s := setInq rest (spendPoll s)) hw
    refine ⟨t, ht, hcases.imp_right fun hent => hent.lowers rfl rfl rfl ?_⟩
    rw [setInq_inq, hq, List.length_cons, setInq_outq, spendPoll_outq]
    omega
  · exact ⟨_, rfl, .inl (bootFault_ended _ _ _)⟩
  · exact ⟨_, rfl, .inr (spendPoll_lowers (h.pollLeft (by rw [hc]; decide)))⟩

/-- A step of BOOT (44_host_interface.md R233). -/
theorem bootStep_ended_or_lowers {s : State} (h : s.Inv) (hc : s.curCmd = .boot) :
    ∃ t, bootStep s = .next t ∧ (BootEnded t ∨ BootLowers s t) := by
  unfold bootStep
  split
  · next hw => exact waitStep_ended_or_lowers h hc hw
  split
  · next hs => exact ⟨_, sendStateStep_eq hs, sendStep_ended_or_lowers h hc hs _⟩
  · next hw hs =>
    rcases Bool.or_eq_true_iff.mp (h.boot.mp hc) with hs' | hw'
    · exact absurd hs' hs
    · exact absurd hw' hw

/-- With no event listed BOOT ends within any number of steps that its bound does not pass. -/
theorem run_boot_ends {n : Nat} {s : State} (h : s.Inv) (ha : s.agenda = []) (hc : s.curCmd = .boot)
    (hn : bootBound s ≤ n) : ∃ k t, k ≤ n ∧ run k s = .next t ∧ BootEnded t := by
  induction n generalizing s with
  | zero =>
    have hpoll := h.pollLeft (by rw [hc]; decide)
    rw [bootBound] at hn
    omega
  | succ n ih =>
    obtain ⟨t, ht, hcases⟩ := bootStep_ended_or_lowers h hc
    have hstep : step s = .next t := by
      rw [step_of_blockNext (by rw [blockNext, h.config, ha]; rfl), blockStep, hc, ht]
    rcases hcases with hend | hlow
    · exact ⟨1, t, Nat.le_add_left 1 n, run_one hstep, hend⟩
    · obtain ⟨k, v, hk, hrun, hend⟩ := ih (stepKeepsInvariant s t h hstep) (hlow.agenda.trans ha)
        (hlow.curCmd.trans hc) (by have := hlow.bound; omega)
      exact ⟨k + 1, v, Nat.succ_le_succ hk, (run_succ hstep).trans hrun, hend⟩

/-- Settles O52: each step ends BOOT or lowers the bound, and keeps the invariant. -/
theorem bootEndsWhenCoprocIsSilent : Obligations.BootEndsWhenCoprocIsSilent := by
  intro s h ha hc
  obtain ⟨k, t, hk, hrun, hend⟩ := run_boot_ends h ha hc (le_refl (bootBound s))
  exact ⟨k, t, hk, hrun, hend.curCmd, hend.fsm⟩

end Sys2Proof.Machine
end

section
/-! POLL_DELAY_US is read by no step (O54): each part of a step commutes with `withDelay`. -/

namespace Sys2Proof.Machine

/-! ### The parts of a BLOCK step (40_transport.md R140) -/

/-- One test on both sides: what `f` makes of each branch it makes of the whole. -/
theorem ite_eq_map {α β : Type} (f : α → β) {c : Prop} [Decidable c] {a b : α} {a' b' : β} (ha : a' = f a)
    (hb : b' = f b) : (if c then a' else b') = f (if c then a else b) := by
  rw [apply_ite f, ha, hb]

section
variable (d : Nat) (s : State)

/-- The first nonzero entry is the same (41_bootstrap.md R165). -/
theorem startFrom_withDelay (i : Nat) : startFrom i (withDelay d s) = withDelay d (startFrom i s) := by
  have hlist : (withDelay d s).epList = s.epList := rfl
  rw [startFrom, startFrom, hlist]
  cases nextStart s.epList i <;> rfl

/-- What follows a sent message (41_bootstrap.md R156, R159, R163, R166, R170, R171). -/
theorem afterSend_withDelay (f : FsmState) : afterSend f (withDelay d s) = withDelay d (afterSend f s) := by
  cases f
  case sendEpack => exact ite_eq_map (withDelay d) (startFrom_withDelay d s 0) rfl
  case sendEpstart => exact startFrom_withDelay d s (s.epIdx.toNat + 1)
  all_goals rfl

/-- A SEND_* state's step (41_bootstrap.md R152). -/
theorem sendStep_withDelay (m : Message) (f : FsmState) :
    sendStep m (afterSend f) (withDelay d s) = withDelay d (sendStep m (afterSend f) s) := by
  by_cases hfull : s.outq.length = s.config.outDepth
  · rw [sendStep_of_full hfull, sendStep_of_full (s := withDelay d s) hfull]
    exact ite_eq_map (withDelay d) rfl rfl
  · rw [sendStep_of_room hfull, sendStep_of_room (s := withDelay d s) hfull]
    exact afterSend_withDelay d (push m (spendPoll s)) f

theorem sendCommandStep_withDelay : sendCommandStep (withDelay d s) = withDelay d (sendCommandStep s) := by
  by_cases hfull : s.outq.length = s.config.outDepth
  · rw [sendCommandStep_of_full hfull, sendCommandStep_of_full (s := withDelay d s) hfull]
    exact ite_eq_map (withDelay d) rfl rfl
  · rw [sendCommandStep_of_room hfull, sendCommandStep_of_room (s := withDelay d s) hfull]
    rfl

theorem recvCommandStep_withDelay : recvCommandStep (withDelay d s) = withDelay d (recvCommandStep s) := by
  by_cases htag : ∀ m ∈ s.inq.head?, msgEp m ≠ s.curCh
  · rw [recvCommandStep_of_noTag htag, recvCommandStep_of_noTag (s := withDelay d s) htag]
    exact ite_eq_map (withDelay d) rfl rfl
  · push Not at htag
    obtain ⟨m, hhead, hm⟩ := htag
    have hq := List.eq_cons_of_mem_head? hhead
    rw [recvCommandStep_of_tag hq hm, recvCommandStep_of_tag (s := withDelay d s) hq hm]
    rfl

theorem unexpectedMessage_withDelay (m : Message) :
    unexpectedMessage m (withDelay d s) = mapOutcome (withDelay d) (unexpectedMessage m s) :=
  ite_eq_map (mapOutcome (withDelay d)) rfl rfl

theorem allocate_withDelay (size : Nat) :
    allocate size (withDelay d s) = (allocate size s).map (Prod.map id (withDelay d)) :=
  ite_eq_map (Option.map (Prod.map id (withDelay d))) rfl rfl

theorem serveBufferRequest_withDelay (m : Message) (size : Nat) :
    serveBufferRequest m size (withDelay d s) = withDelay d (serveBufferRequest m size s) := by
  rw [serveBufferRequest, serveBufferRequest, allocate_withDelay]
  cases allocate size s <;> rfl

theorem sendFrom_withDelay (f g : FsmState) (m : Message) :
    sendFrom f m (afterSend g) (withDelay d s) = mapOutcome (withDelay d) (sendFrom f m (afterSend g) s) :=
  ite_eq_map (mapOutcome (withDelay d)) (congrArg Host.Outcome.next (sendStep_withDelay d s m g)) rfl

theorem idleAction_withDelay : idleAction (withDelay d s) = withDelay d (idleAction s) :=
  ite_eq_map (withDelay d) rfl rfl

theorem execRdreg_withDelay (sel : Byte) :
    execRdreg sel (withDelay d s) = mapOutcome (withDelay d) (execRdreg sel s) := by
  have hreg : readReg (withDelay d s) sel = readReg s sel := rfl
  rw [execRdreg, execRdreg, hreg]
  cases readReg s sel <;> rfl

theorem execRdep_withDelay (idx : Byte) :
    execRdep idx (withDelay d s) = mapOutcome (withDelay d) (execRdep idx s) := by
  have hlist : (withDelay d s).epList = s.epList := rfl
  rw [execRdep, execRdep, hlist]
  cases s.epList[idx.toNat]? with
  | none => rfl
  | some e => exact congrArg Host.Outcome.next (ite_eq_map (withDelay d) rfl rfl)

/-- Every instruction's meaning. -/
theorem exec_withDelay (i : Instr) : exec i (withDelay d s) = mapOutcome (withDelay d) (exec i s) := by
  cases i
  case resvInit base limit =>
    exact congrArg Host.Outcome.next (ite_eq_map (withDelay d) rfl (ite_eq_map (withDelay d) rfl rfl))
  case boot =>
    exact congrArg Host.Outcome.next
      (ite_eq_map (withDelay d) (idleAction_withDelay d { s with curCmd := .boot }) rfl)
  case send | recv => exact congrArg Host.Outcome.next (ite_eq_map (withDelay d) rfl rfl)
  case rdreg sel => exact execRdreg_withDelay d s sel
  case rdep idx => exact execRdep_withDelay d s idx
  case hello | epmap | pwrok =>
    exact ite_eq_map (mapOutcome (withDelay d)) rfl (unexpectedMessage_withDelay d s _)
  case bufreqMgmt | bufreqStor =>
    exact ite_eq_map (mapOutcome (withDelay d)) (congrArg Host.Outcome.next (serveBufferRequest_withDelay d s _ _))
      (unexpectedMessage_withDelay d s _)
  case idleReq => exact sendFrom_withDelay d s .sendIdlereq .sendIdlereq _
  case helloAck => exact sendFrom_withDelay d s .sendHello .sendHello _
  case epack => exact sendFrom_withDelay d s .sendEpack .sendEpack _
  case epstart => exact sendFrom_withDelay d s .sendEpstart .sendEpstart _
  case bufgrant => exact sendFrom_withDelay d s .sendGrant .sendGrant _
  case pwrack => exact sendFrom_withDelay d s .sendPwrack .sendPwrack _

theorem onMessage_withDelay (m : Message) :
    onMessage m (withDelay d s) = mapOutcome (withDelay d) (onMessage m s) := by
  have hdecode : decodeInbound (withDelay d s).config m = decodeInbound s.config m := rfl
  rw [onMessage, onMessage, hdecode]
  cases decodeInbound s.config m with
  | ok i => exact exec_withDelay d s i
  | error e => exact unexpectedMessage_withDelay d s m

/-- A WAIT_* state's step (41_bootstrap.md R153). -/
theorem waitStep_withDelay : waitStep (withDelay d s) = mapOutcome (withDelay d) (waitStep s) := by
  cases hq : s.inq with
  | nil =>
    rw [waitStep_of_empty hq, waitStep_of_empty (s := withDelay d s) hq]
    exact congrArg Host.Outcome.next (ite_eq_map (withDelay d) rfl rfl)
  | cons m rest =>
    rw [waitStep_of_message hq, waitStep_of_message (s := withDelay d s) hq]
    exact onMessage_withDelay d (setInq rest (spendPoll s)) m

theorem bootStep_withDelay : bootStep (withDelay d s) = mapOutcome (withDelay d) (bootStep s) := by
  refine ite_eq_map (mapOutcome (withDelay d)) (waitStep_withDelay d s) ?_
  by_cases hs : isSend s.fsm = true
  · rw [if_pos hs, if_pos (show isSend (withDelay d s).fsm = true from hs), sendStateStep_eq hs,
      sendStateStep_eq (s := withDelay d s) hs]
    exact congrArg Host.Outcome.next (sendStep_withDelay d s _ _)
  · rw [if_neg hs, if_neg (show ¬ isSend (withDelay d s).fsm = true from hs)]
    rfl

theorem acceptStep_withDelay (r : HostRequest) :
    acceptStep r (withDelay d s) = mapOutcome (withDelay d) (acceptStep r s) := by
  unfold acceptStep
  cases decodeCommand r.cmd r.arg0 r.arg1 with
  | ok i => exact exec_withDelay d { s with request := none } i
  | error e => rfl

/-- A BLOCK step (10_state.md R23). -/
theorem blockStep_withDelay : blockStep (withDelay d s) = mapOutcome (withDelay d) (blockStep s) := by
  have hcmd : (withDelay d s).curCmd = s.curCmd := rfl
  have hreq : (withDelay d s).request = s.request := rfl
  rw [blockStep, blockStep, hcmd, hreq]
  cases s.curCmd with
  | boot => exact bootStep_withDelay d s
  | send => exact congrArg Host.Outcome.next (sendCommandStep_withDelay d s)
  | recv => exact congrArg Host.Outcome.next (recvCommandStep_withDelay d s)
  | none =>
    cases s.request with
    | some r => exact acceptStep_withDelay d s r
    | none => rfl

/-! ### HOST's turns (10_state.md R22) -/

theorem windowStore_withDelay (a v : Nat) :
    windowStore a v (withDelay d s) = (windowStore a v s).map (withDelay d) := by
  have hwrite (x : Nat) : memWrite a (withDelay d s).config.windowAccessBytes x (withDelay d s).mem =
      memWrite a s.config.windowAccessBytes x s.mem := rfl
  have hfree : (withDelay d s).freeCtr = s.freeCtr := rfl
  refine ite_eq_map (Option.map (withDelay d)) ?_ ?_
  · rw [hwrite]
    cases memWrite a s.config.windowAccessBytes v s.mem <;> rfl
  · rw [hwrite, hfree]
    cases memWrite a s.config.windowAccessBytes (Config.freeWindowData s.freeCtr) s.mem <;> rfl

theorem windowLoad_withDelay (a : Nat) :
    windowLoad a (withDelay d s) = (windowLoad a s).map (Prod.map id (withDelay d)) := by
  have hread : memRead a (withDelay d s).config.windowAccessBytes (withDelay d s).mem =
    memRead a s.config.windowAccessBytes s.mem := rfl
  rw [windowLoad, windowLoad, hread]
  cases memRead a s.config.windowAccessBytes s.mem with
  | none => rfl
  | some v => exact ite_eq_map (Option.map (Prod.map id (withDelay d))) rfl rfl

theorem windowWrite_withDelay (a v : Nat) :
    windowWrite a v (withDelay d s) = mapOutcome (withDelay d) (windowWrite a v s) := by
  refine ite_eq_map (mapOutcome (withDelay d)) ?_ rfl
  rw [windowStore_withDelay]
  cases windowStore a v s <;> rfl

theorem windowRead_withDelay (a : Nat) :
    windowRead a (withDelay d s) = mapOutcome (withDelay d) (windowRead a s) := by
  refine ite_eq_map (mapOutcome (withDelay d)) ?_ rfl
  rw [windowLoad_withDelay]
  cases windowLoad a s <;> rfl

theorem callWrite_withDelay (c : Call) (a : Nat) (rest : List Byte) :
    callWrite c a rest (withDelay d s) = mapOutcome (withDelay d) (callWrite c a rest s) := by
  cases rest with
  | nil => rfl
  | cons b rest =>
    have hwidth : (withDelay d s).config.windowAccessBytes = s.config.windowAccessBytes := rfl
    simp only [callWrite, windowStore_withDelay, hwidth]
    cases windowStore a (packLE ((b :: rest).take s.config.windowAccessBytes)) s <;> rfl

theorem callAfterSend_withDelay (c : Call) : callAfterSend c (withDelay d s) = withDelay d (callAfterSend c s) := by
  have hresp : (withDelay d s).response = s.response := rfl
  rw [callAfterSend, callAfterSend, hresp]
  cases s.response with
  | none => rfl
  | some r => exact ite_eq_map (withDelay d) rfl rfl

theorem callAfterRecv_withDelay (c : Call) :
    callAfterRecv c (withDelay d s) = mapOutcome (withDelay d) (callAfterRecv c s) := by
  have hresp : (withDelay d s).response = s.response := rfl
  rw [callAfterRecv, callAfterRecv, hresp]
  cases s.response with
  | none => rfl
  | some r =>
    exact ite_eq_map (mapOutcome (withDelay d)) (ite_eq_map (mapOutcome (withDelay d)) rfl
      (ite_eq_map (mapOutcome (withDelay d)) rfl (ite_eq_map (mapOutcome (withDelay d)) rfl rfl))) rfl

theorem callRead_withDelay (c : Call) (a remaining : Nat) (got : List Byte) :
    callRead c a remaining got (withDelay d s) = mapOutcome (withDelay d) (callRead c a remaining got s) := by
  cases remaining with
  | zero => rfl
  | succ k =>
    simp only [callRead, windowLoad_withDelay]
    cases windowLoad a s <;> rfl

/-- A HOST step of a call in progress (43_command_boundary.md R212 to R217). -/
theorem consumerStep_withDelay (c : Call) :
    consumerStep c (withDelay d s) = mapOutcome (withDelay d) (consumerStep c s) := by
  unfold consumerStep
  cases c.phase with
  | writing a rest => exact callWrite_withDelay d s c a rest
  | awaitSend => exact congrArg Host.Outcome.next (callAfterSend_withDelay d s c)
  | awaitRecv => exact callAfterRecv_withDelay d s c
  | reading a remaining got => exact callRead_withDelay d s c a remaining got

theorem beginCall_withDelay (r : CallRequest) :
    beginCall r (withDelay d s) = mapOutcome (withDelay d) (beginCall r s) :=
  ite_eq_map (mapOutcome (withDelay d))
    (ite_eq_map (mapOutcome (withDelay d)) rfl (ite_eq_map (mapOutcome (withDelay d)) rfl rfl)) rfl

theorem hostTurn_withDelay (rest : List Event) {act : State → Host.Outcome State Fault Refusal}
    (hact : ∀ u, act (withDelay d u) = mapOutcome (withDelay d) (act u)) :
    hostTurn rest act (withDelay d s) = mapOutcome (withDelay d) (hostTurn rest act s) := by
  refine ite_eq_map (mapOutcome (withDelay d)) ?_ (blockStep_withDelay d s)
  have hcall : (withDelay d s).call = s.call := rfl
  rw [hcall]
  cases s.call with
  | some c => exact consumerStep_withDelay d s c
  | none => exact hact { s with agenda := rest, call := none }

theorem continueTurn_withDelay (rest : List Event) :
    continueTurn rest (withDelay d s) = mapOutcome (withDelay d) (continueTurn rest s) := by
  refine ite_eq_map (mapOutcome (withDelay d)) ?_ (blockStep_withDelay d s)
  have hcall : (withDelay d s).call = s.call := rfl
  rw [hcall]
  cases s.call with
  | some c => exact consumerStep_withDelay d { s with agenda := rest, call := some c } c
  | none => rfl

/-! ### Every agent's turn -/

theorem coprocAppend_withDelay (m : Message) : coprocAppend m (withDelay d s) = withDelay d (coprocAppend m s) :=
  ite_eq_map (withDelay d) rfl rfl

theorem turn_withDelay : turn (withDelay d s) = mapOutcome (withDelay d) (turn s) := by
  have hagenda : (withDelay d s).agenda = s.agenda := rfl
  rw [turn, turn, hagenda]
  cases s.agenda with
  | nil => exact blockStep_withDelay d s
  | cons e rest =>
    cases e with
    | block => exact blockStep_withDelay d { s with agenda := rest }
    | present r => exact hostTurn_withDelay d s rest fun _ => rfl
    | beginCall r => exact hostTurn_withDelay d s rest fun u => beginCall_withDelay d u r
    | continueCall => exact continueTurn_withDelay d s rest
    | windowWrite a v => exact windowWrite_withDelay d { s with agenda := rest } a v
    | windowRead a => exact windowRead_withDelay d { s with agenda := rest } a
    | coprocAppend m => exact congrArg Host.Outcome.next (coprocAppend_withDelay d { s with agenda := rest } m)
    | coprocDrain | coprocWrite | ctrlWrite | reset => rfl

end

/-- Settles O54: R293 does not name the delay, and no agent's turn reads it. -/
theorem pollDelayChangesNoStep : Obligations.PollDelayChangesNoStep :=
  fun d s => ite_eq_map (mapOutcome (withDelay d)) (turn_withDelay d s) rfl

end Sys2Proof.Machine
end

section
/-! What the bootstrap does with each message it receives: the endpoint list an endpoint map appends to (O29, O30), the
steps of the messages a state accepts (O17, O24, O27, O32), and of those it does not (O26, O28). -/

namespace Sys2Proof.Machine

/-! ### The endpoints of a map (41_bootstrap.md R160, R164) -/

/-- An endpoint's ID does not wrap: 8 blocks of 32 IDs fill a byte (41_bootstrap.md R164). -/
theorem endpointId_toNat (block : BitVec 3) {b : Nat} (hb : b < 32) :
    (endpointId block b).toNat = b + 32 * block.toNat := by
  rw [endpointId, BitVec.toNat_ofNat]
  omega

theorem mem_mapEndpoints_iff (block : BitVec 3) (bitmap : BitVec 32) (e : Byte) :
    e ∈ mapEndpoints block bitmap ↔
      ∃ b, b < 32 ∧ bitmap.getLsbD b = true ∧ e.toNat = b + 32 * block.toNat := by
  simp only [mapEndpoints, List.mem_map, List.mem_filter, List.mem_range]
  constructor
  · rintro ⟨b, ⟨hb, hset⟩, rfl⟩
    exact ⟨b, hb, hset, endpointId_toNat block hb⟩
  · rintro ⟨b, hb, hset, he⟩
    exact ⟨b, ⟨hb, hset⟩, BitVec.eq_of_toNat_eq ((endpointId_toNat block hb).trans he.symm)⟩

/-- The bits are taken in ascending order and the IDs rise with them (41_bootstrap.md R160). -/
theorem mapEndpoints_pairwise (block : BitVec 3) (bitmap : BitVec 32) :
    (mapEndpoints block bitmap).Pairwise (fun x y => x.toNat < y.toNat) := by
  rw [mapEndpoints, List.pairwise_map]
  refine List.Pairwise.filter _ (List.pairwise_lt_range.imp_of_mem fun ha hb hlt => ?_)
  rw [endpointId_toNat block (List.mem_range.mp ha), endpointId_toNat block (List.mem_range.mp hb)]
  omega

/-- Every ID of an earlier block is below every ID of a later one (41_bootstrap.md R164). -/
theorem mapEndpoints_lt_of_block_lt {p q : BitVec 3 × BitVec 32} (h : p.1.toNat < q.1.toNat) {x y : Byte}
    (hx : x ∈ mapEndpoints p.1 p.2) (hy : y ∈ mapEndpoints q.1 q.2) : x.toNat < y.toNat := by
  obtain ⟨b, hb, -, hxb⟩ := (mem_mapEndpoints_iff _ _ _).mp hx
  obtain ⟨d, hd, -, hyd⟩ := (mem_mapEndpoints_iff _ _ _).mp hy
  omega

/-- Settles O29: the bits of the bitmap by number, and no ID wraps. -/
theorem mapEndpointsAreTheSetBitsAscending : Obligations.MapEndpointsAreTheSetBitsAscending :=
  fun block bitmap => ⟨mem_mapEndpoints_iff block bitmap, mapEndpoints_pairwise block bitmap⟩

/-- Settles O30: each map's IDs rise, and every ID of an earlier map is below every ID of a later one. -/
theorem ascendingMapsGiveSortedEndpointList : Obligations.AscendingMapsGiveSortedEndpointList := by
  intro maps hblocks
  refine ⟨?_, fun e => by simp only [mapsEndpoints, List.mem_flatMap, mem_mapEndpoints_iff]⟩
  rw [mapsEndpoints, List.pairwise_flatMap]
  exact ⟨fun p _ => mapEndpoints_pairwise p.1 p.2,
    hblocks.imp fun hlt _ hx _ hy => mapEndpoints_lt_of_block_lt hlt hx hy⟩

/-! ### The steps of BOOT and of the messages a state accepts (41_bootstrap.md R155, R157, R160, R167) -/

/-- Settles O17: both values of RUN; RunSet sets the RUN bit alone. -/
theorem bootPerformsIdleAction : Obligations.BootPerformsIdleAction := by
  intro s hf hresv
  have hexec : exec .boot s = .next (idleAction { s with curCmd := .boot }) :=
    congrArg Host.Outcome.next (if_pos ⟨hf, hresv⟩)
  rw [hexec, idleAction, runRead]
  refine ⟨fun hrun => ?_, fun hrun => ?_⟩
  · rw [if_pos hrun]
    exact ⟨_, idleReqMsg_w0_toNat s.config, rfl⟩
  · rw [if_neg (Bool.eq_false_iff.mp hrun)]
    refine ⟨(runSet s).cpuCtrl, rfl, fun n => ?_⟩
    rw [runSet_cpuCtrl_testBit]
    simp only [eq_comm]

/-- Settles O24: the latch holds the hello-ack of the message's version. -/
theorem helloRecordsVersionAndComposesAck : Obligations.HelloRecordsVersionAndComposesAck :=
  fun ver _ _ s hf => ⟨(helloAckMsg s.config ver).w0, helloAckMsg_w0_toNat s.config ver, if_pos hf⟩

/-- Below the bound EPMAP_COUNT counts one more map without a wrap (10_state.md R35). -/
theorem epmapCount_succ_toNat {n : BitVec 4} (h : n.toNat < epMaxBlocks) : (n + 1).toNat = n.toNat + 1 := by
  rw [epMaxBlocks] at h
  rw [BitVec.toNat_add, show (1 : BitVec 4).toNat = 1 from rfl]
  omega

/-- Settles O27: an accepted map, with the epack of its marker and its block in the latch. -/
theorem epmapAppendsAndComposesEpack : Obligations.EpmapAppendsAndComposesEpack :=
  fun _ block last _ _ s hc hf hcount =>
    ⟨(epackMsg s.config last block).w0, s.epmapCount + 1, epackMsg_w0_toNat s.config hc last block,
      epmapCount_succ_toNat hcount, if_pos ⟨hf, hcount⟩⟩

/-- A request past the limit ends the bootstrap out of memory (42_arbiter.md R195). -/
theorem serveBufferRequest_of_not_fits {size : Nat} {s : State} (h : s.resvLimit.toNat < s.resvCursor.toNat + size)
    (m : Message) : serveBufferRequest m size s = bootFault .outOfMemory (some m) s := by
  rw [serveBufferRequest, allocate, if_pos h]

/-- Settles O32: both endpoints' requests take the fault entry, which records their words. -/
theorem bufferRequestOutOfMemory : Obligations.BufferRequestOutOfMemory := by
  intro type ign52 count ign0 ign1 s hf hlimit
  have hserve (m : Message) : serveBufferRequest m (requestSize count) s =
      bootFault .outOfMemory (some m) { s with fsm := .waitPwrok } := by
    rw [serveBufferRequest_of_not_fits (size := requestSize count) hlimit, ← hf]
  exact ⟨_, _, _, bufreqMsg_w0_toNat s.config.epMemMgmt type ign52 count ign0 ign1,
    bufreqMsg_w1_toNat s.config.epMemMgmt type ign52 count ign0 ign1,
    bufreqMsg_w1_toNat s.config.epMemStor type ign52 count ign0 ign1,
    (if_pos hf).trans (congrArg _ (hserve _)), (if_pos hf).trans (congrArg _ (hserve _))⟩

/-! ### The messages a state does not accept (41_bootstrap.md R158, R161, R162, R169) -/

/-- A message arrived at the endpoint, and with the type, of a kind the WAIT_* state accepts, by the words' bits
(30_encoding.md R95, 41_bootstrap.md R157, R160, R167, R168). -/
def KindAccepted (c : Config) (m : Message) : FsmState → Prop
  | .waitHello => m.w1.toNat % 256 = 0 ∧ m.w0.toNat / 2 ^ 56 = 0x01
  | .waitEpmap => m.w1.toNat % 256 = 0 ∧ m.w0.toNat / 2 ^ 56 = 0x08
  | .waitPwrok => m.w1.toNat % 256 = c.epMemMgmt.toNat ∨ m.w1.toNat % 256 = c.epMemStor.toNat ∨
      (m.w1.toNat % 256 = 0 ∧ m.w0.toNat / 2 ^ 56 = 0x07)
  | _ => False

/-- The state that accepts a message's kind accepts the message. -/
theorem kindAccepted_of_inboundFields {c : Config} {m : Message} {i : Instr} (h : InboundFields c m i) :
    KindAccepted c m (acceptingState i) := by
  cases i
  case hello | epmap =>
    obtain ⟨hep, htype, -⟩ := h
    exact ⟨(msgEp_eq_iff m 0).mp hep, (msgType_eq_iff m _).mp htype⟩
  case pwrok =>
    obtain ⟨hep, htype, -⟩ := h
    exact .inr (.inr ⟨(msgEp_eq_iff m 0).mp hep, (msgType_eq_iff m _).mp htype⟩)
  case bufreqMgmt => exact .inl ((msgEp_eq_iff m _).mp h.1)
  case bufreqStor => exact .inr (.inl ((msgEp_eq_iff m _).mp h.1))
  all_goals exact h.elim

theorem messageWords_inj {m n : Message} (h : messageWords m = messageWords n) : m = n := by
  cases m
  cases n
  simpa [messageWords] using h

/-- A decoded message has the very words it was decoded from, so a fault entry records those (60_exceptions.md R264). -/
theorem eq_of_inboundFields {c : Config} (hc : c.wf = true) {m m' : Message} {i : Instr} (h : InboundFields c m i)
    (hm' : encode c i = messageWords m') : m' = m :=
  messageWords_inj (hm'.symm.trans (encode_of_inboundFields hc h))

/-- A message the state does not accept is unexpected, of a kind or of none (30_encoding.md R106). -/
theorem onMessage_of_not_accepted {m : Message} {s : State} (hc : s.config.wf = true)
    (h : ¬ KindAccepted s.config m s.fsm) : onMessage m s = unexpectedMessage m s := by
  unfold onMessage
  split
  · next i hd =>
    have hfields := (decodeInbound_eq_ok_iff hc).mp hd
    have hf : s.fsm ≠ acceptingState i := fun hf => h (hf ▸ kindAccepted_of_inboundFields hfields)
    obtain ⟨m', hm', hexec⟩ := exec_of_not_accepting (wf_of_inboundFields hc hfields).1 hf
    rw [hexec, eq_of_inboundFields hc hfields hm']
  · rfl

/-- An endpoint map after the eighth is unexpected too (41_bootstrap.md R161). -/
theorem onMessage_of_full {m : Message} {s : State} (hc : s.config.wf = true) (hep : msgEp m = 0)
    (htype : msgType m = typeEpmap) (hfull : epMaxBlocks ≤ s.epmapCount.toNat) :
    onMessage m s = unexpectedMessage m s := by
  have hfields : InboundFields s.config m
      (.epmap (msgLow32 m) (msgBlock m) (msgLast s.config m) (ignoredMapBits s.config m) (ignoredW1 m)) :=
    ⟨hep, htype, rfl, rfl, rfl, rfl, rfl⟩
  have hnot : ¬ (s.fsm = .waitEpmap ∧ s.epmapCount.toNat < epMaxBlocks) := fun hlt => Nat.not_lt.mpr hfull hlt.2
  simp only [onMessage, (decodeInbound_eq_ok_iff hc).mpr hfields]
  rw [exec, execEpmap, if_neg hnot, eq_of_inboundFields hc hfields rfl]

/-- The whole step of an unexpected message: it leaves INQ, and the bootstrap ends (60_exceptions.md R264). -/
theorem step_of_unexpected {s : State} {m : Message} {rest : List Message} (hb : blockNext s = true)
    (hc : s.curCmd = .boot) (hw : isWait s.fsm = true) (hq : s.inq = m :: rest)
    (h : onMessage m (setInq rest (spendPoll s)) = unexpectedMessage m (setInq rest (spendPoll s))) :
    step s = .next (bootFault .protocolViolation (some m) (setInq rest (spendPoll s))) := by
  rw [step_of_blockNext hb, blockStep, hc, bootStep, if_pos hw, waitStep_of_message hq, h,
    unexpectedMessage_eq (s := setInq rest (spendPoll s)) hw]

theorem config_wf_of_blockNext {s : State} (hb : blockNext s = true) : s.config.wf = true :=
  (Bool.and_eq_true_iff.mp hb).1

/-- Settles O26: in each WAIT_* state the message is not of a kind the state accepts. -/
theorem unexpectedMessageEndsBootstrap : Obligations.UnexpectedMessageEndsBootstrap := by
  intro s m rest hb hc hq hbad
  have hwait : isWait s.fsm = true := by
    rcases hbad with ⟨hf, -⟩ | ⟨hf, -⟩ | ⟨hf, -⟩ <;> rw [hf] <;> rfl
  have hreject : ¬ KindAccepted s.config m s.fsm := by
    rcases hbad with ⟨hf, hne⟩ | ⟨hf, hne⟩ | ⟨hf, hmgmt, hstor, hne⟩ <;> rw [hf]
    · exact fun ⟨hep, htype⟩ => hne.elim (absurd hep) (absurd htype)
    · exact fun ⟨hep, htype⟩ => hne.elim (absurd hep) (absurd htype)
    · rintro (hep | hep | ⟨hep, htype⟩)
      · exact hmgmt hep
      · exact hstor hep
      · exact hne.elim (absurd hep) (absurd htype)
  exact step_of_unexpected hb hc hwait hq
    (onMessage_of_not_accepted (s := setInq rest (spendPoll s)) (config_wf_of_blockNext hb) hreject)

/-- Settles O28: the message is an endpoint map, and the full count alone makes it unexpected. -/
theorem ninthEndpointMapEndsBootstrap : Obligations.NinthEndpointMapEndsBootstrap := by
  intro s m rest hb hc hf hq hep htype hcount
  have hstep := step_of_unexpected hb hc (by rw [hf]; rfl) hq
    (onMessage_of_full (s := setInq rest (spendPoll s)) (config_wf_of_blockNext hb) ((msgEp_eq_iff m 0).mpr hep)
      ((msgType_eq_iff m typeEpmap).mpr htype) (Nat.le_of_eq hcount.symm))
  rw [hstep, ← hf]
  rfl

end Sys2Proof.Machine
end

section
/-! STATE moves only along the transition table (O46), so DONE and FAILED are left by reset alone (O47). -/

namespace Sys2Proof.Machine

/-! ### STATE after each part of a step (41_bootstrap.md R174) -/

/-- STATE stays, or moves along an edge of the table (41_bootstrap.md R174). -/
def FsmMoves (f g : FsmState) : Prop := g = f ∨ fsmEdge f g = true

/-- Every state of the bootstrap has the edge of the fault entry (60_exceptions.md R264). -/
theorem fsmEdge_failed {f : FsmState} (h : (isWait f || isSend f) = true) : fsmEdge f .failed = true := by
  cases f
  case idle | done | failed => cases h
  all_goals rfl

/-- DONE and FAILED have no edge (41_bootstrap.md R172, R173). -/
theorem fsmEdge_eq_false_of_ended {f : FsmState} (h : f = .done ∨ f = .failed) (g : FsmState) :
    fsmEdge f g = false := by
  rcases h with rfl | rfl <;> cases g <;> rfl

theorem startFrom_fsm (i : Nat) (s : State) : (startFrom i s).fsm = .waitPwrok ∨ (startFrom i s).fsm = .sendEpstart := by
  rcases startFrom_cases i s with ⟨-, he⟩ | ⟨j, e, -, he⟩ <;> rw [he]
  · exact .inl rfl
  · exact .inr rfl

/-- What follows a sent message (41_bootstrap.md R156, R159, R163, R166, R170, R171). -/
theorem fsmEdge_afterSend {f : FsmState} (hf : isSend f = true) (s : State) : fsmEdge f (afterSend f s).fsm = true := by
  cases f
  case sendIdlereq | sendHello | sendGrant | sendPwrack => rfl
  case sendEpack =>
    cases hl : s.epmapLast with
    | true =>
      rw [afterSend, afterEpack_of_last hl]
      rcases startFrom_fsm 0 s with he | he <;> rw [he] <;> rfl
    | false => rw [afterSend, afterEpack_of_not_last hl]; rfl
  case sendEpstart =>
    rw [afterSend, afterEpstart]
    rcases startFrom_fsm (s.epIdx.toNat + 1) s with he | he <;> rw [he] <;> rfl
  all_goals cases hf

theorem sendStep_fsm {s : State} (hs : isSend s.fsm = true) (m : Message) :
    FsmMoves s.fsm (sendStep m (afterSend s.fsm) s).fsm := by
  rcases sendStep_cases m (afterSend s.fsm) s with ⟨-, he⟩ | ⟨-, -, he⟩ | ⟨-, -, he⟩ <;> rw [he]
  · exact .inr (fsmEdge_afterSend hs _)
  · exact .inr (fsmEdge_failed (by rw [hs, Bool.or_true]))
  · exact .inl rfl

/-- What follows a received message (41_bootstrap.md R157 to R169). -/
theorem fsmEdge_onMessage {m : Message} {s t : State} (hw : isWait s.fsm = true) (ht : onMessage m s = .next t) :
    fsmEdge s.fsm t.fsm = true := by
  have hfail : fsmEdge s.fsm .failed = true := fsmEdge_failed (by rw [hw, Bool.true_or])
  obtain ⟨t', ht', hcases⟩ := onMessage_cases m hw
  obtain rfl : t' = t := Host.Outcome.next.inj (ht'.symm.trans ht)
  rcases hcases with ⟨hf, rfl⟩ | ⟨hf, -, rfl⟩ | ⟨hf, rfl⟩ | ⟨hf, m', size, rfl⟩ | ⟨m', rfl⟩
  · rw [hf]; rfl
  · rw [hf]; rfl
  · rw [hf]; rfl
  · unfold serveBufferRequest
    rcases allocate_cases size s with ⟨-, he⟩ | ⟨-, he⟩ <;> rw [he]
    · exact hfail
    · rw [hf]; rfl
  · exact hfail

theorem waitStep_fsm {s t : State} (hw : isWait s.fsm = true) (ht : waitStep s = .next t) : FsmMoves s.fsm t.fsm := by
  rcases waitStep_cases s with ⟨m, rest, -, he⟩ | ⟨-, -, he⟩ | ⟨-, -, he⟩ <;> rw [he] at ht
  · exact .inr (fsmEdge_onMessage (s := setInq rest (spendPoll s)) hw ht)
  · obtain rfl := Host.Outcome.next.inj ht
    exact .inr (fsmEdge_failed (by rw [hw, Bool.true_or]))
  · obtain rfl := Host.Outcome.next.inj ht
    exact .inl rfl

/-- The IDLE action's two edges (41_bootstrap.md R155). -/
theorem fsmEdge_idleAction (s : State) : fsmEdge .idle (idleAction s).fsm = true := by
  unfold idleAction
  split <;> rfl

/-- Of the host commands BOOT alone moves STATE, from IDLE (44_host_interface.md R231 to R239). -/
theorem exec_hostPort_fsm {i : Instr} {s t : State} (hi : i.source = .hostPort) (ht : exec i s = .next t) :
    FsmMoves s.fsm t.fsm := by
  rcases exec_hostPort_cases hi ht with ⟨_, _, _, rfl⟩ | ⟨_, _, _, _, rfl⟩ | ⟨hf, _, rfl⟩ | ⟨_, _, rfl⟩ | ⟨_, _, rfl⟩
  · exact .inl rfl
  · exact .inl rfl
  · rw [hf]
    exact .inr (fsmEdge_idleAction _)
  · exact .inl rfl
  · exact .inl rfl

/-- A host SEND in progress leaves STATE (44_host_interface.md R236). -/
theorem sendCommandStep_fsm (s : State) : (sendCommandStep s).fsm = s.fsm := by
  rcases sendCommandStep_cases s with ⟨-, he⟩ | ⟨-, -, he⟩ | ⟨-, -, he⟩ <;> rw [he] <;> rfl

/-- A host RECV in progress leaves STATE (44_host_interface.md R237). -/
theorem recvCommandStep_fsm (s : State) : (recvCommandStep s).fsm = s.fsm := by
  rcases recvCommandStep_cases s with ⟨m, -, -, he⟩ | ⟨-, he⟩ | ⟨-, he⟩ <;> rw [he] <;> rfl

/-- Every BLOCK step (10_state.md R23, 41_bootstrap.md R174). -/
theorem blockStep_fsm {s t : State} (ht : blockStep s = .next t) : FsmMoves s.fsm t.fsm := by
  rcases blockStep_cases s with ⟨-, he⟩ | ⟨-, he⟩ | ⟨-, hw, he⟩ | ⟨-, hs, he⟩ | ⟨-, -, -, he⟩ | ⟨-, -, he⟩ |
    ⟨-, -, he⟩ | ⟨-, -, i, hi, he⟩ <;> rw [he] at ht
  · obtain rfl := Host.Outcome.next.inj ht
    exact .inl (sendCommandStep_fsm s)
  · obtain rfl := Host.Outcome.next.inj ht
    exact .inl (recvCommandStep_fsm s)
  · exact waitStep_fsm hw ht
  · obtain rfl := Host.Outcome.next.inj ht
    exact sendStep_fsm hs _
  · obtain rfl := Host.Outcome.next.inj ht
    exact .inl rfl
  · obtain rfl := Host.Outcome.next.inj ht
    exact .inl rfl
  · obtain rfl := Host.Outcome.next.inj ht
    exact .inl rfl
  · exact exec_hostPort_fsm (s := { s with request := none }) hi ht

/-- Settles O46: a BLOCK step moves STATE along the table, and no other agent touches it. -/
theorem fsmFollowsTransitionTable : Obligations.FsmFollowsTransitionTable := by
  intro s t ht hreset
  rcases step_cases ht with ⟨a, hb, -⟩ | ⟨ho, -⟩ | ⟨rest, ha, -⟩
  · exact blockStep_fsm (s := { s with agenda := a }) hb
  · exact .inl (by rw [ho.rest])
  · rw [resetNext, ha] at hreset
    cases hreset

/-- Settles O47: DONE and FAILED have no edge in the table that STATE follows. -/
theorem doneAndFailedStayUntilReset : Obligations.DoneAndFailedStayUntilReset := by
  intro s t ht hreset hend
  refine (fsmFollowsTransitionTable s t ht hreset).resolve_right ?_
  rw [fsmEdge_eq_false_of_ended hend]
  exact Bool.false_ne_true

end Sys2Proof.Machine
end

section
/-! The arbiter: RESV_INIT (O15, O16), the reservation kept by every step (O48), successive grants (O53). -/

namespace Sys2Proof.Machine

/-! ### RESV_INIT (42_arbiter.md R191, R192) -/

/-- The sum of the operands reaches 2^44 (42_arbiter.md R191, R196). -/
theorem execResvInit_of_overflow {base limit : Word} {s : State} (hv : s.resvValid = false)
    (hsum : paLimit ≤ base.toNat + limit.toNat) : execResvInit base limit s = .next (illegalOp s) := by
  rw [execResvInit, hv, if_neg Bool.false_ne_true, if_pos hsum]

/-- The first reservation (42_arbiter.md R191). -/
theorem execResvInit_of_fits {base limit : Word} {s : State} (hv : s.resvValid = false)
    (hsum : base.toNat + limit.toNat < paLimit) :
    execResvInit base limit s = .next (complete .ok base limit (createReservation base limit s)) := by
  rw [execResvInit, hv, if_neg Bool.false_ne_true, if_neg (Nat.not_le.mpr hsum)]

/-- A further RESV_INIT (42_arbiter.md R192). -/
theorem execResvInit_of_reserved {s : State} (hv : s.resvValid = true) (base limit : Word) :
    execResvInit base limit s = .next (complete .ok (s.resvBase.setWidth 64) (s.resvLimit.setWidth 64) s) := by
  rw [execResvInit, if_pos hv]

/-- Settles O15: operands whose sum is below 2^44 keep their value in the 44-bit registers. -/
theorem firstResvInitCreatesReservation : Obligations.FirstResvInitCreatesReservation := by
  intro base limit s hv
  refine ⟨fun hsum => ⟨_, execResvInit_of_fits hv hsum, rfl, ?_, ?_⟩, execResvInit_of_overflow hv⟩
  · exact Nat.mod_eq_of_lt (Nat.lt_of_le_of_lt (Nat.le_add_right _ _) hsum)
  · exact Nat.mod_eq_of_lt (Nat.lt_of_le_of_lt (Nat.le_add_left _ _) hsum)

/-- Settles O16: completing a command at a free port writes the response alone. -/
theorem secondResvInitChangesNothing : Obligations.SecondResvInitChangesNothing := by
  intro base limit s hv hfree
  refine (execResvInit_of_reserved hv base limit).trans ?_
  rw [complete, ← hfree]

/-! ### A successful allocation (42_arbiter.md R194, R196) -/

/-- The granted base does not wrap, and of the reservation the cursor alone moves. -/
theorem allocate_granted {size : Nat} {s s' : State} {a : BitVec 44}
    (hbound : s.resvBase.toNat + s.resvLimit.toNat < 2 ^ 44) (h : allocate size s = some (a, s')) :
    a.toNat = s.resvBase.toNat + s.resvCursor.toNat ∧ s'.resvBase = s.resvBase ∧ s'.resvLimit = s.resvLimit := by
  rcases allocate_cases size s with ⟨-, he⟩ | ⟨hfit, he⟩ <;> rw [he] at h <;> cases h
  refine ⟨?_, rfl, rfl⟩
  rw [BitVec.toNat_add]
  omega

/-! ### The reservation over a step (42_arbiter.md R190, R192, R197) -/

/-- The reservation is where and as large as it was, and its cursor did not go back. -/
structure ReservationKept (s t : State) : Prop where
  valid : t.resvValid = s.resvValid
  base : t.resvBase = s.resvBase
  limit : t.resvLimit = s.resvLimit
  cursor : s.resvCursor.toNat ≤ t.resvCursor.toNat

/-- A step's part that keeps the reservation, after one that does. -/
theorem ReservationKept.after {s t u : State} (h' : ReservationKept t u) (h : ReservationKept s t) :
    ReservationKept s u :=
  ⟨h'.valid.trans h.valid, h'.base.trans h.base, h'.limit.trans h.limit, h.cursor.trans h'.cursor⟩

theorem startFrom_reservationKept (i : Nat) (s : State) : ReservationKept s (startFrom i s) := by
  rcases startFrom_cases i s with ⟨-, he⟩ | ⟨j, e, -, he⟩ <;> rw [he] <;> exact ⟨rfl, rfl, rfl, le_rfl⟩

/-- What follows a sent message (41_bootstrap.md R156, R159, R163, R166, R170, R171). -/
theorem afterSend_reservationKept (f : FsmState) (s : State) : ReservationKept s (afterSend f s) := by
  cases f
  case sendEpack =>
    cases hl : s.epmapLast with
    | true =>
      rw [afterSend, afterEpack_of_last hl]
      exact startFrom_reservationKept 0 s
    | false =>
      rw [afterSend, afterEpack_of_not_last hl]
      exact ⟨rfl, rfl, rfl, le_rfl⟩
  case sendEpstart => exact startFrom_reservationKept _ s
  all_goals exact ⟨rfl, rfl, rfl, le_rfl⟩

theorem sendStep_reservationKept (m : Message) (f : FsmState) (s : State) :
    ReservationKept s (sendStep m (afterSend f) s) := by
  rcases sendStep_cases m (afterSend f) s with ⟨-, he⟩ | ⟨-, -, he⟩ | ⟨-, -, he⟩ <;> rw [he]
  · exact (afterSend_reservationKept f _).after ⟨rfl, rfl, rfl, le_rfl⟩
  · exact ⟨rfl, rfl, rfl, le_rfl⟩
  · exact ⟨rfl, rfl, rfl, le_rfl⟩

theorem sendCommandStep_reservationKept (s : State) : ReservationKept s (sendCommandStep s) := by
  rcases sendCommandStep_cases s with ⟨-, he⟩ | ⟨-, -, he⟩ | ⟨-, -, he⟩ <;> rw [he] <;> exact ⟨rfl, rfl, rfl, le_rfl⟩

theorem recvCommandStep_reservationKept (s : State) : ReservationKept s (recvCommandStep s) := by
  rcases recvCommandStep_cases s with ⟨m, -, -, he⟩ | ⟨-, he⟩ | ⟨-, he⟩ <;> rw [he] <;> exact ⟨rfl, rfl, rfl, le_rfl⟩

/-- A buffer request moves the cursor by what it is granted, or not at all (42_arbiter.md R194, R195). -/
theorem serveBufferRequest_reservationKept (m : Message) (size : Nat) (s : State) :
    ReservationKept s (serveBufferRequest m size s) := by
  rcases allocate_cases size s with ⟨hlimit, -⟩ | ⟨-, he⟩
  · rw [serveBufferRequest_of_not_fits hlimit]
    exact ⟨rfl, rfl, rfl, le_rfl⟩
  · rw [serveBufferRequest, he]
    exact ⟨rfl, rfl, rfl, (Nat.le_add_right _ _).trans_eq (allocate_cursor he).1.symm⟩

/-- What follows a received message (41_bootstrap.md R157 to R169). -/
theorem onMessage_reservationKept {m : Message} {s t : State} (hw : isWait s.fsm = true)
    (ht : onMessage m s = .next t) : ReservationKept s t := by
  obtain ⟨t', ht', hcases⟩ := onMessage_cases m hw
  obtain rfl : t' = t := Host.Outcome.next.inj (ht'.symm.trans ht)
  rcases hcases with ⟨-, rfl⟩ | ⟨-, -, rfl⟩ | ⟨-, rfl⟩ | ⟨-, m', size, rfl⟩ | ⟨m', rfl⟩
  · exact ⟨rfl, rfl, rfl, le_rfl⟩
  · exact ⟨rfl, rfl, rfl, le_rfl⟩
  · exact ⟨rfl, rfl, rfl, le_rfl⟩
  · exact serveBufferRequest_reservationKept m' size s
  · exact ⟨rfl, rfl, rfl, le_rfl⟩

theorem waitStep_reservationKept {s t : State} (hw : isWait s.fsm = true) (ht : waitStep s = .next t) :
    ReservationKept s t := by
  rcases waitStep_cases s with ⟨m, rest, -, he⟩ | ⟨-, -, he⟩ | ⟨-, -, he⟩ <;> rw [he] at ht
  · exact (onMessage_reservationKept (s := setInq rest (spendPoll s)) hw ht).after ⟨rfl, rfl, rfl, le_rfl⟩
  · obtain rfl := Host.Outcome.next.inj ht
    exact ⟨rfl, rfl, rfl, le_rfl⟩
  · obtain rfl := Host.Outcome.next.inj ht
    exact ⟨rfl, rfl, rfl, le_rfl⟩

theorem idleAction_reservationKept (s : State) : ReservationKept s (idleAction s) := by
  unfold idleAction
  split <;> exact ⟨rfl, rfl, rfl, le_rfl⟩

/-- Of the host commands RESV_INIT alone writes the reservation, and only the first one (42_arbiter.md R191, R192). -/
theorem exec_hostPort_reservationKept {i : Instr} {s t : State} (hi : i.source = .hostPort) (hv : s.resvValid = true)
    (ht : exec i s = .next t) : ReservationKept s t := by
  rcases exec_hostPort_cases hi ht with
    ⟨_, _, _, rfl⟩ | ⟨hnone, -⟩ | ⟨-, -, rfl⟩ | ⟨-, _, rfl⟩ | ⟨-, _, rfl⟩
  · exact ⟨rfl, rfl, rfl, le_rfl⟩
  · rw [hv] at hnone
    cases hnone
  · exact (idleAction_reservationKept { s with curCmd := .boot }).after ⟨rfl, rfl, rfl, le_rfl⟩
  · exact ⟨rfl, rfl, rfl, le_rfl⟩
  · exact ⟨rfl, rfl, rfl, le_rfl⟩

/-- Every BLOCK step (10_state.md R23). -/
theorem blockStep_reservationKept {s t : State} (hv : s.resvValid = true) (ht : blockStep s = .next t) :
    ReservationKept s t := by
  rcases blockStep_cases s with ⟨-, he⟩ | ⟨-, he⟩ | ⟨-, hw, he⟩ | ⟨-, -, he⟩ | ⟨-, -, -, he⟩ | ⟨-, -, he⟩ |
    ⟨-, -, he⟩ | ⟨-, -, i, hi, he⟩ <;> rw [he] at ht
  · obtain rfl := Host.Outcome.next.inj ht
    exact sendCommandStep_reservationKept s
  · obtain rfl := Host.Outcome.next.inj ht
    exact recvCommandStep_reservationKept s
  · exact waitStep_reservationKept hw ht
  · obtain rfl := Host.Outcome.next.inj ht
    exact sendStep_reservationKept _ _ s
  · obtain rfl := Host.Outcome.next.inj ht
    exact ⟨rfl, rfl, rfl, le_rfl⟩
  · obtain rfl := Host.Outcome.next.inj ht
    exact ⟨rfl, rfl, rfl, le_rfl⟩
  · obtain rfl := Host.Outcome.next.inj ht
    exact ⟨rfl, rfl, rfl, le_rfl⟩
  · exact (exec_hostPort_reservationKept (s := { s with request := none }) hi hv ht).after ⟨rfl, rfl, rfl, le_rfl⟩

/-- Settles O48: a BLOCK step keeps the reservation, and no other agent touches it. -/
theorem reservationNeverMovesOrShrinks : Obligations.ReservationNeverMovesOrShrinks := by
  intro s t ht hreset hv
  have hkept : ReservationKept s t := by
    rcases step_cases ht with ⟨a, hb, -⟩ | ⟨ho, -⟩ | ⟨rest, ha, -⟩
    · exact (blockStep_reservationKept (s := { s with agenda := a }) hv hb).after ⟨rfl, rfl, rfl, le_rfl⟩
    · rw [ho.rest]
      exact ⟨rfl, rfl, rfl, le_rfl⟩
    · rw [resetNext, ha] at hreset
      cases hreset
  exact ⟨hkept.valid.trans hv, hkept.base, hkept.limit, hkept.cursor⟩

/-! ### Successive grants (42_arbiter.md R199) -/

/-- A run of allocations is its first one and a run from the state after it. -/
theorem grantAll_cons {size : Nat} {rest as : List Nat} {s t : State} (h : grantAll (size :: rest) s = some (as, t)) :
    ∃ a s' as', allocate size s = some (a, s') ∧ grantAll rest s' = some (as', t) ∧ as = a.toNat :: as' := by
  unfold grantAll at h
  split at h
  · cases h
  · next a s' ha =>
    split at h
    · cases h
    · next as' t' hrest =>
      cases h
      exact ⟨a, s', as', ha, hrest, rfl⟩

/-- What a run of allocations returns: as many bases as sizes, each at the sum of the sizes before it, and the cursor at
the sum of all, within the limit. -/
structure Granted (sizes as : List Nat) (s t : State) : Prop where
  length : as.length = sizes.length
  cursor : t.resvCursor.toNat = s.resvCursor.toNat + sizes.sum
  fits : s.resvCursor.toNat + sizes.sum ≤ s.resvLimit.toNat
  base : ∀ k a, as[k]? = some a → a = s.resvBase.toNat + s.resvCursor.toNat + (sizes.take k).sum

theorem grantAll_granted {sizes as : List Nat} {s t : State} (hcursor : s.resvCursor.toNat ≤ s.resvLimit.toNat)
    (hbound : s.resvBase.toNat + s.resvLimit.toNat < 2 ^ 44) (h : grantAll sizes s = some (as, t)) :
    Granted sizes as s t := by
  induction sizes generalizing s as with
  | nil =>
    cases h
    exact ⟨rfl, rfl, hcursor, fun k a ha => by cases ha⟩
  | cons size rest ih =>
    obtain ⟨a₀, s', as', hfirst, hrest, rfl⟩ := grantAll_cons h
    obtain ⟨ha₀, hbase, hlimit⟩ := allocate_granted hbound hfirst
    obtain ⟨hmoved, hwithin⟩ := allocate_cursor hfirst
    have hgranted := ih (hlimit ▸ hwithin) (by rwa [hbase, hlimit]) hrest
    have hfits := hgranted.fits
    rw [hmoved, hlimit] at hfits
    refine ⟨congrArg (· + 1) hgranted.length, ?_, ?_, fun k a ha => ?_⟩
    · rw [hgranted.cursor, hmoved, List.sum_cons, Nat.add_assoc]
    · rwa [List.sum_cons, ← Nat.add_assoc]
    · cases k with
      | zero =>
        obtain rfl := Option.some.inj ha
        exact ha₀
      | succ k =>
        rw [hgranted.base k a ha, hbase, hmoved, List.take_succ_cons, List.sum_cons]
        omega

/-- The sum up to and including an entry is at most the sum of any longer initial part. -/
theorem sum_take_add_le {l : List Nat} {k j n : Nat} (h : l[k]? = some n) (hkj : k < j) :
    (l.take k).sum + n ≤ (l.take j).sum := by
  calc (l.take k).sum + n = (l.take (k + 1)).sum := by simp [List.take_add_one, h]
    _ ≤ (l.take j).sum := l.monotone_sum_take hkj

/-- Settles O53: each grant ends where the sum of the sizes up to it ends, which is where the next begins and within the
sum of all. -/
theorem grantsAreConsecutiveAndInside : Obligations.GrantsAreConsecutiveAndInside := by
  intro sizes s t as hcursor hbound h
  have hg := grantAll_granted hcursor hbound h
  refine ⟨hg.length, hg.cursor, fun k a size ha hsize => ⟨hg.base k a ha, ?_, fun l b hkl hb => ?_⟩⟩
  · have hsum := sum_take_add_le hsize (List.getElem?_eq_some_iff.mp hsize).1
    rw [List.take_length] at hsum
    have hfits := hg.fits
    rw [hg.base k a ha]
    omega
  · have hsum := sum_take_add_le hsize hkl
    rw [hg.base k a ha, hg.base l b hb]
    omega

end Sys2Proof.Machine
end

section
/-! A call begins (O56), presents its SEND (O58), and its SEND and its reply come out (O60). -/

namespace Sys2Proof.Machine

/-! ### A call begins (43_command_boundary.md R211, R212, R214) -/

/-- HOST begins a call at a free port with no call unfinished (10_state.md R22). -/
theorem step_of_beginCall {s : State} {r : CallRequest} {rest : List Event} (hc : s.config.wf = true)
    (ha : s.agenda = .beginCall r :: rest) (hcmd : s.curCmd = .none) (hreq : s.request = none)
    (hcall : s.call = none) : step s = beginCall r { s with agenda := rest } := by
  have hturn : step s = hostTurn rest (beginCall r) s := by rw [step_eq_turn hc, turn, ha]
  rw [hturn, hostTurn, if_pos ((portReady_iff s).mpr ⟨hcmd, hreq⟩), hcall]

theorem beginCall_of_fits {r : CallRequest} {s : State} (hf : s.fsm = .done) (hne : r.channel ≠ 0)
    (hmem : r.channel ∈ s.epList) (hfits : s.config.callBufOffset + r.input.length ≤ s.resvLimit.toNat) :
    beginCall r s = .next (openCall r (.writing (callBuffer s) r.input) s) := by
  rw [beginCall, if_pos hf, if_neg (not_or.mpr ⟨hne, not_not_intro hmem⟩), if_neg (Nat.not_lt.mpr hfits)]

theorem beginCall_of_tooLong {r : CallRequest} {s : State} (hf : s.fsm = .done) (hne : r.channel ≠ 0)
    (hmem : r.channel ∈ s.epList) (hlong : s.resvLimit.toNat < s.config.callBufOffset + r.input.length) :
    beginCall r s = .refused .inputTooLong := by
  rw [beginCall, if_pos hf, if_neg (not_or.mpr ⟨hne, not_not_intro hmem⟩), if_pos hlong]

theorem beginCall_of_notDiscovered {r : CallRequest} {s : State} (hf : s.fsm = .done)
    (hch : r.channel = 0 ∨ r.channel ∉ s.epList) : beginCall r s = .refused .channelNotDiscovered := by
  rw [beginCall, if_pos hf, if_pos hch]

/-- Before DONE a call has no window to write (44_host_interface.md R242; log 23). -/
theorem beginCall_of_not_done {r : CallRequest} {s : State} (hf : s.fsm ≠ .done) :
    beginCall r s = .next (openCall r (.writing 0 []) s) := if_neg hf

/-- Settles O56: one rule of `beginCall` for each clause. -/
theorem callTakesTheSequenceTag : Obligations.CallTakesTheSequenceTag := by
  intro s r rest hc ha hcmd hreq hcall
  rw [step_of_beginCall hc ha hcmd hreq hcall]
  refine ⟨s.seq + 1, BitVec.toNat_add s.seq 1, fun hf hne hmem => ⟨fun hfits => ?_, fun hlong => ?_⟩,
    fun hf hch => ?_, fun hf => ⟨0, ?_⟩⟩
  · exact beginCall_of_fits (s := { s with agenda := rest }) hf hne hmem hfits
  · exact beginCall_of_tooLong (s := { s with agenda := rest }) hf hne hmem hlong
  · exact beginCall_of_notDiscovered (s := { s with agenda := rest }) hf hch
  · exact beginCall_of_not_done (s := { s with agenda := rest }) hf

/-! ### The request of a call and the commands it presents (43_command_boundary.md R213, R215) -/

/-- Above its tag the request's word 1 is CALL_ENCODE's. -/
theorem ignoredW1_callMessage (r : CallRequest) (q : BitVec 4) :
    ignoredW1 (callMessage r q) = ignoredW1 (Config.callEncode r.command r.key r.input.length q) := by
  simp (disch := omega) [callMessage, ignoredW1, BitVec.extractLsb'_or, extractLsb'_fieldAt_same,
    extractLsb'_fieldAt_apart]

theorem callWrite_nil (c : Call) (addr : Nat) (s : State) :
    callWrite c addr [] s =
      .next (presentRequest (sendRequest (callMessage c.req c.seq)) (setPhase c .awaitSend s)) := rfl

/-- Settles O58: the SEND presented is that of the call's request, whose tag is the channel. -/
theorem callPresentsItsRequest : Obligations.CallPresentsItsRequest := by
  intro s c addr hc hag hcmd hreq hcall hph
  rw [step_of_continueCall hc hag hcmd hreq hcall, consumerStep_of_writing hph, callWrite_nil,
    presentRequest, issueCommand_sendRequest, msgEp_callMessage]
  refine ⟨cmdWord 0x03 0, (callMessage c.req c.seq).w1, _, cmdWord_toNat 0x03 0, rfl, ?_, ?_, rfl⟩
  · exact (msgEp_toNat _).symm.trans (congrArg BitVec.toNat (msgEp_callMessage c.req c.seq))
  · rw [← ignoredW1_toNat, ← ignoredW1_toNat, ignoredW1_callMessage]

/-! ### The SEND and the RECV of a call have completed (43_command_boundary.md R214 to R217) -/

theorem consumerStep_of_awaitSend {c : Call} (h : c.phase = .awaitSend) (s : State) :
    consumerStep c s = .next (callAfterSend c s) := by
  rw [consumerStep, h]

theorem consumerStep_of_awaitRecv {c : Call} (h : c.phase = .awaitRecv) (s : State) :
    consumerStep c s = callAfterRecv c s := by
  rw [consumerStep, h]

section
variable {c : Call} {s : State} {r : Response}

theorem callAfterSend_of_ok (hr : s.response = some r) (hok : r.status = .ok) :
    callAfterSend c s = presentRequest (recvRequest c.req.channel) (setPhase c .awaitRecv s) := by
  simp only [callAfterSend, hr, if_pos hok]

/-- A SEND or RECV of a call that did not complete with OK ends the call with its status (43_command_boundary.md
R217). -/
theorem consumerStep_of_not_ok (hph : c.phase = .awaitSend ∨ c.phase = .awaitRecv) (hr : s.response = some r)
    (hne : r.status ≠ .ok) : consumerStep c s = .next (endCall r.status [] s) := by
  rcases hph with hph | hph
  · simp only [consumerStep_of_awaitSend hph, callAfterSend, hr, if_neg hne]
  · simp only [consumerStep_of_awaitRecv hph, callAfterRecv, hr, if_neg hne]

/-- What a call makes of a reply: the tag is checked first (log 25). -/
theorem callAfterRecv_of_ok (hr : s.response = some r) (hok : r.status = .ok) :
    callAfterRecv c s =
      if (Config.callDecode ⟨r.res0, r.res1⟩).seq ≠ c.seq then .fault .replySeqMismatch
      else if (Config.callDecode ⟨r.res0, r.res1⟩).ok = false then .next (endCall .nak [] s)
      else if (Config.callDecode ⟨r.res0, r.res1⟩).length < c.req.capacity then .next (endCall .shortData [] s)
      else .next (setPhase c (.reading (callBuffer s) c.req.capacity []) s) := by
  simp only [callAfterRecv, hr, if_pos hok]

end

/-- Settles O60: the SEND completed, a command of the call failed, or the reply is decoded, by its tag, its sign and its
length in turn. -/
theorem callReplyOutcomes : Obligations.CallReplyOutcomes := by
  intro s c r hc hag hcmd hreq hcall hresp
  have hr : ({ s with agenda := [] } : State).response = some r := hresp
  rw [step_of_continueCall hc hag hcmd hreq hcall]
  refine ⟨fun hph hok => ⟨cmdWord 0x04 c.req.channel, cmdWord_toNat 0x04 _, ?_⟩,
    fun hph hne => consumerStep_of_not_ok hph hr hne, fun hph hok => ?_⟩
  · rw [consumerStep_of_awaitSend hph, callAfterSend_of_ok hr hok, presentRequest, issueCommand_recvRequest]
    rfl
  · rw [consumerStep_of_awaitRecv hph, callAfterRecv_of_ok hr hok]
    refine ⟨fun htag => if_pos htag, fun htag => ?_⟩
    rw [if_neg (not_not_intro htag)]
    refine ⟨fun hnak => if_pos hnak, fun hpos hshort => ?_, fun hpos hlong => ?_⟩
    · rw [if_neg (ne_false_of_eq_true hpos), if_pos hshort]
      rfl
    · rw [if_neg (ne_false_of_eq_true hpos), if_neg (Nat.not_lt.mpr hlong)]
      rfl

end Sys2Proof.Machine
end

section
/-! The host commands: what each does in its accepting step (O18 to O22), and that a command turned away changes nothing
(O23). -/

namespace Sys2Proof.Machine

/-! ### A completion in the accepting step (44_host_interface.md R230, R241) -/

section
variable {s : State}

/-- Completing where no command is in progress writes the response alone. -/
theorem complete_of_curCmd_none (hc : s.curCmd = .none) (status : Status) (r0 r1 : Word) :
    complete status r0 r1 s = { s with response := some ⟨status, r0, r1⟩ } := by
  rw [complete, ← hc]

/-- Turning a command away writes the response alone. -/
theorem illegalOp_of_curCmd_none (hc : s.curCmd = .none) :
    illegalOp s = { s with response := some ⟨.illegalOp, 0, 0⟩ } := complete_of_curCmd_none hc .illegalOp 0 0

/-! ### What each command does (44_host_interface.md R233 to R239) -/

theorem execBoot_of_accepted (hf : s.fsm = .idle) (hv : s.resvValid = true) :
    execBoot s = .next (idleAction { s with curCmd := .boot }) := by
  rw [execBoot, if_pos ⟨hf, hv⟩]

theorem execBoot_of_refused (h : s.fsm ≠ .idle ∨ s.resvValid = false) : execBoot s = .next (illegalOp s) := by
  rw [execBoot, if_neg fun hacc => h.elim (· hacc.1) (Bool.eq_false_iff.mp · hacc.2)]

theorem execSend_of_done (hf : s.fsm = .done) (w0 w1 : Word) :
    execSend w0 w1 s = .next (startCommand .send (setTx ⟨w0, w1⟩ s)) := by
  rw [execSend, if_pos hf]

theorem execSend_of_not_done (hf : s.fsm ≠ .done) (w0 w1 : Word) : execSend w0 w1 s = .next (illegalOp s) := by
  rw [execSend, if_neg hf]

theorem execRecv_of_done (hf : s.fsm = .done) (ch : Byte) :
    execRecv ch s = .next (startCommand .recv { s with curCh := ch }) := by
  rw [execRecv, if_pos hf]

theorem execRecv_of_not_done (hf : s.fsm ≠ .done) (ch : Byte) : execRecv ch s = .next (illegalOp s) := by
  rw [execRecv, if_neg hf]

theorem execRdreg_of_some {sel : Byte} {v : Word} (h : readReg s sel = some v) :
    execRdreg sel s = .next (complete .ok v 0 s) := by
  rw [execRdreg, h]

theorem execRdreg_of_none {sel : Byte} (h : readReg s sel = none) : execRdreg sel s = .next (illegalOp s) := by
  rw [execRdreg, h]

theorem execRdep_of_entry {idx : Byte} {e : Byte} (hf : s.fsm = .done) (he : s.epList[idx.toNat]? = some e) :
    execRdep idx s = .next (complete .ok (e.setWidth 64) 0 s) := by
  simp only [execRdep, he, if_pos hf]

/-- Whether the index or the state is wrong, the answer is the same. -/
theorem execRdep_of_refused {idx : Byte} (h : s.fsm ≠ .done ∨ s.epList.length ≤ idx.toNat) :
    execRdep idx s = .next (illegalOp s) := by
  rcases h with hf | hlen
  · simp only [execRdep, if_neg hf]
    cases s.epList[idx.toNat]? <;> rfl
  · simp only [execRdep, List.getElem?_eq_none hlen]

end

/-! ### The refusals and the acceptances -/

/-- Settles O18: a BOOT turned away writes the response alone. -/
theorem bootRefusedOutsideIdleOrUnreserved : Obligations.BootRefusedOutsideIdleOrUnreserved := by
  intro s hc hrefused
  rw [← illegalOp_of_curCmd_none hc]
  exact execBoot_of_refused hrefused

/-- Settles O19: the rules of SEND and RECV in DONE. -/
theorem sendAndRecvAcceptedInDone : Obligations.SendAndRecvAcceptedInDone :=
  fun _ hf => ⟨execSend_of_done hf, execRecv_of_done hf⟩

/-- Settles O20: the refusal of each of the three commands. -/
theorem sendRecvRdepRefusedOutsideDone : Obligations.SendRecvRdepRefusedOutsideDone := by
  intro i s hf hc hi
  rw [← illegalOp_of_curCmd_none hc]
  rcases hi with ⟨w0, w1, rfl⟩ | ⟨ch, rfl⟩ | ⟨idx, rfl⟩
  · exact execSend_of_not_done hf w0 w1
  · exact execRecv_of_not_done hf ch
  · exact execRdep_of_refused (.inl hf)

/-- Settles O22: an entry of the list is read, and the two refusals are one rule. -/
theorem rdepReadsTheEndpointList : Obligations.RdepReadsTheEndpointList := by
  intro s idx hc
  rw [← illegalOp_of_curCmd_none hc]
  refine ⟨fun hlt hf => ⟨s.epList[idx.toNat].setWidth 64, BitVec.toNat_setWidth_of_le (by omega), ?_⟩,
    execRdep_of_refused⟩
  rw [← complete_of_curCmd_none hc]
  exact execRdep_of_entry hf (List.getElem?_eq_getElem hlt)

/-! ### The register map (10_state.md R39) -/

/-- The selectors that name no register now: the reserved ones, and the reservation's before there is one. -/
theorem readReg_eq_none {s : State} {sel : Byte} (h : sel.toNat = 0x0C ∨ 0x0E ≤ sel.toNat ∨
    (0x09 ≤ sel.toNat ∧ sel.toNat ≤ 0x0B ∧ s.resvValid = false)) : readReg s sel = none := by
  rcases h with hsel | hsel | ⟨hlo, hhi, hv⟩
  · rw [readReg, hsel]
    rfl
  · unfold readReg
    split
    case h_14 => rfl
    all_goals omega
  · obtain hsel | hsel | hsel : sel.toNat = 0x09 ∨ sel.toNat = 0x0A ∨ sel.toNat = 0x0B := by omega
    all_goals
      rw [readReg, hsel, hv]
      rfl

/-- RDREG of a selector that names the register `x`. -/
theorem rdreg_answers {k : Nat} {s : State} {sel : Byte} (hc : s.curCmd = .none) (x : BitVec k) (hk : k ≤ 64)
    (hread : readReg s sel = some (x.setWidth 64)) :
    ∃ w : Word, w.toNat = x.toNat ∧ exec (.rdreg sel) s = .next { s with response := some ⟨.ok, w, 0⟩ } := by
  refine ⟨x.setWidth 64, BitVec.toNat_setWidth_of_le hk, ?_⟩
  rw [← complete_of_curCmd_none hc]
  exact execRdreg_of_some hread

/-- Settles O21: each selector of the map by its register, and the selectors that name none. -/
theorem rdregFollowsTheRegisterMap : Obligations.RdregFollowsTheRegisterMap := by
  refine ⟨rfl, rfl, fun s sel hc hlen => ⟨fun v hmap => ?_, fun hnone => ?_⟩⟩
  · rcases hmap with ⟨rfl, rfl⟩ | ⟨rfl, rfl⟩ | ⟨rfl, rfl⟩ | ⟨rfl, rfl⟩ | ⟨rfl, rfl⟩ | ⟨rfl, rfl⟩ |
      ⟨rfl, rfl⟩ | ⟨rfl, rfl⟩ | ⟨rfl, rfl⟩ | ⟨rfl, hv, rfl⟩ | ⟨rfl, hv, rfl⟩ | ⟨rfl, hv, rfl⟩ | ⟨rfl, rfl⟩
    · exact rdreg_answers hc (fsmCode s.fsm) (by decide) rfl
    · exact rdreg_answers hc (statusCode s.faultCode) (by decide) rfl
    · exact rdreg_answers hc (fsmCode s.faultState) (by decide) rfl
    · exact rdreg_answers hc s.faultW0 le_rfl (congrArg some (BitVec.setWidth_eq _).symm)
    · exact rdreg_answers hc s.faultW1 le_rfl (congrArg some (BitVec.setWidth_eq _).symm)
    · exact rdreg_answers hc s.helloVer (by decide) rfl
    · rw [← epCount_toNat hlen]
      exact rdreg_answers hc (epCount s) (by decide) rfl
    · exact rdreg_answers hc s.epmapCount (by decide) rfl
    · have hbit : (if s.resvValid = true then 1 else 0) = (BitVec.ofBool s.resvValid).toNat := by
        cases s.resvValid <;> rfl
      rw [hbit]
      exact rdreg_answers hc (BitVec.ofBool s.resvValid) (by decide) rfl
    · exact rdreg_answers hc s.resvBase (by decide) (if_pos hv)
    · exact rdreg_answers hc s.resvLimit (by decide) (if_pos hv)
    · exact rdreg_answers hc s.resvCursor (by decide) (if_pos hv)
    · exact rdreg_answers hc s.epIdx (by decide) rfl
  · rw [← illegalOp_of_curCmd_none hc]
    exact execRdreg_of_none (readReg_eq_none hnone)

/-! ### A command turned away (44_host_interface.md R241) -/

@[simp] theorem idleAction_curCmd (s : State) : (idleAction s).curCmd = s.curCmd := by
  unfold idleAction
  split <;> rfl

/-- A host command is turned away, completes with OK, or is in progress after its accepting step. -/
theorem exec_hostPort_refused_or {i : Instr} (s : State) (hi : i.source = .hostPort) :
    exec i s = .next (illegalOp s) ∨
    (∃ r0 r1 u, exec i s = .next (complete .ok r0 r1 u)) ∨
    ∃ t, exec i s = .next t ∧ t.curCmd ≠ .none := by
  cases i <;> cases hi
  case resvInit base limit =>
    cases hv : s.resvValid with
    | true => exact .inr (.inl ⟨_, _, _, execResvInit_of_reserved hv base limit⟩)
    | false =>
      rcases Nat.lt_or_ge (base.toNat + limit.toNat) paLimit with hfits | hover
      · exact .inr (.inl ⟨_, _, _, execResvInit_of_fits hv hfits⟩)
      · exact .inl (execResvInit_of_overflow hv hover)
  case boot =>
    by_cases hacc : s.fsm = .idle ∧ s.resvValid = true
    · exact .inr (.inr ⟨_, execBoot_of_accepted hacc.1 hacc.2, by simp⟩)
    · exact .inl (execBoot_of_refused ((not_and_or.mp hacc).imp_right Bool.eq_false_iff.mpr))
  case send w0 w1 =>
    by_cases hf : s.fsm = .done
    · exact .inr (.inr ⟨_, execSend_of_done hf w0 w1, by simp⟩)
    · exact .inl (execSend_of_not_done hf w0 w1)
  case recv ch =>
    by_cases hf : s.fsm = .done
    · exact .inr (.inr ⟨_, execRecv_of_done hf ch, by simp⟩)
    · exact .inl (execRecv_of_not_done hf ch)
  case rdreg sel =>
    cases hread : readReg s sel with
    | some v => exact .inr (.inl ⟨_, _, _, execRdreg_of_some hread⟩)
    | none => exact .inl (execRdreg_of_none hread)
  case rdep idx =>
    by_cases hread : s.fsm = .done ∧ idx.toNat < s.epList.length
    · exact .inr (.inl ⟨_, _, _, execRdep_of_entry hread.1 (List.getElem?_eq_getElem hread.2)⟩)
    · exact .inl (execRdep_of_refused ((not_and_or.mp hread).imp_right Nat.le_of_not_lt))

/-- The step that accepts the command at the port turns it away, completes it with OK, or puts it in progress
(30_encoding.md R111, 44_host_interface.md R231). -/
theorem blockStep_of_request_refused_or {s : State} (hc : s.curCmd = .none) (hport : s.request.isSome = true) :
    blockStep s = .next (illegalOp { s with request := none }) ∨
    (∃ r0 r1 u, blockStep s = .next (complete .ok r0 r1 u)) ∨
    ∃ t, blockStep s = .next t ∧ t.curCmd ≠ .none := by
  obtain ⟨r, hr⟩ := Option.isSome_iff_exists.mp hport
  cases hd : decodeCommand r.cmd r.arg0 r.arg1 with
  | ok i =>
    rw [blockStep_of_request hc hr hd]
    exact exec_hostPort_refused_or _ (source_of_decodeCommand hd)
  | error _ => exact .inl (by simp only [blockStep, hc, hr, acceptStep, hd])

/-- Settles O23: of the three ends of an accepting step only the refusal answers ILLEGAL_OP with no command in
progress. -/
theorem illegalOpChangesNothing : Obligations.IllegalOpChangesNothing := by
  intro s t r0 r1 hnext hc hr hstep hended hresp
  rw [step_of_blockNext hnext] at hstep
  rcases blockStep_of_request_refused_or hc hr with h | ⟨_, _, _, h⟩ | ⟨u, h, hrunning⟩
  · obtain rfl := Host.Outcome.next.inj (hstep.symm.trans h)
    exact illegalOp_of_curCmd_none (s := { s with request := none }) hc
  · obtain rfl := Host.Outcome.next.inj (hstep.symm.trans h)
    simp at hresp
  · obtain rfl := Host.Outcome.next.inj (hstep.symm.trans h)
    exact absurd hended hrunning

end Sys2Proof.Machine
end

section
/-! The bootstrap fault entry (O40), that every step into FAILED is one (O41), and that BLOCK never stops (O51). -/

namespace Sys2Proof.Machine

/-! ### The fault entry (60_exceptions.md R264) -/

/-- What the fault entry writes: the record, FAILED, and the completion of BOOT. -/
theorem bootFault_eq (code : Status) (m : Option Message) (s : State) :
    bootFault code m s = { s with
      faultCode := code, faultState := s.fsm, faultW0 := (faultMessage m).w0, faultW1 := (faultMessage m).w1,
      fsm := .failed, response := some ⟨code, 0, 0⟩, curCmd := .none } := rfl

/-- Settles O40: the fault entry with a message, whose words it records, and with none, which it records as zeros. -/
theorem faultEntryRecordsAndCompletes : Obligations.FaultEntryRecordsAndCompletes :=
  fun code s => ⟨fun m => bootFault_eq code (some m) s, bootFault_eq code none s⟩

/-- From `s` the bootstrap entered FAILED by the fault entry: the record names a code and the state left, BOOT completed
with the code, and OUTQ, the cursor, the endpoint list and CPU_CTRL are as they were (60_exceptions.md R263 to R265). -/
structure FaultEntered (s t : State) : Prop where
  code : t.faultCode ≠ .ok
  state : t.faultState = s.fsm
  response : t.response = some ⟨t.faultCode, 0, 0⟩
  curCmd : t.curCmd = .none
  outq : t.outq = s.outq
  cursor : t.resvCursor = s.resvCursor
  epList : t.epList = s.epList
  cpuCtrl : t.cpuCtrl = s.cpuCtrl
  timeout : t.faultCode = .timeoutSend ∨ t.faultCode = .timeoutRecv → t.faultW0 = 0 ∧ t.faultW1 = 0

/-- The fault entry for a code that is not OK, where a timeout comes with no message (60_exceptions.md R264). -/
theorem bootFault_entered {code : Status} {m : Option Message} (hcode : code ≠ .ok)
    (htimeout : code = .timeoutSend ∨ code = .timeoutRecv → m = none) (s : State) :
    FaultEntered s (bootFault code m s) := by
  refine ⟨hcode, rfl, rfl, rfl, rfl, rfl, rfl, rfl, fun h => ?_⟩
  rw [htimeout h]
  exact ⟨rfl, rfl⟩

/-- A fault entered in `u`, which agrees with `s` in STATE and in what the entry leaves. -/
theorem FaultEntered.before {s u t : State} (h : FaultEntered u t) (hfsm : u.fsm = s.fsm) (houtq : u.outq = s.outq)
    (hcursor : u.resvCursor = s.resvCursor) (hlist : u.epList = s.epList) (hctrl : u.cpuCtrl = s.cpuCtrl) :
    FaultEntered s t :=
  ⟨h.code, h.state.trans hfsm, h.response, h.curCmd, h.outq.trans houtq, h.cursor.trans hcursor,
    h.epList.trans hlist, h.cpuCtrl.trans hctrl, h.timeout⟩

/-! ### The parts of a step that end in FAILED (41_bootstrap.md R174) -/

theorem startFrom_fsm_ne_failed (i : Nat) (s : State) : (startFrom i s).fsm ≠ .failed := by
  rcases startFrom_fsm i s with he | he <;> rw [he] <;> decide

/-- What follows a sent message never faults (41_bootstrap.md R156, R159, R163, R166, R170, R171). -/
theorem afterSend_fsm_ne_failed {f : FsmState} (hf : isSend f = true) (s : State) : (afterSend f s).fsm ≠ .failed := by
  cases f
  case sendIdlereq | sendHello | sendGrant | sendPwrack => exact nofun
  case sendEpack =>
    cases hl : s.epmapLast with
    | true => rw [afterSend, afterEpack_of_last hl]; exact startFrom_fsm_ne_failed 0 s
    | false => rw [afterSend, afterEpack_of_not_last hl]; exact nofun
  case sendEpstart => exact startFrom_fsm_ne_failed _ s
  all_goals cases hf

/-- A SEND_* state's step enters FAILED by its timeout alone (41_bootstrap.md R152). -/
theorem sendStep_entered {s : State} (hs : isSend s.fsm = true) (hne : s.fsm ≠ .failed) (m : Message)
    (hf : (sendStep m (afterSend s.fsm) s).fsm = .failed) : FaultEntered s (sendStep m (afterSend s.fsm) s) := by
  rcases sendStep_cases m (afterSend s.fsm) s with ⟨-, he⟩ | ⟨-, -, he⟩ | ⟨-, -, he⟩ <;> rw [he] at hf ⊢
  · exact absurd hf (afterSend_fsm_ne_failed hs _)
  · exact (bootFault_entered (by decide) (fun _ => rfl) _).before rfl rfl rfl rfl rfl
  · exact absurd hf hne

/-- A buffer request enters FAILED when it does not fit, and then moves no cursor (42_arbiter.md R195). -/
theorem serveBufferRequest_entered {m : Message} {size : Nat} {s : State}
    (hf : (serveBufferRequest m size s).fsm = .failed) : FaultEntered s (serveBufferRequest m size s) := by
  rcases allocate_cases size s with ⟨hlimit, -⟩ | ⟨-, he⟩
  · rw [serveBufferRequest_of_not_fits hlimit]
    exact bootFault_entered (by decide) (by simp) s
  · rw [serveBufferRequest, he] at hf
    cases hf

/-- A received message enters FAILED as a protocol violation or out of memory (41_bootstrap.md R157 to R169). -/
theorem onMessage_entered {m : Message} {s t : State} (hw : isWait s.fsm = true) (ht : onMessage m s = .next t)
    (hf : t.fsm = .failed) : FaultEntered s t := by
  obtain ⟨t', ht', hcases⟩ := onMessage_cases m hw
  obtain rfl : t' = t := Host.Outcome.next.inj (ht'.symm.trans ht)
  rcases hcases with ⟨-, rfl⟩ | ⟨-, -, rfl⟩ | ⟨-, rfl⟩ | ⟨-, m', size, rfl⟩ | ⟨m', rfl⟩
  · cases hf
  · cases hf
  · cases hf
  · exact serveBufferRequest_entered hf
  · exact bootFault_entered (by decide) (by simp) s

/-- A WAIT_* state's step enters FAILED by its message or by its timeout (41_bootstrap.md R153). -/
theorem waitStep_entered {s t : State} (hw : isWait s.fsm = true) (hne : s.fsm ≠ .failed)
    (ht : waitStep s = .next t) (hf : t.fsm = .failed) : FaultEntered s t := by
  rcases waitStep_cases s with ⟨m, rest, -, he⟩ | ⟨-, -, he⟩ | ⟨-, -, he⟩ <;> rw [he] at ht
  · exact (onMessage_entered (s := setInq rest (spendPoll s)) hw ht hf).before rfl rfl rfl rfl rfl
  · obtain rfl := Host.Outcome.next.inj ht
    exact (bootFault_entered (by decide) (fun _ => rfl) _).before rfl rfl rfl rfl rfl
  · obtain rfl := Host.Outcome.next.inj ht
    exact absurd hf hne

/-- The accepting step of a host command does not enter FAILED (44_host_interface.md R231 to R239). -/
theorem exec_hostPort_fsm_ne_failed {i : Instr} {s t : State} (hi : i.source = .hostPort) (hne : s.fsm ≠ .failed)
    (ht : exec i s = .next t) : t.fsm ≠ .failed := by
  rcases exec_hostPort_cases hi ht with ⟨_, _, _, rfl⟩ | ⟨_, _, _, _, rfl⟩ | ⟨_, _, rfl⟩ | ⟨_, _, rfl⟩ | ⟨_, _, rfl⟩
  · exact hne
  · exact hne
  · intro hf
    have hedge := fsmEdge_idleAction { s with curCmd := .boot }
    rw [hf] at hedge
    cases hedge
  · exact hne
  · exact hne

/-- Of the BLOCK steps those in a SEND_* and in a WAIT_* state alone enter FAILED (10_state.md R23). -/
theorem blockStep_entered {s t : State} (hne : s.fsm ≠ .failed) (ht : blockStep s = .next t)
    (hf : t.fsm = .failed) : FaultEntered s t := by
  rcases blockStep_cases s with ⟨-, he⟩ | ⟨-, he⟩ | ⟨-, hw, he⟩ | ⟨-, hs, he⟩ | ⟨-, -, -, he⟩ | ⟨-, -, he⟩ |
    ⟨-, -, he⟩ | ⟨-, -, i, hi, he⟩ <;> rw [he] at ht
  · obtain rfl := Host.Outcome.next.inj ht
    exact absurd ((sendCommandStep_fsm s).symm.trans hf) hne
  · obtain rfl := Host.Outcome.next.inj ht
    exact absurd ((recvCommandStep_fsm s).symm.trans hf) hne
  · exact waitStep_entered hw hne ht hf
  · obtain rfl := Host.Outcome.next.inj ht
    exact sendStep_entered hs hne _ hf
  · obtain rfl := Host.Outcome.next.inj ht
    exact absurd hf hne
  · obtain rfl := Host.Outcome.next.inj ht
    exact absurd hf hne
  · obtain rfl := Host.Outcome.next.inj ht
    exact absurd hf hne
  · exact absurd hf (exec_hostPort_fsm_ne_failed (s := { s with request := none }) hi hne ht)

/-- Settles O41: a BLOCK step enters FAILED by the fault entry; no other agent touches STATE, and reset goes to IDLE. -/
theorem everyEntryToFailedIsRecorded : Obligations.EveryEntryToFailedIsRecorded := by
  intro s t ht hne hf
  have hfault : FaultEntered s t := by
    rcases step_cases ht with ⟨a, hb, -⟩ | ⟨ho, -⟩ | ⟨rest, -, rfl⟩
    · exact (blockStep_entered (s := { s with agenda := a }) hne hb hf).before rfl rfl rfl rfl rfl
    · rw [ho.rest] at hf
      exact absurd hf hne
    · cases hf
  exact ⟨hfault.code, hfault.state, hfault.response, hfault.curCmd, hfault.outq, hfault.cursor, hfault.epList,
    hfault.cpuCtrl, hfault.timeout⟩

/-! ### A BLOCK step answers (60_exceptions.md R263) -/

/-- A WAIT_* state gives every message a meaning, and an empty INQ too (41_bootstrap.md R153). -/
theorem waitStep_next {s : State} (hw : isWait s.fsm = true) : ∃ t, waitStep s = .next t := by
  rcases waitStep_cases s with ⟨m, rest, -, he⟩ | ⟨-, -, he⟩ | ⟨-, -, he⟩ <;> rw [he]
  · obtain ⟨t, ht, -⟩ := onMessage_cases m (s := setInq rest (spendPoll s)) hw
    exact ⟨t, ht⟩
  · exact ⟨_, rfl⟩
  · exact ⟨_, rfl⟩

theorem blockStep_next (s : State) : ∃ t, blockStep s = .next t := by
  rcases blockStep_cases s with ⟨-, he⟩ | ⟨-, he⟩ | ⟨-, hw, he⟩ | ⟨-, -, he⟩ | ⟨-, -, -, he⟩ | ⟨-, -, he⟩ |
    ⟨-, -, he⟩ | ⟨-, -, i, hi, he⟩
  · exact ⟨_, he⟩
  · exact ⟨_, he⟩
  · rw [he]
    exact waitStep_next hw
  · exact ⟨_, he⟩
  · exact ⟨_, he⟩
  · exact ⟨_, he⟩
  · exact ⟨_, he⟩
  · rw [he]
    exact exec_hostPort_next _ hi

/-! ### What HOST's turn is refused with (20_memory.md R71, 43_command_boundary.md R211, R212) -/

/-- The outcome, if it is a refusal, is one of the consumer's three. -/
def RefusedByConsumer : Host.Outcome State Fault Refusal → Prop
  | .next _ => True
  | .fault _ => True
  | .refused r => r = .channelNotDiscovered ∨ r = .inputTooLong ∨ r = .misalignedWindow

theorem blockStep_refusedByConsumer (s : State) : RefusedByConsumer (blockStep s) := by
  obtain ⟨t, ht⟩ := blockStep_next s
  rw [ht]
  trivial

theorem windowWrite_refusedByConsumer (addr v : Nat) (s : State) : RefusedByConsumer (windowWrite addr v s) := by
  unfold windowWrite
  split
  · split
    · exact .inr (.inr rfl)
    · trivial
  · trivial

theorem windowRead_refusedByConsumer (addr : Nat) (s : State) : RefusedByConsumer (windowRead addr s) := by
  unfold windowRead
  split
  · split
    · exact .inr (.inr rfl)
    · trivial
  · trivial

theorem beginCall_refusedByConsumer (r : CallRequest) (s : State) : RefusedByConsumer (beginCall r s) := by
  unfold beginCall
  split_ifs
  · exact .inl rfl
  · exact .inr (.inl rfl)
  · trivial
  · trivial

theorem callWrite_refusedByConsumer (c : Call) (addr : Nat) (rest : List Byte) (s : State) :
    RefusedByConsumer (callWrite c addr rest s) := by
  cases rest with
  | nil => trivial
  | cons b bs =>
    rw [callWrite]
    split
    · exact .inr (.inr rfl)
    · trivial

/-- A call's reply is refused by no rule (43_command_boundary.md R214 to R217). -/
theorem callAfterRecv_refusedByConsumer (c : Call) (s : State) : RefusedByConsumer (callAfterRecv c s) := by
  cases hr : s.response with
  | none => rw [callAfterRecv, hr]; trivial
  | some r =>
    by_cases hok : r.status = .ok
    · rw [callAfterRecv_of_ok hr hok]
      split_ifs <;> trivial
    · simp only [callAfterRecv, hr, if_neg hok]
      trivial

theorem callRead_refusedByConsumer (c : Call) (addr remaining : Nat) (got : List Byte) (s : State) :
    RefusedByConsumer (callRead c addr remaining got s) := by
  cases remaining with
  | zero => trivial
  | succ k =>
    rw [callRead]
    split
    · exact .inr (.inr rfl)
    · trivial

theorem consumerStep_refusedByConsumer (c : Call) (s : State) : RefusedByConsumer (consumerStep c s) := by
  unfold consumerStep
  split
  · exact callWrite_refusedByConsumer c _ _ s
  · trivial
  · exact callAfterRecv_refusedByConsumer c s
  · exact callRead_refusedByConsumer c _ _ _ s

/-- A HOST turn is BLOCK's, the call's, or HOST's own action (10_state.md R22). -/
theorem hostTurn_refusedByConsumer (rest : List Event) {act : State → Host.Outcome State Fault Refusal}
    (hact : ∀ u, RefusedByConsumer (act u)) (s : State) : RefusedByConsumer (hostTurn rest act s) := by
  unfold hostTurn
  split
  · split
    · exact consumerStep_refusedByConsumer _ s
    · exact hact _
  · exact blockStep_refusedByConsumer s

theorem continueTurn_refusedByConsumer (rest : List Event) (s : State) : RefusedByConsumer (continueTurn rest s) := by
  unfold continueTurn
  split
  · split
    · exact consumerStep_refusedByConsumer _ _
    · trivial
  · exact blockStep_refusedByConsumer s

/-- The turn of each agent, by the agenda's head (10_state.md R20 to R23). -/
theorem turn_refusedByConsumer (s : State) : RefusedByConsumer (turn s) := by
  unfold turn
  split
  · exact blockStep_refusedByConsumer s
  · exact blockStep_refusedByConsumer _
  · exact hostTurn_refusedByConsumer _ (fun _ => by trivial) s
  · exact hostTurn_refusedByConsumer _ (beginCall_refusedByConsumer _) s
  · exact continueTurn_refusedByConsumer _ s
  · exact windowWrite_refusedByConsumer _ _ _
  · exact windowRead_refusedByConsumer _ _
  all_goals trivial

/-- Settles O51: a BLOCK step answers, and a turn refused under a legal configuration is HOST's. -/
theorem blockNeverStops : Obligations.BlockNeverStops := by
  refine fun s => ⟨blockStep_next s, fun hc r hr => ?_⟩
  have hturn := turn_refusedByConsumer s
  rwa [← step_eq_turn hc, hr] at hturn

end Sys2Proof.Machine
end

section
/-! What the reset event leaves alone (O42). -/

namespace Sys2Proof.Machine

/-- The reset event's turn is the block's reset with the event taken off the agenda (70_reset_and_hazards.md R290). -/
theorem step_of_resetTurn {s : State} {rest : List Event} (hc : s.config.wf = true)
    (ha : s.agenda = .reset :: rest) : step s = .next (resetBlock { s with agenda := rest }) := by
  rw [step_eq_turn hc, turn, ha]

/-- Settles O42: `resetBlock` keeps each field R291 names, and taking the event off the agenda touches none of them. -/
theorem resetLeavesTheOutsideAlone : Obligations.ResetLeavesTheOutsideAlone := fun _ _ hc ha =>
  ⟨_, step_of_resetTurn hc ha, resetBlock_cpuCtrl _, resetBlock_outq _, resetBlock_inq _, resetBlock_mem _,
    resetBlock_config _⟩

end Sys2Proof.Machine
end
